-- ==== Sys2Proof/Word.lean ====
section
/-!
DEFINITION. Word.lean: the fixed widths of the block (00_scope.md R6, R8) and the two narrowings every rule uses.
-/

namespace Sys2Proof

/-- A port byte or an 8-bit register (R8). -/
abbrev Byte := BitVec 8

/-- A 16-bit register-file entry, operand or debug address (20_memory.md R64, R65). -/
abbrev Half := BitVec 16

/-- A 32-bit register, command word or debug word (R6 "register width"). -/
abbrev Word := BitVec 32

/-- An exact natural number written to a 32-bit register (R9: the value fits, from every reachable state). -/
def toWord (n : Nat) : Word := BitVec.ofNat 32 n

/-- An exact natural number written to an 8-bit register. -/
def toByte (n : Nat) : Byte := BitVec.ofNat 8 n

end Sys2Proof
end

