-- ==== Sys2Proof/Config.lean ====
section
/-!
DEFINITION. Config.lean: the constants and the build-time parameters of 00_scope.md R6, R7. The spec has no free value
(93_implementation_defined.md, head; 20_memory.md R79), so nothing here is opaque.
-/

namespace Sys2Proof.Config

/-- `BIT16` (R6): the span of the 16-bit register, and `RANGE` after INIT. -/
def bit16 : Nat := 0x10000

/-- `MASK16` (R6): the mask `Detach` applies to `FEVEN` (41_coder.md R148). -/
def mask16 : Word := 0xFFFF

/-- `MAXP1` (R6): the largest model total, and the renormalisation threshold `BIT16 / 2` (41_coder.md R146). -/
def maxP1 : Nat := 0x8000

/-- `IBTOP` (R6): the number of resident bits at which `Detach` runs. -/
def ibTop : Nat := 24

/-- `FOMASK` (R6): the XOR mask of every file byte (40_fobit.md R102). -/
def foMask : Byte := 0x37

/-- `WIN` (R6): the number of slots of the model window. -/
def winSize : Nat := 4096

/-- `ZONE` (R6): the number of window slots in one zone. -/
def zone : Nat := 1024

/-- `WEIGHT[0..3]` (R6): the zone weights, newest to oldest; a symbol older than zone 3 weighs nothing (42_model.md R183). -/
def weight : Nat → Nat
  | 0 => 6
  | 1 => 4
  | 2 => 3
  | 3 => 2
  | _ => 0

/-- The empty mark of a window slot (10_state.md R36). -/
def emptySlot : Half := 0xFFFF

/-- What a full window adds to the total: `1024 * (6 + 4 + 3 + 2)` (R6, 42_model.md R180). -/
def windowTotal : Nat := 15360

/-- The largest run a 32-bit counter holds (10_state.md R24, R31, R33). -/
def counterMax : Word := 0xFFFFFFFF

end Sys2Proof.Config

namespace Sys2Proof

/-- The three read-only parameter registers (10_state.md R41). -/
structure Params where
  /-- `NSYM`, the symbol count. -/
  nsym : Half
  /-- `BLOCKSIZE`, the finitely-odd block size. -/
  blockSize : Half
  /-- `LEAFBASE`, the initial count of a symbol. -/
  leafBase : Half
  deriving DecidableEq, Repr

/-- The byte codec's values, the defaults of R6. -/
def Params.byteCodec : Params := { nsym := 256, blockSize := 1, leafBase := 1 }

/-- `BLOCKSIZE` is 1 and nothing else (R6, 40_fobit.md R108). -/
def Params.blockSizeAdmitted (p : Params) : Bool := p.blockSize == 1

/-- `NSYM` in 2 to 4096, `LEAFBASE` in 1 to 64, and `NSYM * LEAFBASE + 15360 <= 0x8000` (R6). -/
def Params.modelAdmitted (p : Params) : Bool :=
  decide (2 ≤ p.nsym.toNat ∧ p.nsym.toNat ≤ 4096 ∧ 1 ≤ p.leafBase.toNat ∧ p.leafBase.toNat ≤ 64 ∧
    p.nsym.toNat * p.leafBase.toNat + Config.windowTotal ≤ Config.maxP1)

/-- A parameter set the spec gives a meaning to (R6). -/
def Params.admitted (p : Params) : Bool := p.blockSizeAdmitted && p.modelAdmitted

/-- `log2 Z`: `Z` is the smallest power of two `>= NSYM` (R6, 10_state.md R35). -/
def Params.depth (p : Params) : Nat :=
  if p.nsym.toNat ≤ 1 then 0 else Nat.log2 (p.nsym.toNat - 1) + 1

/-- `Z`, the leaf count of the model tree (R6). -/
def Params.z (p : Params) : Nat := 2 ^ p.depth

end Sys2Proof
end

