-- ==== Sys2Proof/Machine/Tree.lean ====
section
/-!
DEFINITION. Machine/Tree.lean: the reset contents of the model's register files TREE and WIN (10_state.md R35, R36;
42_model.md R185). They stand before State because State.reset holds them.
-/

namespace Sys2Proof.Machine

/-- The leaves `TREE[Z + s]` at reset, from symbol `s` on: `LEAFBASE` for `s < NSYM`, 0 for padding (R185). -/
def leavesFrom (nsym : Nat) (base : Half) : Nat → Nat → List Half
  | 0, _ => []
  | n + 1, s => (if s < nsym then base else 0) :: leavesFrom nsym base n (s + 1)

/-- The row of parents of a row of nodes: each parent is the sum of its two children (R35). -/
def pairSums : List Half → List Half
  | a :: b :: rest => (a + b) :: pairSums rest
  | _ => []

/-- All rows of the tree in heap order, root first, over a row of `2^k` leaves. -/
def rowsAbove : Nat → List Half → List Half
  | 0, leaves => leaves
  | k + 1, leaves => rowsAbove k (pairSums leaves) ++ leaves

/-- TREE after ModelReset (R185): entry 0 unused and 0, then the rows root first, `2Z` entries in all. -/
def resetTree (p : Params) : List Half :=
  0 :: rowsAbove p.depth (leavesFrom p.nsym.toNat p.leafBase p.z 0)

/-- WIN after ModelReset (R185): every slot empty. -/
def resetWin : List Half := List.replicate Config.winSize Config.emptySlot

end Sys2Proof.Machine
end

