-- ==== Sys2Proof/Machine/State.lean ====
section
/-!
DEFINITION. Machine/State.lean: the whole state of the block (10_state.md R20), grouped as the sections of 10_state.md
group it, the ports, the host's command list, and the stops a step can answer. Plain data throughout.
-/

namespace Sys2Proof.Machine

/-- MODE (R37). Values 5 to 7 never occur, so the type has none (log entry 8). -/
inductive Mode where
  /-- 0: after reset, no stream open. -/
  | idle
  /-- 1: encoding a stream. -/
  | enc
  /-- 2: ENC_END completed. -/
  | encDone
  /-- 3: decoding a file. -/
  | dec
  /-- 4: DEC_SYM returned END. -/
  | decDone
  deriving DecidableEq, Repr

/-- CAUSE (60_exceptions.md R230). Codes 12 to 15 are never written, so the type has none (log entry 8). -/
inductive Cause where
  /-- 0: no fault has occurred. -/
  | noFault
  /-- 1: the word matches no row of the opcode map (R232). -/
  | illegalCommand
  /-- 2: a coder command outside its MODE (R234). -/
  | modeError
  /-- 3: a symbol operand `>= NSYM` (R233). -/
  | badSymbol
  /-- 4: a point outside the model's total, or an invalid model range (R235). -/
  | modelRange
  /-- 5: RANGE is 0 after Narrow (R239). -/
  | rangeZero
  /-- 6: the Cap loop runs out of levels (R241). -/
  | freeEndEscape
  /-- 7: a carry meets an empty carry buffer (R236). -/
  | carryNoPending
  /-- 8: a carry meets a pending 0xFF (R237). -/
  | carryOverflow
  /-- 9: the file on IN is empty (R238). -/
  | emptyStream
  /-- 10: the look-ahead lies below the chosen symbol's range (R242). -/
  | valueBelowLow
  /-- 11: a 32-bit run counter would wrap (R240). -/
  | counterOverflow
  deriving DecidableEq, Repr

/-- One item of the IN port: a byte, or the end mark of a file (20_memory.md R61). -/
inductive InItem where
  /-- A file byte. -/
  | byte (b : Byte)
  /-- The end mark `EOF`. -/
  | eof
  deriving DecidableEq, Repr

/-- The interval engine (R21 to R23, R25, R26). -/
structure Engine where
  /-- LOW: the lower end of the interval. -/
  low : Word
  /-- RANGE: the width of the interval. -/
  range : Word
  /-- NFE: the free end. -/
  nfe : Word
  /-- FEVEN: the free-end resolution mask. -/
  feven : Word
  /-- IBITS: the bits resident in LOW. -/
  ibits : BitVec 5
  deriving DecidableEq, Repr

/-- The carry buffer (R24). -/
structure Carry where
  /-- CARRYBYTE: the pending byte. -/
  byte : Byte
  /-- CARRYBUF: 0 when empty, else 1 plus the run of 0xFF behind the pending byte. -/
  buf : Word
  deriving DecidableEq, Repr

/-- The decoder look-ahead (R29 to R32). -/
structure LookAhead where
  /-- VALUE: the code bits read, as an offset from LOW. -/
  value : Word
  /-- VSHIFT: the bits VALUE is ahead of LOW. -/
  vshift : BitVec 4
  /-- FOLLOWBUF: the count of held zero bytes. -/
  followBuf : Word
  /-- FOLLOWBYTE: the held non-zero byte. -/
  followByte : Byte
  /-- FBVALID: a non-zero byte is held. -/
  fbValid : Bool
  deriving DecidableEq, Repr

/-- The bijector's output side (R33). -/
structure FoSide where
  /-- FO_FIRST: no stream byte accepted yet. -/
  first : Bool
  /-- FO_BORROW: the borrow into the next digit. -/
  borrow : Bool
  /-- FO_HOLD: a stream byte equal to the borrow is held. -/
  hold : Bool
  /-- FO_ZRUN: the zero stream bytes held after it. -/
  zrun : Word
  deriving DecidableEq, Repr

/-- The bijector's input side (R34). -/
structure FiSide where
  /-- FI_FIRST: the next file byte is the file's first. -/
  first : Bool
  /-- FI_CARRY: the carry of the numeration. -/
  carry : Bool
  /-- FI_EOF: the file's end mark has been taken. -/
  eof : Bool
  deriving DecidableEq, Repr

/-- The adaptive model (R35, R36). -/
structure Model where
  /-- TREE: 2Z counts in heap order. -/
  tree : List Half
  /-- WIN: 4096 slots, a symbol or 0xFFFF. -/
  win : List Half
  /-- MHEAD: the slot of the newest symbol. -/
  mhead : BitVec 12
  deriving DecidableEq, Repr

/-- The whole machine: the registers of R20, the ports (20_memory.md R60, R61), and the host's command list with its
index `pc` (R28). -/
structure State where
  /-- The interval engine. -/
  engine : Engine
  /-- The carry buffer. -/
  carry : Carry
  /-- The decoder look-ahead. -/
  look : LookAhead
  /-- The bijector's output side. -/
  fo : FoSide
  /-- The bijector's input side. -/
  fi : FiSide
  /-- The adaptive model. -/
  model : Model
  /-- NSYM, BLOCKSIZE, LEAFBASE (R41): no command writes them. -/
  params : Params
  /-- MODE (R37). -/
  mode : Mode
  /-- FAULT (R38). -/
  fault : Bool
  /-- CAUSE (R38). -/
  cause : Cause
  /-- FAULTCMD (R39). -/
  faultCmd : Word
  /-- RES0 (R40). -/
  res0 : Word
  /-- RES1 (R40). -/
  res1 : Word
  /-- OUT: every byte appended since power-on (20_memory.md R60). -/
  out : List Byte
  /-- IN: the items the host has supplied and the block has not taken, oldest first (20_memory.md R61, log entry 3). -/
  inp : List InItem
  /-- The command words of the host's list (R28, log entry 1). -/
  cmds : List Word
  /-- The index of the next command in the host's list, unbounded (R28). -/
  pc : Nat
  deriving DecidableEq, Repr

/-- The stops that are no next state. None of them is an architectural fault: those are next states (60_exceptions.md
R231). -/
inductive Fault where
  /-- The command holds in `FileIn()`: it needs an IN item and the host has supplied none. Raised by INIT_DEC and
  DEC_SYM through `fileIn`. A stuck state, "a model has no step for it" (93_implementation_defined.md I10,
  20_memory.md R61): the command has not completed, and after the host supplies items (`supplyIn`) the same step from
  the same state completes it. SAFE: the model stops where the block waits (log entry 2). -/
  | heldOnIn
  deriving DecidableEq, Repr

/-- The reasons a step has no meaning. -/
inductive Refusal where
  /-- An instruction without a meaning in this model: no arm of exec answers it. SAFE: the model stops. -/
  | notModelled (mnemonic : String)
  /-- The instance was built with BLOCKSIZE other than 1, refused by 00_scope.md R6 and 40_fobit.md R108. Raised by
  step. SAFE: the spec gives such an instance no meaning. -/
  | blockSizeNotOne
  /-- The instance was built with NSYM or LEAFBASE outside the admitted range of 00_scope.md R6. Raised by step. SAFE:
  the spec gives such an instance no meaning. -/
  | parametersNotAdmitted
  deriving DecidableEq, Repr

/-- The engine's reset values (R20). -/
def Engine.reset : Engine := { low := 0, range := 0x10000, nfe := 0, feven := 0xFFFF, ibits := 16 }

/-- The carry buffer's reset values: empty (R20). -/
def Carry.reset : Carry := { byte := 0, buf := 0 }

/-- The look-ahead's reset values (R20). -/
def LookAhead.reset : LookAhead := { value := 0, vshift := 0, followBuf := 0, followByte := 0, fbValid := false }

/-- The output side's reset values (R20). -/
def FoSide.reset : FoSide := { first := true, borrow := false, hold := false, zrun := 0 }

/-- The input side's reset values (R20). -/
def FiSide.reset : FiSide := { first := true, carry := false, eof := false }

/-- The model's reset contents for a parameter set (R35, R36, 42_model.md R185). -/
def Model.reset (p : Params) : Model := { tree := resetTree p, win := resetWin, mhead := 4095 }

/-- Power-on reset of an instance built with parameters `p` (70_reset_and_hazards.md R260): nothing is taken from IN,
OUT is empty, and the host has written no command yet. -/
def State.powerOn (p : Params) : State :=
  { engine := Engine.reset, carry := Carry.reset, look := LookAhead.reset, fo := FoSide.reset, fi := FiSide.reset,
    model := Model.reset p, params := p, mode := .idle, fault := false, cause := .noFault, faultCmd := 0,
    res0 := 0, res1 := 0, out := [], inp := [], cmds := [], pc := 0 }

/-- The machine right after power-on reset, with the default parameters of 00_scope.md R6. -/
def State.reset : State := State.powerOn Params.byteCodec

end Sys2Proof.Machine
end

