-- ==== Sys2Proof/Machine/Flags.lean ====
section
/-!
DEFINITION. Machine/Flags.lean: the block has no condition codes (10_state.md R42); its flags are STATUS (R38) and the
result registers RES0, RES1 (R40).
-/

namespace Sys2Proof.Machine

/-- The MODE field's value (R37). -/
def Mode.code : Mode → BitVec 3
  | .idle => 0
  | .enc => 1
  | .encDone => 2
  | .dec => 3
  | .decDone => 4

/-- The CAUSE field's value (60_exceptions.md R230). -/
def Cause.code : Cause → BitVec 4
  | .noFault => 0
  | .illegalCommand => 1
  | .modeError => 2
  | .badSymbol => 3
  | .modelRange => 4
  | .rangeZero => 5
  | .freeEndEscape => 6
  | .carryNoPending => 7
  | .carryOverflow => 8
  | .emptyStream => 9
  | .valueBelowLow => 10
  | .counterOverflow => 11

/-- STATUS (R38): MODE [2:0], FAULT [3], 0 [7:4], CAUSE [11:8], 0 [31:12]. -/
def State.status (s : State) : Word :=
  (((0#20 ++ s.cause.code) ++ 0#4) ++ BitVec.ofBool s.fault) ++ s.mode.code

/-- Two 16-bit results in one word, the field named first in bits [31:16]: `(hi << 16) | lo` (20_memory.md R68). -/
def packRange (hi lo : Nat) : Word := toWord ((hi <<< 16) ||| lo)

/-- A command that writes both result registers (R40). -/
def State.writeResults (s : State) (r0 r1 : Word) : State := { s with res0 := r0, res1 := r1 }

end Sys2Proof.Machine
end

