-- ==== Sys2Proof/Machine/Operands.lean ====
section
/-!
DEFINITION. Machine/Operands.lean: operand assembly (30_encoding.md R81): one form, the zero-extended `IMM16`, and the
check of a symbol operand.
-/

namespace Sys2Proof.Machine

/-- The operand of a command: `zext_32(IMM16)`, 0 to 0xFFFF, never sign-extended, scaled or shifted (R81). -/
def operand (imm : Half) : Nat := imm.toNat

/-- The operand as a 32-bit result (42_model.md R187, 41_coder.md R162). -/
def zext32 (n : Nat) : Word := toWord n

/-- A symbol operand the model recognises: 0 to NSYM - 1 (R81, 60_exceptions.md R233). -/
def symbolKnown (p : Params) (sym : Nat) : Bool := decide (sym < p.nsym.toNat)

end Sys2Proof.Machine
end

