-- ==== Sys2Proof/Syntax.lean ====
section
/-!
DEFINITION. Syntax.lean: the command format and the twelve commands of 30_encoding.md (R80 to R82), one constructor
per row of spec/opcode_table.json.
-/

namespace Sys2Proof

/-- A command word split into the four fields of format `CMD` (R80). -/
structure Cmd where
  /-- `OP`, bits [31:28]. -/
  op : BitVec 4
  /-- `C`, bit [27]: the end-permitted flag. -/
  flag : Bool
  /-- `RSV`, bits [26:16]: must be 0. -/
  rsv : BitVec 11
  /-- `IMM16`, bits [15:0]: the operand. -/
  imm : Half
  deriving DecidableEq, Repr

/-- The commands (R82). An operand is the 16-bit field `IMM16` (R81), `c` the flag `C` (R80): every term is the
content of exactly one legal word. -/
inductive Instr where
  /-- `NOP` (43_control.md R210). -/
  | nop
  /-- `INIT_ENC` (43_control.md R211). -/
  | initEnc
  /-- `INIT_DEC` (43_control.md R212). -/
  | initDec
  /-- `ENC_SYM` (41_coder.md R155). -/
  | encSym (c : Bool) (sym : Half)
  /-- `ENC_END` (41_coder.md R156). -/
  | encEnd
  /-- `DEC_SYM` (41_coder.md R162). -/
  | decSym (c : Bool)
  /-- `MODEL_UPDATE` (42_model.md R184). -/
  | modelUpdate (sym : Half)
  /-- `MODEL_RESET` (42_model.md R185). -/
  | modelReset
  /-- `MODEL_PROBONE` (42_model.md R186). -/
  | modelProbone
  /-- `MODEL_SYMRANGE` (42_model.md R187). -/
  | modelSymrange (sym : Half)
  /-- `MODEL_GETSYM` (42_model.md R188). -/
  | modelGetsym (p : Half)
  /-- `RDREG` (43_control.md R213). -/
  | rdreg (addr : Half)
  deriving DecidableEq, Repr

end Sys2Proof
end

