-- ==== Sys2Proof/WellFormed.lean ====
section
/-!
DEFINITION. WellFormed.lean: which command words are legal (30_encoding.md R82, R83), once as the four checks on the
split fields and once as the match and mask table. Every term of Instr is well formed by its types; what can be ill
formed is a word, so the checks stand on `Cmd`.
-/

namespace Sys2Proof

/-- Why a word is illegal (R83, R86); the block reports all of them as one cause, IllegalCommand. -/
inductive Illegal where
  /-- `OP` is 0xC to 0xF. -/
  | reservedOpcode
  /-- A bit of [26:16] is set. -/
  | reservedBits
  /-- `C = 1` on a command that does not read it. -/
  | flagNotAllowed
  /-- `IMM16` is not 0 on a command without an operand. -/
  | operandNotAllowed
  deriving DecidableEq, Repr

/-- R83(a): the opcode is one of the twelve. -/
def Cmd.opcodeDefined (c : Cmd) : Bool := decide (c.op.toNat < 0xC)

/-- R83(b): the reserved bits are 0. -/
def Cmd.reservedClear (c : Cmd) : Bool := c.rsv == 0

/-- R83(b): `C` is set only on ENC_SYM and DEC_SYM. -/
def Cmd.flagAllowed (c : Cmd) : Bool := !c.flag || c.op == 0x3 || c.op == 0x5

/-- R83(b): `IMM16` is non-zero only on a command that has an operand. -/
def Cmd.operandAllowed (c : Cmd) : Bool :=
  c.imm == 0 || c.op == 0x3 || c.op == 0x6 || c.op == 0x9 || c.op == 0xA || c.op == 0xB

/-- A word that is one of the twelve commands (R83). -/
def Cmd.wellFormed (c : Cmd) : Bool :=
  c.opcodeDefined && c.reservedClear && c.flagAllowed && c.operandAllowed

/-- One row of the match and mask table (R82). -/
structure OpcodeRow where
  /-- The mnemonic, as spec/opcode_table.json spells it. -/
  mnemonic : String
  /-- The fixed bits' values. -/
  matchBits : Word
  /-- The fixed bits' places. -/
  maskBits : Word
  deriving DecidableEq, Repr

/-- The match and mask table of R82, in the table's order. -/
def opcodeTable : List OpcodeRow := [
  ⟨"NOP", 0x00000000, 0xFFFFFFFF⟩,
  ⟨"INIT_ENC", 0x10000000, 0xFFFFFFFF⟩,
  ⟨"INIT_DEC", 0x20000000, 0xFFFFFFFF⟩,
  ⟨"ENC_SYM", 0x30000000, 0xF7FF0000⟩,
  ⟨"ENC_END", 0x40000000, 0xFFFFFFFF⟩,
  ⟨"DEC_SYM", 0x50000000, 0xF7FFFFFF⟩,
  ⟨"MODEL_UPDATE", 0x60000000, 0xFFFF0000⟩,
  ⟨"MODEL_RESET", 0x70000000, 0xFFFFFFFF⟩,
  ⟨"MODEL_PROBONE", 0x80000000, 0xFFFFFFFF⟩,
  ⟨"MODEL_SYMRANGE", 0x90000000, 0xFFFF0000⟩,
  ⟨"MODEL_GETSYM", 0xA0000000, 0xFFFF0000⟩,
  ⟨"RDREG", 0xB0000000, 0xFFFF0000⟩]

/-- A word is the command of a row when `w & mask = match` (R82). -/
def OpcodeRow.accepts (r : OpcodeRow) (w : Word) : Bool := w &&& r.maskBits == r.matchBits

/-- A word is legal when it matches a row of the table (R83). -/
def wordLegal (w : Word) : Bool := opcodeTable.any fun r => r.accepts w

/-- The mnemonic of an instruction's row, as spec/opcode_table.json spells it (R82). -/
def Instr.mnemonic : Instr → String
  | .nop => "NOP"
  | .initEnc => "INIT_ENC"
  | .initDec => "INIT_DEC"
  | .encSym _ _ => "ENC_SYM"
  | .encEnd => "ENC_END"
  | .decSym _ => "DEC_SYM"
  | .modelUpdate _ => "MODEL_UPDATE"
  | .modelReset => "MODEL_RESET"
  | .modelProbone => "MODEL_PROBONE"
  | .modelSymrange _ => "MODEL_SYMRANGE"
  | .modelGetsym _ => "MODEL_GETSYM"
  | .rdreg _ => "RDREG"

end Sys2Proof
end

