-- ==== Sys2Proof/Decode.lean ====
section
/-!
DEFINITION. Decode.lean: the decoder of 30_encoding.md R86, total on all 2^32 words, the encoder written from the same
field table (R80, R82), and the host's view of a table row's word.
-/

namespace Sys2Proof

/-- What a word decodes to: a command, or the reason it is none. -/
inductive Decoded where
  /-- A legal word. -/
  | ok (i : Instr)
  /-- An illegal word, with the check that refuses it. -/
  | illegal (why : Illegal)
  deriving DecidableEq, Repr

/-- The fields of a word (R80): `OP` [31:28], `C` [27], `RSV` [26:16], `IMM16` [15:0]. -/
def splitWord (w : Word) : Cmd :=
  { op := w.extractLsb' 28 4, flag := w.getLsbD 27, rsv := w.extractLsb' 16 11, imm := w.extractLsb' 0 16 }

/-- The opcode map (R82), for a word whose fields passed the checks; an opcode 0xC to 0xF has no row. -/
def commandOf (c : Cmd) : Decoded :=
  match c.op.toNat with
  | 0x0 => .ok .nop
  | 0x1 => .ok .initEnc
  | 0x2 => .ok .initDec
  | 0x3 => .ok (.encSym c.flag c.imm)
  | 0x4 => .ok .encEnd
  | 0x5 => .ok (.decSym c.flag)
  | 0x6 => .ok (.modelUpdate c.imm)
  | 0x7 => .ok .modelReset
  | 0x8 => .ok .modelProbone
  | 0x9 => .ok (.modelSymrange c.imm)
  | 0xA => .ok (.modelGetsym c.imm)
  | 0xB => .ok (.rdreg c.imm)
  | _ => .illegal .reservedOpcode

/-- The checks of `Decode(w)` (R86), in its order, then the opcode map. -/
def decodeCmd (c : Cmd) : Decoded :=
  if !c.opcodeDefined then .illegal .reservedOpcode
  else if !c.reservedClear then .illegal .reservedBits
  else if !c.flagAllowed then .illegal .flagNotAllowed
  else if !c.operandAllowed then .illegal .operandNotAllowed
  else commandOf c

/-- `Decode(w)` (R86). -/
def decode (w : Word) : Decoded := decodeCmd (splitWord w)

/-- A word from its fields (R80). -/
def joinWord (c : Cmd) : Word :=
  ((c.op ++ BitVec.ofBool c.flag) ++ c.rsv) ++ c.imm

/-- The fields of an instruction's word: its opcode and free fields from R82, every other field 0. -/
def Instr.fields : Instr → Cmd
  | .nop => { op := 0x0, flag := false, rsv := 0, imm := 0 }
  | .initEnc => { op := 0x1, flag := false, rsv := 0, imm := 0 }
  | .initDec => { op := 0x2, flag := false, rsv := 0, imm := 0 }
  | .encSym c sym => { op := 0x3, flag := c, rsv := 0, imm := sym }
  | .encEnd => { op := 0x4, flag := false, rsv := 0, imm := 0 }
  | .decSym c => { op := 0x5, flag := c, rsv := 0, imm := 0 }
  | .modelUpdate sym => { op := 0x6, flag := false, rsv := 0, imm := sym }
  | .modelReset => { op := 0x7, flag := false, rsv := 0, imm := 0 }
  | .modelProbone => { op := 0x8, flag := false, rsv := 0, imm := 0 }
  | .modelSymrange sym => { op := 0x9, flag := false, rsv := 0, imm := sym }
  | .modelGetsym p => { op := 0xA, flag := false, rsv := 0, imm := p }
  | .rdreg addr => { op := 0xB, flag := false, rsv := 0, imm := addr }

/-- The command word of an instruction (R80, R82). -/
def encode (i : Instr) : Word := joinWord i.fields

/-- The word of `nbits` bits with value `w`, every bit above `nbits` 0 (each row has 32 bits: one word, R80). -/
def tableWord (nbits w : Nat) : Word := toWord (w % 2 ^ nbits)

/-- The instruction the decoder reads from a table row's word, none where it refuses. -/
def decodeTableWord (nbits w : Nat) : Option Instr :=
  match decode (tableWord nbits w) with
  | .ok i => some i
  | .illegal _ => none

end Sys2Proof
end

