-- ==== Sys2Proof/Machine/Ops.lean ====
section
/-!
DEFINITION. Machine/Ops.lean: the shared operations: how a command's steps end, fault entry (60_exceptions.md R231),
the fault-state gate, the ports (20_memory.md R60, R61) and the fetch from the host's command list (10_state.md R28).
-/

namespace Sys2Proof.Machine

/-- How a named step of the pseudocode ends (00_scope.md R10): it returns a value, it raises a cause and the command
stops there with the writes made so far (60_exceptions.md R244), or it holds in `FileIn()`. -/
inductive Res (α : Type) where
  /-- `return a`, in the state reached. -/
  | ok (a : α) (s : State)
  /-- `raise Fault(c)`, in the state reached. -/
  | raised (c : Cause) (s : State)
  /-- The command holds (20_memory.md R61). -/
  | held
  deriving DecidableEq, Repr

/-- Program order: run `f` on what `r` returned, unless `r` raised or holds. -/
def Res.andThen {α β : Type} (r : Res α) (f : α → State → Res β) : Res β :=
  match r with
  | .ok a s => f a s
  | .raised c s => .raised c s
  | .held => .held

/-- `pc <- pc + 1` (00_scope.md R10, 10_state.md R28). -/
def State.advance (s : State) : State := { s with pc := s.pc + 1 }

/-- Fault entry (60_exceptions.md R231), the block's one exception operation: the first fault is recorded in FAULT,
CAUSE and FAULTCMD, and the command is over. There is no handler and no return from it (R245): only power-on reset,
`State.powerOn`, leaves the fault state. -/
def State.faultEntry (s : State) (c : Cause) (w : Word) : State :=
  if s.fault then s.advance
  else State.advance { s with fault := true, cause := c, faultCmd := w }

/-- The end of a command whose word is `w`. -/
def finish (w : Word) (r : Res Unit) : Host.Outcome State Fault Refusal :=
  match r with
  | .ok _ s => .next s.advance
  | .raised c s => .next (s.faultEntry c w)
  | .held => .fault .heldOnIn

/-- A command that executes only while FAULT = 0; in the fault state it is ignored and pc advances (R231). Its word,
recorded by a fault, is `encode i` (log entry 6). -/
def command (i : Instr) (body : State → Res Unit) (s : State) : Host.Outcome State Fault Refusal :=
  if s.fault then .next s.advance else finish (encode i) (body s)

/-- NOP and RDREG execute in the fault state too (R231). -/
def commandAlways (i : Instr) (body : State → Res Unit) (s : State) : Host.Outcome State Fault Refusal :=
  finish (encode i) (body s)

/-- An illegal word: IllegalCommand before any other check and with no other state change (R232); in the fault state it
is ignored (R231, R243). -/
def illegalWord (w : Word) (s : State) : State :=
  if s.fault then s.advance else s.faultEntry .illegalCommand w

/-- `if MODE != m: raise Fault(ModeError)`, first and with no state change (R234). -/
def inMode (m : Mode) (body : State → Res Unit) (s : State) : Res Unit :=
  if s.mode = m then body s else .raised .modeError s

/-- `FileOut(b)` (20_memory.md R60). -/
def fileOut (b : Byte) (s : State) : State := { s with out := s.out ++ [b] }

/-- `repeat n times: FileOut(b)`. -/
def fileOutRun (n : Nat) (b : Byte) (s : State) : State := { s with out := s.out ++ List.replicate n b }

/-- `FileIn()` (20_memory.md R61): the next IN item, or a hold while the host has supplied none. -/
def fileIn (s : State) : Res InItem :=
  match s.inp with
  | [] => .held
  | item :: rest => .ok item { s with inp := rest }

/-- The word at the host's command index, none when the host has no further command (10_state.md R28). -/
def State.nextWord (s : State) : Option Word := s.cmds[s.pc]?

/-- The host's command list with `w` at index `pc`; indexes the host never wrote before it hold NOP words. -/
def State.placeWord (s : State) (w : Word) : State :=
  { s with cmds := s.cmds.take s.pc ++ List.replicate (s.pc - s.cmds.length) 0 ++ w :: s.cmds.drop (s.pc + 1) }

end Sys2Proof.Machine
end

