-- ==== Sys2Proof/Machine/Adaptive.lean ====
section
/-!
DEFINITION. Machine/Adaptive.lean: the adaptive symbol model (42_model.md): SymRange (R181), GetSymbol (R182), Update
(R183), ModelReset (R185), and the meanings of the five model commands (R184 to R188).
-/

namespace Sys2Proof.Machine

/-- `TREE[i]`; an index past the file's end, which no rule uses, reads 0. -/
def Model.count (m : Model) (i : Nat) : Nat := (m.tree.getD i 0).toNat

/-- `TREE[1]`, the source's `probOne()` (R35, R186). -/
def Model.total (m : Model) : Nat := m.count 1

/-- `WIN[h]` (10_state.md R36). -/
def Model.slot (m : Model) (h : BitVec 12) : Half := m.win.getD h.toNat Config.emptySlot

/-- SymRange's descent (R181): `d` levels remain below `node`; `lo` counts what precedes the symbol. -/
def symDescend (m : Model) (sym : Nat) : Nat → Nat → Nat → Nat × Nat
  | 0, node, lo => (node, lo)
  | d + 1, node, lo =>
    if sym.testBit d then symDescend m sym d (2 * node + 1) (lo + m.count (2 * node))
    else symDescend m sym d (2 * node) lo

/-- SymRange's result for a symbol below NSYM (R181): the cumulative range `(lo, hi)`. -/
def Model.rangeOf (m : Model) (depth sym : Nat) : Nat × Nat :=
  let r := symDescend m sym depth 1 0
  (r.2, r.2 + m.count r.1)

/-- `SymRange(sym)` (R181). -/
def symRange (sym : Nat) (s : State) : Res (Nat × Nat) :=
  if symbolKnown s.params sym then .ok (s.model.rangeOf s.params.depth sym) s else .raised .badSymbol s

/-- GetSymbol's descent (R182): `d` levels remain below `node`; `base` counts what precedes it. -/
def getDescend (m : Model) (p : Nat) : Nat → Nat → Nat → Nat × Nat
  | 0, node, base => (node, base)
  | d + 1, node, base =>
    if p - base < m.count (2 * node) then getDescend m p d (2 * node) base
    else getDescend m p d (2 * node + 1) (base + m.count (2 * node))

/-- GetSymbol's result for a point below the total (R182): `(sym, lo, hi)`. -/
def Model.symbolAt (m : Model) (depth p : Nat) : Nat × Nat × Nat :=
  let r := getDescend m p depth 1 0
  (r.1 - 2 ^ depth, r.2, r.2 + m.count r.1)

/-- `GetSymbol(p)` (R182). -/
def getSymbol (p : Nat) (s : State) : Res (Nat × Nat × Nat) :=
  if p < s.model.total then .ok (s.model.symbolAt s.params.depth p) s else .raised .modelRange s

/-- `n` turns of Add's loop (R183): add `d` to entry `i` and to its ancestors. -/
def addPath : Nat → Nat → Half → List Half → List Half
  | 0, _, _, tree => tree
  | n + 1, i, d, tree => addPath n (i / 2) d (tree.set i (tree.getD i 0 + d))

/-- `Add(s, d)` (R183) with `z` leaves: the loop `while i >= 1` from `i = Z + s` makes `log2 i + 1` turns. A negative
`d` is its 16-bit two's complement; no count goes below 0 (R183), so the sum is exact (log entry 5). -/
def addCount (z sym : Nat) (d : Half) (m : Model) : Model :=
  { m with tree := addPath (Nat.log2 (z + sym) + 1) (z + sym) d m.tree }

/-- Add for a window slot's symbol; an empty slot adds nothing (R183). -/
def addSlot (z : Nat) (u : Half) (d : Half) (m : Model) : Model :=
  if u = Config.emptySlot then m else addCount z u.toNat d m

/-- The weight change of a symbol that moves from zone `k - 1` into zone `k`, as a 16-bit two's complement (R183). -/
def zoneChange (k : Nat) : Half := BitVec.ofNat 16 (Config.weight k) - BitVec.ofNat 16 (Config.weight (k - 1))

/-- `WIN[(h - 1024*k) mod 4096]` (R183). -/
def Model.zoneSlot (m : Model) (h : BitVec 12) (k : Nat) : Half := m.slot (h - BitVec.ofNat 12 (Config.zone * k))

/-- Update's aging of the window (R183): the symbol that leaves the window, then the three that enter zones 1 to 3. -/
def ageWindow (z : Nat) (h : BitVec 12) (m : Model) : Model :=
  let m := addSlot z (m.slot h) (zoneChange 4) m
  let m := addSlot z (m.zoneSlot h 1) (zoneChange 1) m
  let m := addSlot z (m.zoneSlot h 2) (zoneChange 2) m
  addSlot z (m.zoneSlot h 3) (zoneChange 3) m

/-- The writes of `Update(sym)` for a symbol below NSYM (R183): age the window, store the symbol in the slot after
MHEAD with the newest weight, and move MHEAD there. -/
def Model.record (z : Nat) (sym : Half) (m : Model) : Model :=
  let h := m.mhead + 1
  let m := ageWindow z h m
  let m := addCount z sym.toNat (BitVec.ofNat 16 (Config.weight 0)) { m with win := m.win.set h.toNat sym }
  { m with mhead := h }

/-- `Update(sym)` (R183). -/
def update (sym : Half) (s : State) : Res Unit :=
  if symbolKnown s.params (operand sym) then
    let s := { s with model := s.model.record s.params.z sym }
    if 0 < s.model.total ∧ s.model.total ≤ Config.maxP1 then .ok () s else .raised .modelRange s
  else .raised .badSymbol s

/-- `ModelReset()` (R185). -/
def modelReset (s : State) : State := { s with model := Model.reset s.params }

/-- MODEL_UPDATE (R184). -/
def execModelUpdate (sym : Half) (s : State) : Host.Outcome State Fault Refusal :=
  command (.modelUpdate sym) (update sym) s

/-- MODEL_RESET (R185). -/
def execModelReset (s : State) : Host.Outcome State Fault Refusal :=
  command .modelReset (fun s => .ok () (modelReset s)) s

/-- MODEL_PROBONE (R186). -/
def execModelProbone (s : State) : Host.Outcome State Fault Refusal :=
  command .modelProbone (fun s => .ok () (s.writeResults (zext32 s.model.total) 0)) s

/-- MODEL_SYMRANGE (R187). -/
def execModelSymrange (sym : Half) (s : State) : Host.Outcome State Fault Refusal :=
  command (.modelSymrange sym)
    (fun s => (symRange (operand sym) s).andThen fun r s =>
      .ok () (s.writeResults (zext32 (operand sym)) (packRange r.2 r.1))) s

/-- MODEL_GETSYM (R188). -/
def execModelGetsym (p : Half) (s : State) : Host.Outcome State Fault Refusal :=
  command (.modelGetsym p)
    (fun s => (getSymbol (operand p) s).andThen fun r s =>
      .ok () (s.writeResults (zext32 r.1) (packRange r.2.2 r.2.1))) s

end Sys2Proof.Machine
end

