-- ==== Sys2Proof/Machine/Fobit.lean ====
section
/-!
DEFINITION. Machine/Fobit.lean: the finitely-odd bijector (40_fobit.md): FO_Put (R103), FO_End (R104), FI_Next (R105),
and the numeration that pairs files with coder streams (R101). It has no commands of its own.
-/

namespace Sys2Proof.Machine

/-- The borrow or carry bit as a byte. -/
def bitByte (b : Bool) : Byte := if b then 1 else 0

/-- FO_Put's flush of a held byte and its zeros, once a later byte shows they were data (R103): file byte 0xC8, then
0xC9 for each held zero. -/
def foFlush (s : State) : State :=
  { fileOutRun s.fo.zrun.toNat (0xFE ^^^ Config.foMask) (fileOut (0xFF ^^^ Config.foMask) s) with
    fo := { s.fo with hold := false, zrun := 0, borrow := true } }

/-- FO_Put's last part (R103): hold a byte equal to the borrow, or write its digit. -/
def foDigit (t : Byte) (s : State) : State :=
  if t = bitByte s.fo.borrow then { s with fo := { s.fo with hold := true, zrun := 0 } }
  else
    { fileOut ((t - bitByte s.fo.borrow - 1) ^^^ Config.foMask) s with
      fo := { s.fo with borrow := decide (t.toNat ≤ (bitByte s.fo.borrow).toNat) } }

/-- `FO_Put(t)` (R103): one coder-stream byte to the file. -/
def foPut (t : Byte) (s : State) : Res Unit :=
  if s.fo.first then
    .ok () { fileOut (t ^^^ Config.foMask) s with fo := { s.fo with first := false, borrow := false } }
  else if s.fo.hold then
    if t = 0 then
      if s.fo.zrun = Config.counterMax then .raised .counterOverflow s
      else .ok () { s with fo := { s.fo with zrun := s.fo.zrun + 1 } }
    else .ok () (foDigit t (foFlush s))
  else .ok () (foDigit t s)

/-- `repeat n times: FO_Put(t)`. -/
def foPutRun : Nat → Byte → State → Res Unit
  | 0, _, s => .ok () s
  | n + 1, t, s => (foPut t s).andThen fun _ s => foPutRun n t s

/-- `FO_End()` (R104): the held byte and its zeros are the stream's zero tail and are dropped. -/
def foEnd (s : State) : State :=
  if s.fo.first then
    { fileOut (0x00 ^^^ Config.foMask) s with fo := { s.fo with first := false, hold := false, zrun := 0 } }
  else { s with fo := { s.fo with hold := false, zrun := 0 } }

/-- FI_Next past the file (R105): the numeration's final carry digit, then the infinite supply of zero bytes. -/
def fiTail (f : FiSide) : (Byte × Bool) × FiSide :=
  if f.carry then ((1, false), { f with carry := false }) else ((0, true), f)

/-- FI_Next on a file byte (R105). -/
def fiByte (item : Byte) (f : FiSide) : Byte × FiSide :=
  let d := item ^^^ Config.foMask
  if f.first then (d, { f with first := false })
  else
    let sum := d.toNat + 1 + (bitByte f.carry).toNat
    (toByte sum, { f with carry := decide (256 ≤ sum) })

/-- FI_Next on the item just taken from IN (R105). -/
def fiItem (item : InItem) (s : State) : Res (Byte × Bool) :=
  match item with
  | .eof =>
    if s.fi.first then .raised .emptyStream s
    else
      let r := fiTail { s.fi with eof := true }
      .ok r.1 { s with fi := r.2 }
  | .byte b =>
    let r := fiByte b s.fi
    .ok (r.1, false) { s with fi := r.2 }

/-- `FI_Next()` (R105): the next coder-stream byte, and whether it and every later one are 0. -/
def fiNext (s : State) : Res (Byte × Bool) :=
  if s.fi.eof then
    let r := fiTail s.fi
    .ok r.1 { s with fi := r.2 }
  else (fileIn s).andThen fiItem

/-- `V(T)` of R101: a coder stream as a number, position 0 least significant. -/
def streamNumber : List Byte → Nat
  | [] => 0
  | t :: rest => t.toNat + 256 * streamNumber rest

/-- The bijective base-256 value of the file bytes after the first (R101). -/
def fileTailNumber : List Byte → Nat
  | [] => 0
  | f :: rest => (f ^^^ Config.foMask).toNat + 1 + 256 * fileTailNumber rest

/-- `N(F)` of R101, for a non-empty file; the empty file has no number and pairs with nothing (R100). -/
def fileNumber : List Byte → Option Nat
  | [] => none
  | f :: rest => some ((f ^^^ Config.foMask).toNat + 256 * fileTailNumber rest)

/-- R101: a file and a coder stream are paired exactly when `N(F) = V(T)`. -/
def paired (file stream : List Byte) : Prop := fileNumber file = some (streamNumber stream)

/-- A whole stream put through FO_Put, byte by byte (R103). -/
def foPutAll : List Byte → State → Res Unit
  | [], s => .ok () s
  | t :: rest, s => (foPut t s).andThen fun _ s => foPutAll rest s

/-- The next `n` coder-stream bytes FI_Next returns (R105). -/
def fiTake : Nat → State → Res (List Byte)
  | 0, s => .ok [] s
  | n + 1, s =>
    (fiNext s).andThen fun t s => (fiTake n s).andThen fun rest s => .ok (t.1 :: rest) s

end Sys2Proof.Machine
end

