-- ==== Sys2Proof/Machine/Coder.lean ====
section
/-!
DEFINITION. Machine/Coder.lean: the interval engine and free-end tracker (41_coder.md): the shared steps of one symbol
(R141 to R148), the encoder (R151 to R156) and the decoder (R159 to R166), and the meanings of ENC_SYM, ENC_END and
DEC_SYM. Arithmetic is exact on natural numbers and narrowed when a register is written (00_scope.md R9, log entry 5).
-/

namespace Sys2Proof.Machine

/-- The direction of a symbol step (R145). -/
inductive Dir where
  /-- ENC_SYM. -/
  | enc
  /-- DEC_SYM. -/
  | dec
  deriving DecidableEq, Repr

/-- `Seat()` (R141): the smallest odd multiple of `FEVEN + 1` at or above LOW. -/
def Engine.seat (e : Engine) : Word := ((e.low + e.feven) &&& ~~~e.feven) ||| (e.feven + 1)

/-- `Reserve()` (R142): use up the current free end and move to the next candidate. -/
def Engine.reserve (e : Engine) : Engine :=
  if e.nfe = 0 then { e with nfe := toWord (e.feven.toNat + 1) }
  else { e with nfe := toWord (e.nfe.toNat + ((e.feven.toNat + 1) <<< 1)) }

/-- `if c == 1: Reserve()` (R145). -/
def Engine.reserveIf (c : Bool) (e : Engine) : Engine := if c then e.reserve else e

/-- `(x * RANGE) // P` (R143). -/
def Engine.scale (e : Engine) (x p : Nat) : Nat := x * e.range.toNat / p

/-- Narrow's writes (R143): RANGE, then LOW. -/
def Engine.narrowTo (e : Engine) (newl newh : Nat) : Engine :=
  { e with range := toWord (newh - newl), low := toWord (e.low.toNat + newl) }

/-- `Narrow(lo, hi, P)` (R143), which returns `newl`. -/
def narrow (lo hi p : Nat) (s : State) : Res Nat :=
  if lo < hi ∧ hi ≤ p ∧ p ≤ Config.maxP1 then
    let newl := s.engine.scale lo p
    let s := { s with engine := s.engine.narrowTo newl (s.engine.scale hi p) }
    if s.engine.range = 0 then .raised .rangeZero s else .ok newl s
  else .raised .modelRange s

/-- The free end lies below the interval's upper end: `NFE - LOW < RANGE` (R144). -/
def Engine.capped (e : Engine) : Bool := decide (e.nfe.toNat < e.low.toNat + e.range.toNat)

/-- One turn of Cap (R144): halve FEVEN and re-seat. -/
def Engine.refine (e : Engine) : Engine :=
  let e := { e with feven := e.feven >>> 1 }
  { e with nfe := e.seat }

/-- At most `n` turns of Cap's loop (R144): whether the free end is inside at the end, and the registers then. -/
def Engine.capLoop : Nat → Engine → Bool × Engine
  | 0, e => (e.capped, e)
  | n + 1, e =>
    if e.capped then (true, e)
    else if e.feven = 0 then (false, e)
    else Engine.capLoop n e.refine

/-- `Cap()` (R144). FEVEN has 32 bits, so it is 0 after at most 32 halvings: 32 turns are always enough (log entry 7). -/
def cap (s : State) : Res Unit :=
  let r := s.engine.capLoop 32
  if r.1 then .ok () { s with engine := r.2 } else .raised .freeEndEscape { s with engine := r.2 }

/-- `if NFE < LOW: NFE <- Seat()`, step 3 (R145). -/
def Engine.reseat (e : Engine) : Engine := if e.nfe.toNat < e.low.toNat then { e with nfe := e.seat } else e

/-- `Double()` (R147). -/
def Engine.double (e : Engine) : Engine :=
  { low := e.low <<< 1, range := e.range <<< 1, nfe := e.nfe <<< 1, feven := (e.feven <<< 1) ||| 1,
    ibits := e.ibits + 1 }

/-- Detach's register writes (R148): take `b << 16` off LOW and NFE, mask FEVEN, IBITS back to 16. -/
def Engine.detach (e : Engine) : Engine :=
  let b := e.low.toNat >>> 16
  { e with low := toWord (e.low.toNat - (b <<< 16)), nfe := toWord (e.nfe.toNat - (b <<< 16)),
           feven := e.feven &&& Config.mask16, ibits := 16 }

/-- ByteWithCarry's resolved case (R151): write the pending byte `t` and its run of `fill`, and make `b` the pending
byte with an empty run. -/
def resolveCarry (t fill : Byte) (b : Nat) (s : State) : Res Unit :=
  (foPut t s).andThen fun _ s =>
    (foPutRun (s.carry.buf.toNat - 1) fill s).andThen fun _ s =>
      .ok () { s with carry := { byte := toByte b, buf := 1 } }

/-- `ByteWithCarry(b)` (R151). -/
def byteWithCarry (b : Nat) (s : State) : Res Unit :=
  if s.carry.buf = 0 then
    if 255 < b then .raised .carryNoPending s
    else .ok () { s with carry := { byte := toByte b, buf := 1 } }
  else if 255 < b then
    if s.carry.byte = 0xFF then .raised .carryOverflow s
    else resolveCarry (s.carry.byte + 1) 0x00 (b &&& 0xFF) s
  else if b < 255 then resolveCarry s.carry.byte 0xFF b s
  else if s.carry.buf = Config.counterMax then .raised .counterOverflow s
  else .ok () { s with carry := { s.carry with buf := s.carry.buf + 1 } }

/-- `Detach(dir)` (R148): the decoder emits nothing. -/
def detach (dir : Dir) (s : State) : Res Unit :=
  match dir with
  | .enc =>
    (byteWithCarry (s.engine.low.toNat >>> 16) s).andThen fun _ s => .ok () { s with engine := s.engine.detach }
  | .dec => .ok () { s with engine := s.engine.detach }

/-- `NextByte()` (R161): the held zeros, then the held byte, then the file. -/
def nextByte (s : State) : Res Byte :=
  if s.look.followBuf ≠ 0 then .ok 0 { s with look := { s.look with followBuf := s.look.followBuf - 1 } }
  else if s.look.fbValid then
    .ok s.look.followByte { s with look := { s.look with fbValid := false, followByte := 0 } }
  else (fiNext s).andThen fun t s => .ok t.1 s

/-- `Pull()` (R164). -/
def pull (s : State) : Res Unit :=
  if s.look.vshift = 0 then
    (nextByte s).andThen fun t s =>
      .ok () { s with look := { s.look with value := toWord ((s.look.value.toNat <<< 8) ||| t.toNat), vshift := 7 } }
  else .ok () { s with look := { s.look with vshift := s.look.vshift - 1 } }

/-- `if dir == DEC: Pull()` (R146). -/
def pullIf (dir : Dir) (s : State) : Res Unit :=
  match dir with
  | .enc => .ok () s
  | .dec => pull s

/-- `if IBITS == 24: Detach(dir)` (R146). -/
def detachIf (dir : Dir) (s : State) : Res Unit :=
  if s.engine.ibits.toNat = Config.ibTop then detach dir s else .ok () s

/-- At most `n` turns of Renorm's loop (R146). -/
def renormLoop : Nat → Dir → State → Res Unit
  | 0, _, s => .ok () s
  | n + 1, dir, s =>
    if s.engine.range.toNat ≤ Config.maxP1 then
      (pullIf dir s).andThen fun _ s =>
        (detachIf dir { s with engine := s.engine.double }).andThen fun _ s => renormLoop n dir s
    else .ok () s

/-- `Renorm(dir)` (R146). RANGE is at least 1 after Narrow, so 16 turns bring it above 0x8000 (log entry 7). -/
def renorm (dir : Dir) (s : State) : Res Unit := renormLoop 16 dir s

/-- The decoder's part of SymbolSteps (R145): take the scaled `newl` off VALUE. -/
def takeValue (newl : Nat) (s : State) : Res Unit :=
  if s.look.value.toNat < newl <<< s.look.vshift.toNat then .raised .valueBelowLow s
  else .ok () { s with look := { s.look with value := toWord (s.look.value.toNat - newl <<< s.look.vshift.toNat) } }

/-- `if dir == DEC: ...` of SymbolSteps (R145). -/
def takeValueIf (dir : Dir) (newl : Nat) (s : State) : Res Unit :=
  match dir with
  | .enc => .ok () s
  | .dec => takeValue newl s

/-- `SymbolSteps(lo, hi, P, c, dir)` (R145): Reserve, Narrow, VALUE, re-seat, Cap, Renorm, in this order. -/
def symbolSteps (lo hi p : Nat) (c : Bool) (dir : Dir) (s : State) : Res Unit :=
  (narrow lo hi p { s with engine := s.engine.reserveIf c }).andThen fun newl s =>
    (takeValueIf dir newl s).andThen fun _ s =>
      (cap { s with engine := s.engine.reseat }).andThen fun _ s => renorm dir s

/-- `EncodeSymbol(sym, c)` (R153). -/
def encodeSymbol (sym : Nat) (c : Bool) (s : State) : Res Unit :=
  (symRange sym s).andThen fun r s => symbolSteps r.1 r.2 s.model.total c .enc s

/-- `End()` (R154): the shifted free end's three bytes, then a zero that flushes the pending byte. -/
def coderEnd (s : State) : Res Unit :=
  let v := s.engine.nfe.toNat <<< (24 - s.engine.ibits.toNat)
  (byteWithCarry (v >>> 16) s).andThen fun _ s =>
    (byteWithCarry ((v >>> 8) &&& 0xFF) s).andThen fun _ s =>
      (byteWithCarry (v &&& 0xFF) s).andThen fun _ s =>
        if s.carry.buf ≠ 0 then byteWithCarry 0 s else .ok () s

/-- `DecStart()` (R159): two stream bytes fill VALUE. -/
def decStart (s : State) : Res Unit :=
  (nextByte s).andThen fun t s =>
    let s := { s with look := { s.look with value := toWord (t.toNat <<< 8) } }
    (nextByte s).andThen fun t s =>
      .ok () { s with look := { s.look with value := toWord (s.look.value.toNat ||| t.toNat), vshift := 0 } }

/-- At most `n` turns of Exhausted's loop (R165); running out of turns cannot happen with the turns `exhausted` gives
(log entry 7). -/
def exhaustedLoop : Nat → State → Res Bool
  | 0, _ => .held
  | n + 1, s =>
    if s.look.fbValid then .ok false s
    else
      (fiNext s).andThen fun t s =>
        if t.2 then .ok true s
        else if t.1 = 0 then
          if s.look.followBuf = Config.counterMax then .raised .counterOverflow s
          else exhaustedLoop n { s with look := { s.look with followBuf := s.look.followBuf + 1 } }
        else exhaustedLoop n { s with look := { s.look with followByte := t.1, fbValid := true } }

/-- `Exhausted()` (R165): each turn returns, takes an IN item, or takes the final carry, and a non-zero byte is followed
by one more turn that returns, so the turns are at most the items left plus 3. -/
def exhausted (s : State) : Res Bool := exhaustedLoop (s.inp.length + 3) s

/-- The comparison of the end test (R160): `VALUE = (NFE - LOW) << VSHIFT`, with `NFE >= LOW`. -/
def endValue (s : State) : Bool :=
  decide (s.engine.low.toNat ≤ s.engine.nfe.toNat ∧
    s.look.value.toNat = (s.engine.nfe.toNat - s.engine.low.toNat) <<< s.look.vshift.toNat)

/-- The end test of DEC_SYM (R160, R162): Exhausted runs only when `c = 1` and the comparison holds. -/
def endTest (c : Bool) (s : State) : Res Bool :=
  if c && endValue s then exhausted s else .ok false s

/-- The symbol point (R166): `(v * P + P - 1) // RANGE` with `v = VALUE >> VSHIFT`. -/
def symbolPoint (s : State) : Nat :=
  ((s.look.value.toNat >>> s.look.vshift.toNat) * s.model.total + s.model.total - 1) / s.engine.range.toNat

/-- DEC_SYM's decoding of a symbol, when the stream does not end here (R162). -/
def decodeSymbol (c : Bool) (s : State) : Res Unit :=
  (getSymbol (symbolPoint s) s).andThen fun r s =>
    (symbolSteps r.2.1 r.2.2 s.model.total c .dec s).andThen fun _ s =>
      .ok () (s.writeResults (zext32 r.1) (packRange r.2.2 r.2.1))

/-- The END result (R162): the sentinel -1, and mode DEC_DONE. -/
def decodeEnd (s : State) : State := { s.writeResults 0xFFFFFFFF 0 with mode := .decDone }

/-- ENC_SYM (R155). -/
def execEncSym (c : Bool) (sym : Half) (s : State) : Host.Outcome State Fault Refusal :=
  command (.encSym c sym) (inMode .enc (encodeSymbol (operand sym) c)) s

/-- ENC_END (R156). -/
def execEncEnd (s : State) : Host.Outcome State Fault Refusal :=
  command .encEnd
    (inMode .enc fun s => (coderEnd s).andThen fun _ s => .ok () { foEnd s with mode := .encDone }) s

/-- DEC_SYM (R162). -/
def execDecSym (c : Bool) (s : State) : Host.Outcome State Fault Refusal :=
  command (.decSym c)
    (inMode .dec fun s => (endTest c s).andThen fun ended s =>
      if ended then .ok () (decodeEnd s) else decodeSymbol c s) s

end Sys2Proof.Machine
end

