-- ==== Sys2Proof/Machine/Control.lean ====
section
/-!
DEFINITION. Machine/Control.lean: the control commands (43_control.md): StreamReset (R209), NOP (R210), INIT_ENC (R211),
INIT_DEC (R212), RDREG (R213) over the debug space (20_memory.md R64).
-/

namespace Sys2Proof.Machine

/-- `StreamReset()` (R209): every per-stream register, the model and the results at their reset values. FAULT, CAUSE,
FAULTCMD, MODE, the parameters, OUT and IN are not touched. -/
def streamReset (s : State) : State :=
  { modelReset s with
    engine := Engine.reset, carry := Carry.reset, look := LookAhead.reset, fo := FoSide.reset, fi := FiSide.reset,
    res0 := 0, res1 := 0 }

/-- Three flag bits in bits 0, 1, 2 of a debug word (20_memory.md R64). -/
def flagWord (b0 b1 b2 : Bool) : Word :=
  ((0#29 ++ BitVec.ofBool b2) ++ BitVec.ofBool b1) ++ BitVec.ofBool b0

/-- The debug registers below 0x0016 (20_memory.md R64); every other address up to 0x0FFF reads 0. -/
def debugRegister (s : State) (addr : Nat) : Word :=
  match addr with
  | 0x00 => s.status
  | 0x01 => s.faultCmd
  | 0x02 => s.res0
  | 0x03 => s.res1
  | 0x04 => s.engine.low
  | 0x05 => s.engine.range
  | 0x06 => s.engine.nfe
  | 0x07 => s.engine.feven
  | 0x08 => s.engine.ibits.setWidth 32
  | 0x09 => s.carry.byte.setWidth 32
  | 0x0A => s.carry.buf
  | 0x0B => s.look.value
  | 0x0C => s.look.vshift.setWidth 32
  | 0x0D => s.look.followBuf
  | 0x0E => (0#23 ++ BitVec.ofBool s.look.fbValid) ++ s.look.followByte
  | 0x0F => flagWord s.fo.first s.fo.borrow s.fo.hold
  | 0x10 => s.fo.zrun
  | 0x11 => flagWord s.fi.first s.fi.carry s.fi.eof
  | 0x12 => s.model.mhead.setWidth 32
  | 0x13 => s.params.nsym.setWidth 32
  | 0x14 => s.params.blockSize.setWidth 32
  | 0x15 => s.params.leafBase.setWidth 32
  | _ => 0

/-- `MemRead(addr, 4)` over the debug space (20_memory.md R64): registers, WIN at 0x1000, TREE at 0x2000, and 0 at every
reserved address. -/
def debugRead (s : State) (addr : Nat) : Word :=
  if addr < 0x1000 then debugRegister s addr
  else if addr < 0x2000 then (s.model.slot (BitVec.ofNat 12 (addr - 0x1000))).setWidth 32
  else if addr < 0x2000 + 2 * s.params.z then toWord (s.model.count (addr - 0x2000))
  else 0

/-- NOP (R210): pc only, also in the fault state. -/
def execNop (s : State) : Host.Outcome State Fault Refusal :=
  commandAlways .nop (fun s => .ok () s) s

/-- INIT_ENC (R211). -/
def execInitEnc (s : State) : Host.Outcome State Fault Refusal :=
  command .initEnc (fun s => .ok () { streamReset s with mode := .enc }) s

/-- INIT_DEC (R212). -/
def execInitDec (s : State) : Host.Outcome State Fault Refusal :=
  command .initDec (fun s => decStart { streamReset s with mode := .dec }) s

/-- RDREG (R213): RES0 only, also in the fault state. -/
def execRdreg (addr : Half) (s : State) : Host.Outcome State Fault Refusal :=
  commandAlways (.rdreg addr) (fun s => .ok () { s with res0 := debugRead s (operand addr) }) s

end Sys2Proof.Machine
end

