-- ==== Sys2Proof/Machine/Dispatch.lean ====
section
/-!
DEFINITION. Machine/Dispatch.lean: exec, one arm per command, each a direct call of the command's own meaning.
-/

namespace Sys2Proof.Machine

/-- The meaning of each command (30_encoding.md R82). -/
def exec (i : Instr) (s : State) : Host.Outcome State Fault Refusal :=
  match i with
  | .nop => Sys2Proof.Machine.execNop s
  | .initEnc => Sys2Proof.Machine.execInitEnc s
  | .initDec => Sys2Proof.Machine.execInitDec s
  | .encSym c sym => Sys2Proof.Machine.execEncSym c sym s
  | .encEnd => Sys2Proof.Machine.execEncEnd s
  | .decSym c => Sys2Proof.Machine.execDecSym c s
  | .modelUpdate sym => Sys2Proof.Machine.execModelUpdate sym s
  | .modelReset => Sys2Proof.Machine.execModelReset s
  | .modelProbone => Sys2Proof.Machine.execModelProbone s
  | .modelSymrange sym => Sys2Proof.Machine.execModelSymrange sym s
  | .modelGetsym p => Sys2Proof.Machine.execModelGetsym p s
  | .rdreg addr => Sys2Proof.Machine.execRdreg addr s

end Sys2Proof.Machine
end

