-- ==== Sys2Proof/Machine/Step.lean ====
section
/-!
DEFINITION. Machine/Step.lean: one step of the machine: the next command of the host's list, or idling when the host has
none (10_state.md R28, 20_memory.md R62, 60_exceptions.md R254).
-/

namespace Sys2Proof.Machine

/-- The command port takes the word `w` (20_memory.md R62): decode it and run it, or raise IllegalCommand (60_exceptions.md
R232). -/
def runWord (w : Word) (s : State) : Host.Outcome State Fault Refusal :=
  match decode w with
  | .ok i => exec i s
  | .illegal _ => .next (illegalWord w s)

/-- One step. An instance whose parameters 00_scope.md R6 does not admit is refused by name; with no further command the
block holds its state (60_exceptions.md R254). -/
def step (s : State) : Host.Outcome State Fault Refusal :=
  if !s.params.blockSizeAdmitted then .refused .blockSizeNotOne
  else if !s.params.modelAdmitted then .refused .parametersNotAdmitted
  else
    match s.nextWord with
    | none => .next s
    | some w => runWord w s

/-- The host's next command word is the table row's word `w` of `nbits` bits (log entry 1). -/
def State.withFetchWord (s : State) (nbits w : Nat) : State := s.placeWord (tableWord nbits w)

end Sys2Proof.Machine
end

