-- ==== Sys2Proof/Machine/HostPort.lean ====
section
/-!
DEFINITION. Machine/HostPort.lean: the host's side of the ports between commands (70_reset_and_hazards.md R275), the
assembler syntax and pseudo-instructions (30_encoding.md R87, R88), the two driver programs (R276, R277) and runs (R279).
None of it is a command of the block.
-/

namespace Sys2Proof.Machine

/-- The host writes a command word: it follows the words already written (20_memory.md R62). -/
def State.issue (s : State) (w : Word) : State := { s with cmds := s.cmds ++ [w] }

/-- The host supplies IN items, in order, at any time ahead of need (R275). -/
def State.supplyIn (s : State) (items : List InItem) : State := { s with inp := s.inp ++ items }

/-- A file as IN items: its bytes, then one `EOF` (20_memory.md R61). -/
def fileItems (file : List Byte) : List InItem := file.map .byte ++ [.eof]

/-- The items after the first `EOF`. -/
def afterEof : List InItem → List InItem
  | [] => []
  | .eof :: rest => rest
  | .byte _ :: rest => afterEof rest

/-- The host withdraws the rest of an abandoned file from IN, its `EOF` with it (43_control.md R214). -/
def State.withdrawFile (s : State) : State := { s with inp := afterEof s.inp }

/-- Power-on reset of this instance (R275, R260): the state of R260 for its own parameters. -/
def State.powerOnReset (s : State) : State := State.powerOn s.params

/-- What the reply port gives (20_memory.md R63). -/
structure Reply where
  /-- STATUS. -/
  status : Word
  /-- RES0. -/
  res0 : Word
  /-- RES1. -/
  res1 : Word
  deriving DecidableEq, Repr

/-- A reply-port read: no side effect (20_memory.md R63, R70). -/
def State.reply (s : State) : Reply := { status := s.status, res0 := s.res0, res1 := s.res1 }

/-- Assembler syntax (R87): the mnemonic, `.C` for a set flag, then the operand in decimal. -/
def Instr.asm : Instr → String
  | .encSym true sym => "ENC_SYM.C " ++ toString sym.toNat
  | .encSym false sym => "ENC_SYM " ++ toString sym.toNat
  | .decSym true => "DEC_SYM.C"
  | .decSym false => "DEC_SYM"
  | .modelUpdate sym => "MODEL_UPDATE " ++ toString sym.toNat
  | .modelSymrange sym => "MODEL_SYMRANGE " ++ toString sym.toNat
  | .modelGetsym p => "MODEL_GETSYM " ++ toString p.toNat
  | .rdreg addr => "RDREG " ++ toString addr.toNat
  | .nop => "NOP"
  | .initEnc => "INIT_ENC"
  | .initDec => "INIT_DEC"
  | .encEnd => "ENC_END"
  | .modelReset => "MODEL_RESET"
  | .modelProbone => "MODEL_PROBONE"

/-- `ENC_BYTE s` (R88). -/
def encByte (sym : Half) : List Instr := [.encSym true sym, .modelUpdate sym]

/-- The commands of `ENC_MSG` between INIT_ENC and ENC_END (R88). -/
def encBytes : List Byte → List Instr
  | [] => []
  | m :: rest => encByte (m.setWidth 16) ++ encBytes rest

/-- `ENC_MSG m0 ... m(n-1)` (R88), the byte encoder of R276. -/
def encMsg (msg : List Byte) : List Instr := .initEnc :: encBytes msg ++ [.encEnd]

/-- `READ r` (R88), `r` given by its debug address. -/
def readAt (addr : Half) : List Instr := [.rdreg addr]

/-- The sentinel -1 in RES0: the end of the stream (41_coder.md R162). -/
def sentinel : Word := 0xFFFFFFFF

/-- The host's part of `DEC_BYTE` after DEC_SYM.C (R88): MODEL_UPDATE of the symbol, unless RES0 is the sentinel. -/
def decByteUpdate (res0 : Word) : List Instr :=
  if res0 = sentinel then [] else [.modelUpdate (res0.extractLsb' 0 16)]

/-- Instructions run one after the other, as the host issues them. -/
def runList : List Instr → State → Host.Outcome State Fault Refusal
  | [], s => .next s
  | i :: rest, s =>
    match exec i s with
    | .next s => runList rest s
    | .fault r => .fault r
    | .refused r => .refused r

/-- At most `n` turns of the byte decoder's loop (R277) after the bytes `emitted`: all the bytes emitted, in their order,
and the state in which the sentinel came or the turns ran out. -/
def decLoop : Nat → List Byte → State → Host.Outcome (List Byte × State) Fault Refusal
  | 0, emitted, s => .next (emitted, s)
  | n + 1, emitted, s =>
    match exec (.decSym true) s with
    | .next s =>
      if s.res0 = sentinel then .next (emitted, s)
      else
        match runList (decByteUpdate s.res0) s with
        | .next t => decLoop n (emitted ++ [s.res0.extractLsb' 0 8]) t
        | .fault r => .fault r
        | .refused r => .refused r
    | .fault r => .fault r
    | .refused r => .refused r

/-- `DEC_FILE` (R88), the byte decoder of R277, for at most `n` turns: the bytes emitted, in their order, and the state. -/
def decFile (n : Nat) (s : State) : Host.Outcome (List Byte × State) Fault Refusal :=
  match exec .initDec s with
  | .next t => decLoop n [] t
  | .fault r => .fault r
  | .refused r => .refused r

/-- The decoded message of R277: the sequence of emitted bytes, when the sentinel comes within `n` turns. -/
def decodedMessage (n : Nat) (s : State) : Option (List Byte) :=
  match decFile n s with
  | .next r => if r.2.res0 = sentinel then some r.1 else none
  | .fault _ => none
  | .refused _ => none

/-! ### Runs (70_reset_and_hazards.md R279) -/

/-- A run as its host sees it between commands: the state of the block, and what the host notes of the ports. -/
structure Run where
  /-- The block. -/
  state : State
  /-- The number of bytes that stood on OUT when the last INIT_ENC ran: where the stream's file begins (43_control.md
  R214, R279). -/
  fileStart : Nat
  /-- RES0 after each DEC_SYM since the last INIT_DEC, oldest first (R279). -/
  results : List Word
  /-- Items of a file have been taken and its `EOF` has not (43_control.md R214). -/
  fileOpen : Bool
  deriving DecidableEq, Repr

/-- What the host notes when command `i` has taken the block to `t` (R279): INIT_ENC begins a file, INIT_DEC a message,
and DEC_SYM gives the message its next value. -/
def Run.note (i : Instr) (t : State) (r : Run) : Run :=
  match i with
  | .initEnc => { r with state := t, fileStart := t.out.length }
  | .initDec => { r with state := t, results := [], fileOpen := !t.fi.eof }
  | .decSym _ => { r with state := t, results := r.results ++ [t.res0], fileOpen := !t.fi.eof }
  | .nop => { r with state := t }
  | .encSym _ _ => { r with state := t }
  | .encEnd => { r with state := t }
  | .modelUpdate _ => { r with state := t }
  | .modelReset => { r with state := t }
  | .modelProbone => { r with state := t }
  | .modelSymrange _ => { r with state := t }
  | .modelGetsym _ => { r with state := t }
  | .rdreg _ => { r with state := t }

/-- The command at the host's index, none when there is no further word or it is illegal. -/
def State.nextCommand (s : State) : Option Instr :=
  match s.nextWord with
  | none => none
  | some w =>
    match decode w with
    | .ok i => some i
    | .illegal _ => none

/-- The run after the block's next step reached `t`. A step that ends with FAULT = 1 is no completed command: the host
notes nothing of it, and the run has failed (R279). -/
def Run.noteStep (t : State) (r : Run) : Run :=
  if t.fault then { r with state := t }
  else
    match r.state.nextCommand with
    | none => { r with state := t }
    | some i => r.note i t

/-- One command of a run. -/
def Run.next (r : Run) : Host.Outcome Run Fault Refusal :=
  match step r.state with
  | .next t => .next (r.noteStep t)
  | .fault f => .fault f
  | .refused f => .refused f

/-- The host's duty before a command (43_control.md R214, R275): it withdraws the rest of a file whose decode was
abandoned before it opens another. -/
def Run.withdrawAbandoned (r : Run) : Run :=
  if r.fileOpen && r.state.nextCommand = some .initDec && !r.state.fault then
    { r with state := r.state.withdrawFile, fileOpen := false }
  else r

/-- `n` commands of a run whose host does that duty. -/
def Run.commands : Nat → Run → Host.Outcome Run Fault Refusal
  | 0, r => .next r
  | n + 1, r =>
    match r.withdrawAbandoned.next with
    | .next r => Run.commands n r
    | .fault f => .fault f
    | .refused f => .refused f

/-- A run to its end (R279): one step for each word of the host's list not yet completed. A command that holds answers
`heldOnIn`: that run has not ended. -/
def Run.toEnd (r : Run) : Host.Outcome Run Fault Refusal := Run.commands (r.state.cmds.length - r.state.pc) r

/-- The file of an encoder stream (43_control.md R214, R279): the OUT bytes since the last INIT_ENC. -/
def Run.file (r : Run) : List Byte := r.state.out.drop r.fileStart

/-- The message of a decode (R279): the RES0 values of the DEC_SYM commands since the last INIT_DEC, without the
sentinel. -/
def Run.message (r : Run) : List Word := r.results.filter fun v => v ≠ sentinel

/-- The start of a run (R279, R280): power-on reset, the host's command words, and the IN items it supplies. They stand on
IN from the start, as R275 lets the host supply them ahead of need (log entry 12). -/
def Run.launch (p : Params) (words : List Word) (items : List InItem) : Run :=
  { state := { State.powerOn p with cmds := words, inp := items }, fileStart := 0, results := [], fileOpen := false }

/-- The items of the files a host supplies, one after the other, each with its `EOF` (20_memory.md R61, 43_control.md
R214). -/
def suppliedFiles : List (List Byte) → List InItem
  | [] => []
  | file :: rest => fileItems file ++ suppliedFiles rest

/-- How many decodes a list of command words opens: its INIT_DEC words. -/
def decodesAsked (words : List Word) : Nat := words.countP fun w => decode w == .ok .initDec

/-- The host's IN duty of R275 for a run: whole files, each of at least one byte and its `EOF`, one for each decode it asks
for. The duty to withdraw an abandoned file is `Run.withdrawAbandoned`. -/
def hostSupplies (words : List Word) (items : List InItem) : Prop :=
  ∃ files : List (List Byte), (∀ file ∈ files, file ≠ []) ∧ items = suppliedFiles files ∧ decodesAsked words ≤ files.length

end Sys2Proof.Machine
end

