-- ==== Sys2Proof/Safety.lean ====
section
/-!
DEFINITION. Safety.lean: what counts as a good state and a successful run, in the spec's terms: the legality table of
60_exceptions.md R234, the invariants of 10_state.md R20, R27, R29, R32, R33, R35, R36 and 42_model.md R180, R189, and
the end of a run (70_reset_and_hazards.md R279).
-/

namespace Sys2Proof.Machine

/-- The legality table of R234: whether a command may execute in a MODE. -/
def legalIn : Instr → Mode → Bool
  | .encSym _ _, m => m == .enc
  | .encEnd, m => m == .enc
  | .decSym _, m => m == .dec
  | .nop, _ => true
  | .initEnc, _ => true
  | .initDec, _ => true
  | .modelUpdate _, _ => true
  | .modelReset, _ => true
  | .modelProbone, _ => true
  | .modelSymrange _, _ => true
  | .modelGetsym _, _ => true
  | .rdreg _, _ => true

/-- The commands that still execute while FAULT = 1 (R231). -/
def runsInFault : Instr → Bool
  | .nop => true
  | .rdreg _ => true
  | .initEnc => false
  | .initDec => false
  | .encSym _ _ => false
  | .encEnd => false
  | .decSym _ => false
  | .modelUpdate _ => false
  | .modelReset => false
  | .modelProbone => false
  | .modelSymrange _ => false
  | .modelGetsym _ => false

/-- The weight a window slot gives symbol `sym` at age `a + 1` (R183, R189). -/
def slotWeight (m : Model) (sym a : Nat) : Nat :=
  if (m.slot (m.mhead - BitVec.ofNat 12 a)).toNat = sym then Config.weight (a / Config.zone) else 0

/-- The summed weight of the last `n` updates that stored `sym` (R189). -/
def recentWeight (m : Model) (sym : Nat) : Nat → Nat
  | 0 => 0
  | n + 1 => recentWeight m sym n + slotWeight m sym n

/-- The model's counts are those of its window (R35, R36, R189). -/
structure ModelInv (p : Params) (m : Model) : Prop where
  /-- TREE has 2Z entries. -/
  treeLength : m.tree.length = 2 * p.z
  /-- WIN has 4096 slots. -/
  winLength : m.win.length = Config.winSize
  /-- TREE[0] is unused, always 0. -/
  unusedZero : m.count 0 = 0
  /-- An inner node is the sum of its children. -/
  innerSum : ∀ i, 1 ≤ i → i < p.z → m.count i = m.count (2 * i) + m.count (2 * i + 1)
  /-- A padding leaf is 0. -/
  padding : ∀ sym, p.nsym.toNat ≤ sym → sym < p.z → m.count (p.z + sym) = 0
  /-- The count formula of R189. -/
  leafCount : ∀ sym, sym < p.nsym.toNat →
    m.count (p.z + sym) = p.leafBase.toNat + recentWeight m sym Config.winSize
  /-- A slot is empty or holds a symbol. -/
  slotLegal : ∀ h, m.slot h = Config.emptySlot ∨ (m.slot h).toNat < p.nsym.toNat

/-- The sum of the first `n` leaves from leaf `z` on (R181). -/
def leafSum (m : Model) (z : Nat) : Nat → Nat
  | 0 => 0
  | n + 1 => leafSum m z n + m.count (z + n)

/-- The narrowed and re-seated registers of one symbol (41_coder.md R143, R145). -/
def narrowedEngine (lo hi p : Nat) (c : Bool) (e : Engine) : Engine :=
  ((e.reserveIf c).narrowTo (e.scale lo p) (e.scale hi p)).reseat

/-- At most `n` turns of Renorm on the interval engine alone, the same in both directions (R146, R270). -/
def Engine.renormLoop : Nat → Engine → Engine
  | 0, e => e
  | n + 1, e =>
    if e.range.toNat ≤ Config.maxP1 then
      Engine.renormLoop n (if e.double.ibits.toNat = Config.ibTop then e.double.detach else e.double)
    else e

/-- The interval engine one completed symbol leaves, the same in both directions (R145, R158, R270). -/
def symbolEngine (lo hi p : Nat) (c : Bool) (e : Engine) : Engine :=
  ((narrowedEngine lo hi p c e).capLoop 32).2.renormLoop 16

/-- The next `n` coder-stream bytes the decoder shifts into VALUE, held bytes first (R161). -/
def streamTake : Nat → State → Res (List Byte)
  | 0, s => .ok [] s
  | n + 1, s =>
    (nextByte s).andThen fun t s => (streamTake n s).andThen fun rest s => .ok (t :: rest) s

/-- R27(a) to (e), and the range of IBITS between commands (R26). -/
structure EngineInv (e : Engine) : Prop where
  /-- R27(a), lower bound. -/
  rangeAbove : 0x8000 < e.range.toNat
  /-- R27(a), upper bound. -/
  rangeMost : e.range.toNat ≤ 0x10000
  /-- R27(b): the free end is not below the interval. -/
  freeEndAbove : e.low.toNat ≤ e.nfe.toNat
  /-- R27(b): the free end is below the interval's upper end. -/
  freeEndBelow : e.nfe.toNat < e.low.toNat + e.range.toNat
  /-- R27(c): FEVEN is the mask of a level. -/
  level : ∃ L, L ≤ e.ibits.toNat ∧ e.feven.toNat = 2 ^ L - 1
  /-- R27(d): the free end is a multiple of FEVEN + 1. -/
  evenBits : e.nfe &&& e.feven = 0
  /-- R27(d): an odd multiple, or 0. -/
  halfBit : e.nfe = 0 ∨ e.nfe &&& (e.feven + 1) ≠ 0
  /-- R27(e). -/
  topBound : e.low.toNat + e.range.toNat ≤ 2 ^ (e.ibits.toNat + 1)
  /-- R26, lower bound. -/
  ibitsLeast : 16 ≤ e.ibits.toNat
  /-- R26, upper bound. -/
  ibitsMost : e.ibits.toNat ≤ 23

/-- The interval cannot carry out of the resident bits. R27(f) gives it for an empty carry buffer; the pending byte 0xFF,
into which no carry may come, needs it too (41_coder.md R152). -/
def noCarryOut (e : Engine) : Prop := e.low.toNat + e.range.toNat ≤ 2 ^ e.ibits.toNat

/-- R27(f) and R152, while a stream is being encoded. -/
def CarryInv (e : Engine) (c : Carry) : Prop := c.buf = 0 ∨ c.byte = 0xFF → noCarryOut e

/-- R27(g): VALUE is below the interval's width at its scale, and VSHIFT is at most 7. -/
structure ValueInv (e : Engine) (l : LookAhead) : Prop where
  /-- VALUE < RANGE << VSHIFT. -/
  valueBelow : l.value.toNat < e.range.toNat <<< l.vshift.toNat
  /-- VSHIFT is 0 to 7. -/
  vshiftMost : l.vshift.toNat ≤ 7

/-- FOLLOWBYTE is non-zero exactly when FBVALID is set (R20, R32). -/
def FollowInv (l : LookAhead) : Prop := (l.fbValid = true ↔ l.followByte ≠ 0)

/-- Between FO_Put calls, FO_HOLD = 0 implies FO_ZRUN = 0 (R33) and FO_BORROW = 0 (40_fobit.md R103). FO_End clears
FO_HOLD and leaves FO_BORROW, so after ENC_END only the first part holds. -/
def FoInv (f : FoSide) : Prop := f.hold = false → f.zrun = 0 ∧ f.borrow = false

/-- What holds between commands while no fault is recorded (R20, R24, R27, R29, R32, R33, R167). -/
structure LiveInv (s : State) : Prop where
  /-- R27(a) to (e). -/
  engine : EngineInv s.engine
  /-- R27(f) and R152. -/
  carry : s.mode = .enc → CarryInv s.engine s.carry
  /-- The decoder never writes the carry buffer (R24, R167). -/
  carryUnused : s.mode = .idle ∨ s.mode = .dec ∨ s.mode = .decDone → s.carry = Carry.reset
  /-- R27(g). -/
  value : s.mode = .dec ∨ s.mode = .decDone → ValueInv s.engine s.look
  /-- VALUE is 0 in the modes IDLE, ENC and ENC_DONE (R29); the other look-ahead registers are at reset there too. -/
  lookUnused : s.mode = .idle ∨ s.mode = .enc ∨ s.mode = .encDone → s.look = LookAhead.reset
  /-- R32. -/
  follow : FollowInv s.look
  /-- INIT_DEC has read the file's first byte (R34, 43_control.md R212). -/
  fileBegun : s.mode = .dec ∨ s.mode = .decDone → s.fi.first = false
  /-- R33. -/
  foRun : s.fo.hold = false → s.fo.zrun = 0
  /-- R103, until FO_End has run. -/
  fo : s.mode ≠ .encDone → FoInv s.fo
  /-- CAUSE is 0 until a fault occurs (R38). -/
  noCause : s.cause = .noFault
  /-- FAULTCMD is 0 until a fault occurs (R39). -/
  noFaultCmd : s.faultCmd = 0

/-- The invariant of the block: admitted parameters, a model that follows its window, and, while no fault is recorded,
the register invariants (R6, R20, R27, R35, R180). -/
structure Inv (s : State) : Prop where
  /-- R6. -/
  admitted : s.params.admitted = true
  /-- R35, R36, R189. -/
  model : ModelInv s.params s.model
  /-- R20, R27. -/
  live : s.fault = false → LiveInv s

/-- Room in the run counters for the stream bytes of one coder command (60_exceptions.md R240): CounterOverflow is out of
reach. -/
def counterRoom (s : State) : Prop := s.fo.zrun.toNat + s.carry.buf.toNat + 32 ≤ 0xFFFFFFFF

/-- What one command of a decode needs of the host's IN duty (70_reset_and_hazards.md R275): the file's `EOF` has been taken
or is on IN. The whole duty, for a run, is `hostSupplies`. -/
def inDuty (s : State) : Prop := s.fi.eof = true ∨ .eof ∈ s.inp

/-- The host's list has no further command (R279). -/
def runEnded (s : State) : Prop := s.nextWord = none

/-- A run that ended successfully (R279). -/
def runSucceeded (s : State) : Prop := runEnded s ∧ s.fault = false

/-- An encoder run that ended successfully with a file (R279). -/
def encoderRunSucceeded (s : State) : Prop := runSucceeded s ∧ s.mode = .encDone

/-- A decoder run that ended successfully with a message (R279). -/
def decoderRunSucceeded (s : State) : Prop := runSucceeded s ∧ s.mode = .decDone

/-- An encoder run that ended successfully with the file `file` (R279). -/
def encoderRunGives (r : Run) (file : List Byte) : Prop := encoderRunSucceeded r.state ∧ r.file = file

/-- A decoder run that ended successfully with the message `message` (R279). -/
def decoderRunGives (r : Run) (message : List Word) : Prop := decoderRunSucceeded r.state ∧ r.message = message

/-- The launch premises of R280: power-on reset with parameters R6 admits, and a host that does its duties of R275: it
supplies the files it asks for, and, in `Run.toEnd`, withdraws what it abandons. -/
def launched (r : Run) : Prop :=
  ∃ p words items, p.admitted = true ∧ hostSupplies words items ∧ r = Run.launch p words items

end Sys2Proof.Machine
end

