-- ==== Sys2Proof/Certificates/Slice0/Obligations.lean ====
section
/-!
DEFINITION. Certificates/Slice0/Obligations.lean: the statements for the provers, from the numbered rules of spec/, file
by file. OBLIGATIONS.json lists them under O1, O2, ….
-/

section SpecStatements

open Sys2Proof Sys2Proof.Machine

/-! ### Encoding (30_encoding.md) -/

/-- Decoding the word of any command gives the command back, with every operand and flag (R80, R82, R86). -/
def Obligations.DecodeEncode : Prop := ∀ i : Instr, decode (encode i) = .ok i

/-- Every legal word is the encoding of what it decodes to: no bit of it is dropped (R80, R82, R83). -/
def Obligations.EncodeDecode : Prop := ∀ (w : Word) (i : Instr), decode w = .ok i → encode i = w

/-- R83 and R232: which words are illegal, by their fields and by the table, and what an illegal word does. -/
def Obligations.IllegalWordsFault : Prop :=
  ∀ w : Word,
    (wordLegal w = false ↔
      0xC ≤ (w.extractLsb' 28 4).toNat ∨ w.extractLsb' 16 11 ≠ 0 ∨
      (w.getLsbD 27 = true ∧ w.extractLsb' 28 4 ≠ 0x3 ∧ w.extractLsb' 28 4 ≠ 0x5) ∨
      (w.extractLsb' 0 16 ≠ 0 ∧ w.extractLsb' 28 4 ≠ 0x3 ∧ w.extractLsb' 28 4 ≠ 0x6 ∧ w.extractLsb' 28 4 ≠ 0x9 ∧
        w.extractLsb' 28 4 ≠ 0xA ∧ w.extractLsb' 28 4 ≠ 0xB)) ∧
    ((∃ i, decode w = .ok i) ↔ wordLegal w = true) ∧
    ∀ s : State, wordLegal w = false → s.fault = false →
      runWord w s = .next { s with fault := true, cause := .illegalCommand, faultCmd := w, pc := s.pc + 1 } ∧
      (w = 0xC0000000 → s = State.reset →
        ∃ t, runWord w s = .next t ∧ t.status = 0x00000108 ∧ t.faultCmd = 0xC0000000)

/-- R82: a word that matches a row is that row's command, with its fields, and matches no other row. -/
def Obligations.RowGivesCommand : Prop :=
  ∀ (w : Word) (r : OpcodeRow), r ∈ opcodeTable → r.accepts w = true →
    (∀ r' ∈ opcodeTable, r'.accepts w = true → r' = r) ∧
    ∃ i, decode w = .ok i ∧ i.mnemonic = r.mnemonic ∧ i.fields = splitWord w

/-- The words of 95_test_vectors.md V-W1 to V-W15, written out from R80 and R82. -/
def Obligations.DecodesWrittenOutWords : Prop :=
  decode 0x00000000 = .ok .nop ∧ decode 0x10000000 = .ok .initEnc ∧ decode 0x20000000 = .ok .initDec ∧
  decode 0x30000041 = .ok (.encSym false 0x41) ∧ decode 0x38000041 = .ok (.encSym true 0x41) ∧
  decode 0x3800FFFF = .ok (.encSym true 0xFFFF) ∧ decode 0x40000000 = .ok .encEnd ∧
  decode 0x50000000 = .ok (.decSym false) ∧ decode 0x58000000 = .ok (.decSym true) ∧
  decode 0x60000041 = .ok (.modelUpdate 0x41) ∧ decode 0x70000000 = .ok .modelReset ∧
  decode 0x80000000 = .ok .modelProbone ∧ decode 0x90000005 = .ok (.modelSymrange 5) ∧
  decode 0xA00000FF = .ok (.modelGetsym 0xFF) ∧ decode 0xB0002100 = .ok (.rdreg 0x2100)

/-! ### The step (10_state.md R28, 20_memory.md R62) -/

/-- With a legal word at the host's command index, a step is exec of the instruction it decodes to, and the step adds
nothing around it; so it is for the word withFetchWord places. With an illegal word there, a step is the IllegalCommand of
R232, or the ignoring of the word in the fault state (R231). The host's list and its index are the model's (log entry 1). -/
def Obligations.StepRunsDecodedWord : Prop :=
  (∀ (s : State) (w : Word) (i : Instr), s.params.admitted = true → s.nextWord = some w → decode w = .ok i →
    step s = exec i s) ∧
  (∀ (s : State) (i : Instr), s.params.admitted = true →
    step (s.withFetchWord 32 (encode i).toNat) = exec i (s.withFetchWord 32 (encode i).toNat)) ∧
  ∀ (s : State) (w : Word) (why : Illegal), s.params.admitted = true → s.nextWord = some w → decode w = .illegal why →
    step s = .next (illegalWord w s) ∧
    illegalWord w s =
      if s.fault then { s with pc := s.pc + 1 }
      else { s with fault := true, cause := .illegalCommand, faultCmd := w, pc := s.pc + 1 }

/-- With no further command the block holds its state (R254; the step for it is the model's, log entry 1), and an
instance whose parameters R6 does not admit is refused by name (log entry 4). -/
def Obligations.StepWithoutCommand : Prop :=
  (∀ s : State, s.params.admitted = true → s.nextWord = none → step s = .next s) ∧
  (∀ s : State, s.params.blockSize ≠ 1 → step s = .refused .blockSizeNotOne) ∧
  ∀ s : State, s.params.blockSize = 1 → s.params.admitted = false → step s = .refused .parametersNotAdmitted

/-- R28: a command that completes or faults advances pc by exactly one, and no command touches the host's list. -/
def Obligations.PcAdvancesByOne : Prop :=
  ∀ (i : Instr) (s t : State), exec i s = .next t → t.pc = s.pc + 1 ∧ t.cmds = s.cmds

/-! ### Reset (70_reset_and_hazards.md) -/

/-- R260: every register at its reset value, for every admitted parameter set; INIT_ENC and the start of INIT_DEC leave
the same state but for MODE (and pc); and no command clears FAULT. R260 says that no IN item is taken; that none is supplied
yet at reset, so that IN is exactly what the host then supplies, is the model's choice (log entry 3), and so is
State.reset as the instance with the default parameters (log entry 4). -/
def Obligations.ResetRegisterValues : Prop :=
  (∀ p : Params, p.admitted = true →
    let s := State.powerOn p
    (s.engine.low = 0 ∧ s.engine.range = 0x10000 ∧ s.engine.nfe = 0 ∧ s.engine.feven = 0xFFFF ∧ s.engine.ibits = 16 ∧
      s.carry.byte = 0 ∧ s.carry.buf = 0) ∧
    (s.look.value = 0 ∧ s.look.vshift = 0 ∧ s.look.followBuf = 0 ∧ s.look.followByte = 0 ∧ s.look.fbValid = false) ∧
    (s.fo.first = true ∧ s.fo.borrow = false ∧ s.fo.hold = false ∧ s.fo.zrun = 0 ∧
      s.fi.first = true ∧ s.fi.carry = false ∧ s.fi.eof = false) ∧
    ((∀ x, x < p.nsym.toNat → s.model.count (p.z + x) = p.leafBase.toNat) ∧
      (∀ x, p.nsym.toNat ≤ x → x < p.z → s.model.count (p.z + x) = 0) ∧
      (∀ n, 1 ≤ n → n < p.z → s.model.count n = s.model.count (2 * n) + s.model.count (2 * n + 1)) ∧
      s.model.count 0 = 0 ∧ (∀ h, s.model.slot h = 0xFFFF) ∧ s.model.mhead = 4095) ∧
    (s.mode = .idle ∧ s.fault = false ∧ s.cause = .noFault ∧ s.faultCmd = 0 ∧ s.res0 = 0 ∧ s.res1 = 0) ∧
    (s.out = [] ∧ (∀ items, (s.supplyIn items).inp = items) ∧ s.pc = 0 ∧ s.params = p) ∧
    exec .initEnc s = .next { s with mode := .enc, pc := 1 } ∧
    exec .initDec s = finish (encode .initDec) (decStart { s with mode := .dec })) ∧
  State.reset = State.powerOn Params.byteCodec ∧
  ∀ (i : Instr) (s t : State), s.fault = true → exec i s = .next t → t.fault = true

/-- The invariant holds at power-on reset, for every admitted parameter set (R27, R35, R260). -/
def Obligations.PowerOnMeetsInv : Prop := ∀ p : Params, p.admitted = true → Inv (State.powerOn p)

/-- The invariant holds at reset with the default parameters. -/
def Obligations.ResetMeetsInv : Prop := Inv State.reset

/-- Every step keeps the invariant, from every state that meets it: the model's counts are those of its window (R35, R36,
R189) and, while no fault is recorded, R27(a) to (g) with the other register bounds of R20. R27, R152 and R189 are
inferences the spec marks as its own. -/
def Obligations.StepKeepsInv : Prop := ∀ s t : State, Inv s → step s = .next t → Inv t

/-- No command changes the sizes of TREE and WIN, in any state (R65). -/
def Obligations.RegisterFilesKeepTheirSize : Prop :=
  ∀ (i : Instr) (s t : State), s.model.tree.length = 2 * s.params.z → s.model.win.length = Config.winSize →
    exec i s = .next t → t.model.tree.length = 2 * t.params.z ∧ t.model.win.length = Config.winSize

/-! ### Faults (60_exceptions.md) -/

/-- Which commands raise which cause from a state that meets the invariant (the "raised by" column of R230): RangeZero,
CarryNoPending, CarryOverflow and ValueBelowLow never, ModelRange by MODEL_GETSYM only. R152 and R163 are inferences the
spec marks as its own. FreeEndEscape needs FEVEN = 0 or a total above 0x4000. -/
def Obligations.CausesComeFromTheirCommands : Prop :=
  ∀ (i : Instr) (s t : State), Inv s → s.fault = false → exec i s = .next t → t.fault = true →
    t.cause ≠ .noFault ∧ t.cause ≠ .illegalCommand ∧ t.cause ≠ .rangeZero ∧ t.cause ≠ .carryNoPending ∧
    t.cause ≠ .carryOverflow ∧ t.cause ≠ .valueBelowLow ∧
    (t.cause = .modelRange → ∃ p, i = .modelGetsym p) ∧
    (t.cause = .emptyStream → i = .initDec) ∧
    (t.cause = .modeError → legalIn i s.mode = false) ∧
    (t.cause = .badSymbol → ∃ sym, (∃ c, i = .encSym c sym) ∨ i = .modelUpdate sym ∨ i = .modelSymrange sym) ∧
    (t.cause = .freeEndEscape →
      ((∃ c sym, i = .encSym c sym) ∨ ∃ c, i = .decSym c) ∧ (s.engine.feven = 0 ∨ 0x4000 < s.model.total)) ∧
    (t.cause = .counterOverflow → (∃ c sym, i = .encSym c sym) ∨ i = .encEnd ∨ ∃ c, i = .decSym c)

/-- The fault state (R231): every word but a legal NOP or RDREG is ignored, and those two still execute. -/
def Obligations.FaultStateIgnoresCommands : Prop :=
  ∀ s : State, s.fault = true →
    (∀ i : Instr, i ≠ .nop → (∀ a, i ≠ .rdreg a) → exec i s = .next { s with pc := s.pc + 1 }) ∧
    (∀ w : Word, wordLegal w = false → runWord w s = .next { s with pc := s.pc + 1 }) ∧
    exec .nop s = .next { s with pc := s.pc + 1 } ∧
    ∀ a : Half, exec (.rdreg a) s = .next { s with res0 := debugRead s a.toNat, pc := s.pc + 1 }

/-- Fault entry (R231) records the first fault and the word that raised it; a command that raises nothing leaves FAULT,
CAUSE and FAULTCMD alone. -/
def Obligations.FirstFaultIsRecorded : Prop :=
  ∀ (i : Instr) (s t : State), exec i s = .next t →
    (s.fault = true → t.fault = true ∧ t.cause = s.cause ∧ t.faultCmd = s.faultCmd ∧ t.mode = s.mode) ∧
    (s.fault = false → t.fault = true → t.cause ≠ .noFault ∧ t.faultCmd = encode i) ∧
    (t.fault = false → t.cause = s.cause ∧ t.faultCmd = s.faultCmd)

/-- The legality table of R234: a command outside its modes raises ModeError with no other state change, and a command
inside them never does. -/
def Obligations.ModeErrorTable : Prop :=
  ∀ (i : Instr) (s : State), s.fault = false →
    let needs : Option Mode :=
      match i with
      | .encSym _ _ => some .enc
      | .encEnd => some .enc
      | .decSym _ => some .dec
      | .nop => none
      | .initEnc => none
      | .initDec => none
      | .rdreg _ => none
      | .modelUpdate _ => none
      | .modelReset => none
      | .modelProbone => none
      | .modelSymrange _ => none
      | .modelGetsym _ => none
    (∀ m, needs = some m → s.mode ≠ m →
      exec i s = .next { s with fault := true, cause := .modeError, faultCmd := encode i, pc := s.pc + 1 }) ∧
    ((needs = none ∨ needs = some s.mode) → ∀ t, exec i s = .next t → t.fault = true → t.cause ≠ .modeError)

/-- R233: a symbol operand of NSYM or above raises BadSymbol before any state change, in each of the three commands. -/
def Obligations.BadSymbolOperands : Prop :=
  ∀ (s : State) (sym : Half), s.fault = false → s.params.nsym.toNat ≤ sym.toNat →
    (∀ c, s.mode = .enc → exec (.encSym c sym) s =
      .next { s with fault := true, cause := .badSymbol, faultCmd := encode (.encSym c sym), pc := s.pc + 1 }) ∧
    exec (.modelUpdate sym) s =
      .next { s with fault := true, cause := .badSymbol, faultCmd := encode (.modelUpdate sym), pc := s.pc + 1 } ∧
    exec (.modelSymrange sym) s =
      .next { s with fault := true, cause := .badSymbol, faultCmd := encode (.modelSymrange sym), pc := s.pc + 1 } ∧
    (s = { State.reset with mode := .enc } → sym = 0x100 →
      ∃ t, exec (.encSym false sym) s = .next t ∧ t.status = 0x00000309)

/-- R182, R188: MODEL_GETSYM of a point at or above the total raises ModelRange with no other state change. -/
def Obligations.PointOutsideTotalFaults : Prop :=
  ∀ (s : State) (p : Half), s.fault = false → (s.model.tree.getD 1 0).toNat ≤ p.toNat →
    exec (.modelGetsym p) s =
      .next { s with fault := true, cause := .modelRange, faultCmd := encode (.modelGetsym p), pc := s.pc + 1 }

/-- R238: FI_Next raises EmptyStream when the file's first item is EOF, and so INIT_DEC, after its writes. -/
def Obligations.EmptyFileFaults : Prop :=
  (∀ (s : State) (rest : List InItem), s.fi.eof = false → s.fi.first = true → s.inp = .eof :: rest →
    fiNext s = .raised .emptyStream { s with inp := rest }) ∧
  ∀ (s : State) (rest : List InItem), s.fault = false → s.inp = .eof :: rest →
    ∃ t, exec .initDec s = .next t ∧
      t = { streamReset s with mode := .dec, inp := rest, fault := true, cause := .emptyStream, faultCmd := 0x20000000,
                               pc := s.pc + 1 } ∧
      t.status = 0x0000090B

/-! ### Control registers (10_state.md R37 to R41) -/

/-- R38: the fields of STATUS, its reset value and its debug address. -/
def Obligations.StatusLayout : Prop :=
  (∀ s : State,
    s.status.extractLsb' 0 3 = (match s.mode with | .idle => 0 | .enc => 1 | .encDone => 2 | .dec => 3 | .decDone => 4) ∧
    s.status.getLsbD 3 = s.fault ∧ s.status.extractLsb' 4 4 = 0 ∧
    s.status.extractLsb' 8 4 =
      (match s.cause with
        | .noFault => 0 | .illegalCommand => 1 | .modeError => 2 | .badSymbol => 3 | .modelRange => 4 | .rangeZero => 5
        | .freeEndEscape => 6 | .carryNoPending => 7 | .carryOverflow => 8 | .emptyStream => 9 | .valueBelowLow => 10
        | .counterOverflow => 11) ∧
    s.status.extractLsb' 12 20 = 0 ∧ debugRead s 0 = s.status) ∧
  State.reset.status = 0x00000000

/-- R41: the parameter registers read at their addresses, BLOCKSIZE as 1, and no command writes them. -/
def Obligations.ParametersAreReadOnly : Prop :=
  (∀ s : State, debugRead s 0x13 = s.params.nsym.setWidth 32 ∧ debugRead s 0x14 = s.params.blockSize.setWidth 32 ∧
    debugRead s 0x15 = s.params.leafBase.setWidth 32 ∧ (s.params.admitted = true → debugRead s 0x14 = 1)) ∧
  ∀ (i : Instr) (s t : State), exec i s = .next t → t.params = s.params

/-! ### Ports (20_memory.md R60, R61) -/

/-- R60: OUT only grows, is empty at reset, and nothing a command does depends on what stands on it. -/
def Obligations.OutIsAppendOnlyAndUnread : Prop :=
  (∀ p, (State.powerOn p).out = []) ∧ (∀ b s, fileOut b s = { s with out := s.out ++ [b] }) ∧
  (∀ (i : Instr) (s t : State), exec i s = .next t → s.out <+: t.out) ∧
  ∀ (i : Instr) (s : State) (before : List Byte),
    exec i { s with out := before ++ s.out } =
      (match exec i s with
        | .next t => .next { t with out := before ++ t.out }
        | .fault f => .fault f
        | .refused r => .refused r)

/-- R61, R70: items are taken in order and never returned, only by INIT_DEC and DEC_SYM, and none after the file's EOF
until the next INIT_DEC. -/
def Obligations.InputItemsAreTakenInOrder : Prop :=
  ∀ (i : Instr) (s t : State), exec i s = .next t →
    t.inp <:+ s.inp ∧ ((i ≠ .initDec ∧ ∀ c, i ≠ .decSym c) → t.inp = s.inp) ∧
    (s.fi.eof = true → i ≠ .initDec → t.inp = s.inp)

/-- R275: the host may supply items ahead of need: a command that completes does the same with more items behind them. -/
def Obligations.LaterItemsChangeNothing : Prop :=
  ∀ (i : Instr) (s t : State) (items : List InItem), exec i s = .next t → exec i (s.supplyIn items) = .next (t.supplyIn items)

/-- R61: a command holds only in FileIn, for want of an item the host has not supplied; nothing else stops exec. The stop's
name is the model's (log entry 2). -/
def Obligations.CommandsHoldOnlyForInput : Prop :=
  (∀ (i : Instr) (s : State) (f : Fault), exec i s = .fault f →
    f = .heldOnIn ∧ s.fault = false ∧ .eof ∉ s.inp ∧ (i = .initDec ∨ ((∃ c, i = .decSym c) ∧ s.mode = .dec ∧ s.fi.eof = false))) ∧
  ∀ (i : Instr) (s : State) (r : Refusal), exec i s ≠ .refused r

/-- R278: every command ends if the host performs its IN duty, in every state. -/
def Obligations.EveryCommandEndsUnderInputDuty : Prop :=
  ∀ (i : Instr) (s : State), (i = .initDec → .eof ∈ s.inp) → ((∃ c, i = .decSym c) → inDuty s) → ∃ t, exec i s = .next t

/-! ### Control commands (43_control.md) -/

/-- R210: NOP advances pc and changes nothing else, in every mode and in the fault state; it is the word 0 and no other
word with OP = 0; and every other command changes more than pc in some state. `RDREG 0x2` alone is no witness for its
command: it writes RES0 with the value RES0 had (R213). -/
def Obligations.NopChangesOnlyPc : Prop :=
  (∀ s : State, exec .nop s = .next { s with pc := s.pc + 1 }) ∧ encode .nop = 0x00000000 ∧
  (∀ w : Word, w.extractLsb' 28 4 = 0 → w ≠ 0 → wordLegal w = false) ∧
  ∀ i : Instr, i ≠ .nop → i ≠ .rdreg 2 → ∃ s t, exec i s = .next t ∧ t ≠ { s with pc := s.pc + 1 }

/-- R209, R211: StreamReset's writes, and INIT_ENC as StreamReset with MODE = ENC, in every mode. -/
def Obligations.InitEncOpensStream : Prop :=
  (∀ s : State, streamReset s =
    { s with
      engine := { low := 0, range := 0x10000, nfe := 0, feven := 0xFFFF, ibits := 16 },
      carry := { byte := 0, buf := 0 },
      look := { value := 0, vshift := 0, followBuf := 0, followByte := 0, fbValid := false },
      fo := { first := true, borrow := false, hold := false, zrun := 0 },
      fi := { first := true, carry := false, eof := false },
      model := Model.reset s.params, res0 := 0, res1 := 0 }) ∧
  (∀ s : State, s.fault = false → exec .initEnc s = .next { streamReset s with mode := .enc, pc := s.pc + 1 }) ∧
  encode .initEnc = 0x10000000 ∧
  ∃ t, exec .initEnc State.reset = .next t ∧ t.status = 0x00000001 ∧ (t.model.tree.getD 1 0).toNat = 256

/-- R212 with R159: INIT_DEC reads two stream bytes: two file bytes, or the one byte of a one-byte file and its EOF; it
holds while the host has not supplied them (R61). That a hold is the stop heldOnIn, with no next state and no partial effect
kept, is the model's form of it (log entry 2). -/
def Obligations.InitDecReadsTwoBytes : Prop :=
  ∀ s : State, s.fault = false →
    let z := streamReset s
    (∀ (b0 b1 : Byte) (rest : List InItem), s.inp = .byte b0 :: .byte b1 :: rest →
      let sum := (b1 ^^^ 0x37).toNat + 1
      exec .initDec s =
        .next { z with
          mode := .dec, inp := rest, pc := s.pc + 1,
          look := { z.look with value := toWord ((b0 ^^^ 0x37).toNat * 256 + sum % 256), vshift := 0 },
          fi := { first := false, carry := decide (256 ≤ sum), eof := false } }) ∧
    (∀ (b0 : Byte) (rest : List InItem), s.inp = .byte b0 :: .eof :: rest →
      exec .initDec s =
        .next { z with
          mode := .dec, inp := rest, pc := s.pc + 1,
          look := { z.look with value := toWord ((b0 ^^^ 0x37).toNat * 256), vshift := 0 },
          fi := { first := false, carry := false, eof := true } }) ∧
    ((s.inp = [] ∨ ∃ b0, s.inp = [.byte b0]) → exec .initDec s = .fault .heldOnIn)

/-- R64, R213: RDREG writes RES0 with the debug word and nothing else but pc, in every mode and in the fault state; the
debug map, address by address. -/
def Obligations.RdregReadsTheDebugMap : Prop :=
  (∀ (s : State) (a : Half), exec (.rdreg a) s = .next { s with res0 := debugRead s a.toNat, pc := s.pc + 1 }) ∧
  (∀ a : Half, encode (.rdreg a) = 0xB0000000 ||| a.setWidth 32) ∧
  ∀ s : State,
    (debugRead s 0x00 = s.status ∧ debugRead s 0x01 = s.faultCmd ∧ debugRead s 0x02 = s.res0 ∧ debugRead s 0x03 = s.res1 ∧
      debugRead s 0x04 = s.engine.low ∧ debugRead s 0x05 = s.engine.range ∧ debugRead s 0x06 = s.engine.nfe ∧
      debugRead s 0x07 = s.engine.feven ∧ debugRead s 0x08 = s.engine.ibits.setWidth 32) ∧
    (debugRead s 0x09 = s.carry.byte.setWidth 32 ∧ debugRead s 0x0A = s.carry.buf ∧ debugRead s 0x0B = s.look.value ∧
      debugRead s 0x0C = s.look.vshift.setWidth 32 ∧ debugRead s 0x0D = s.look.followBuf) ∧
    ((debugRead s 0x0E).extractLsb' 0 8 = s.look.followByte ∧ (debugRead s 0x0E).getLsbD 8 = s.look.fbValid ∧
      (debugRead s 0x0E).extractLsb' 9 23 = 0) ∧
    ((debugRead s 0x0F).getLsbD 0 = s.fo.first ∧ (debugRead s 0x0F).getLsbD 1 = s.fo.borrow ∧
      (debugRead s 0x0F).getLsbD 2 = s.fo.hold ∧ (debugRead s 0x0F).extractLsb' 3 29 = 0 ∧ debugRead s 0x10 = s.fo.zrun) ∧
    ((debugRead s 0x11).getLsbD 0 = s.fi.first ∧ (debugRead s 0x11).getLsbD 1 = s.fi.carry ∧
      (debugRead s 0x11).getLsbD 2 = s.fi.eof ∧ (debugRead s 0x11).extractLsb' 3 29 = 0) ∧
    (debugRead s 0x12 = s.model.mhead.setWidth 32 ∧ debugRead s 0x13 = s.params.nsym.setWidth 32 ∧
      debugRead s 0x14 = s.params.blockSize.setWidth 32 ∧ (s.params.admitted = true → debugRead s 0x14 = 1) ∧
      debugRead s 0x15 = s.params.leafBase.setWidth 32) ∧
    (∀ a, 0x16 ≤ a → a ≤ 0xFFF → debugRead s a = 0) ∧
    (∀ h : BitVec 12, debugRead s (0x1000 + h.toNat) = (s.model.slot h).setWidth 32) ∧
    (∀ n, n < 2 * s.params.z → debugRead s (0x2000 + n) = (s.model.tree.getD n 0).setWidth 32) ∧
    (∀ a, 0x2000 + 2 * s.params.z ≤ a → a ≤ 0xFFFF → debugRead s a = 0)

/-- What INIT_ENC and INIT_DEC leave alone (R209, R211, R212): the parameters, OUT and the host's list; INIT_ENC all of IN. -/
def Obligations.InitCommandsFrame : Prop :=
  ∀ s t : State,
    (exec .initEnc s = .next t →
      t = { s with
        engine := t.engine, carry := t.carry, look := t.look, fo := t.fo, fi := t.fi, model := t.model, mode := t.mode,
        res0 := t.res0, res1 := t.res1, pc := s.pc + 1 }) ∧
    (exec .initDec s = .next t →
      t = { s with
        engine := t.engine, carry := t.carry, look := t.look, fo := t.fo, fi := t.fi, model := t.model, mode := t.mode,
        res0 := t.res0, res1 := t.res1, inp := t.inp, fault := t.fault, cause := t.cause, faultCmd := t.faultCmd,
        pc := s.pc + 1 })

/-! ### The model commands (42_model.md) -/

/-- R180, an inference the spec marks as its own: the bounds of the total and of every symbol's range. -/
def Obligations.ModelBounds : Prop :=
  ∀ (p : Params) (m : Model), p.admitted = true → ModelInv p m →
    0 < m.total ∧ m.total ≤ p.nsym.toNat * p.leafBase.toNat + 15360 ∧ m.total ≤ 0x8000 ∧
    (p = Params.byteCodec → 256 ≤ m.total ∧ m.total ≤ 15616) ∧
    ∀ sym, sym < p.nsym.toNat →
      p.leafBase.toNat ≤ m.count (p.z + sym) ∧ (m.rangeOf p.depth sym).1 < (m.rangeOf p.depth sym).2 ∧
      (m.rangeOf p.depth sym).2 ≤ m.total

/-- MODEL_UPDATE (R183, R184): the window takes the symbol in the slot after MHEAD; each symbol's count loses 2, 2, 1, 1
for the four symbols that cross a zone boundary and the new symbol gains 6; the tree stays the sums of its leaves. The
count formula of R189 is an inference the spec marks as its own. -/
def Obligations.ModelUpdateMovesWeights : Prop :=
  ∀ (s : State) (sym : Half), Inv s → s.fault = false → sym.toNat < s.params.nsym.toNat →
    let h := s.model.mhead + 1
    let stored (k : BitVec 12) (x : Nat) : Nat := if (s.model.slot k).toNat = x then 1 else 0
    ∃ m, exec (.modelUpdate sym) s = .next { s with model := m, pc := s.pc + 1 } ∧
      m.mhead = h ∧ (∀ k, m.slot k = if k = h then sym else s.model.slot k) ∧
      (∀ x, x < s.params.nsym.toNat →
        m.count (s.params.z + x) +
            (2 * stored h x + 2 * stored (h - 1024) x + 1 * stored (h - 2048) x + 1 * stored (h - 3072) x) =
          s.model.count (s.params.z + x) + 6 * (if sym.toNat = x then 1 else 0)) ∧
      ModelInv s.params m

/-- MODEL_RESET (R185): the contents of TREE, WIN and MHEAD, and the total they give. -/
def Obligations.ModelResetContents : Prop :=
  ∀ s : State, s.fault = false →
    ∃ m, exec .modelReset s = .next { s with model := m, pc := s.pc + 1 } ∧
      (∀ k, m.slot k = 0xFFFF) ∧
      (∀ x, x < s.params.z → m.tree.getD (s.params.z + x) 0 = if x < s.params.nsym.toNat then s.params.leafBase else 0) ∧
      (∀ n, 1 ≤ n → n < s.params.z → m.tree.getD n 0 = m.tree.getD (2 * n) 0 + m.tree.getD (2 * n + 1) 0) ∧
      m.tree.getD 0 0 = 0 ∧ m.mhead = 4095 ∧ m.tree.length = 2 * s.params.z ∧ m.win.length = 4096 ∧
      (s.params.admitted = true → m.total = s.params.nsym.toNat * s.params.leafBase.toNat) ∧ encode .modelReset = 0x70000000

/-- MODEL_PROBONE (R186): RES0 is TREE[1], RES1 is 0, in every mode; the total is 1 to 0x8000, and 256 at first. -/
def Obligations.ModelProboneReturnsTotal : Prop :=
  ∀ s : State, s.fault = false →
    exec .modelProbone s = .next { s with res0 := (s.model.tree.getD 1 0).setWidth 32, res1 := 0, pc := s.pc + 1 } ∧
    (Inv s → 1 ≤ (s.model.tree.getD 1 0).toNat ∧ (s.model.tree.getD 1 0).toNat ≤ 0x8000) ∧
    encode .modelProbone = 0x80000000 ∧ (s = State.reset → s.model.tree.getD 1 0 = 0x100)

/-- MODEL_SYMRANGE (R181, R187): `lo` is the sum of the leaves before the symbol and `hi` is `lo` plus its own. -/
def Obligations.ModelSymrangeReturnsRange : Prop :=
  ∀ (s : State) (sym : Half), Inv s → s.fault = false → sym.toNat < s.params.nsym.toNat →
    let lo := leafSum s.model s.params.z sym.toNat
    let hi := lo + s.model.count (s.params.z + sym.toNat)
    exec (.modelSymrange sym) s =
      .next { s with res0 := sym.setWidth 32, res1 := toWord (hi * 65536 + lo), pc := s.pc + 1 } ∧
    lo < hi ∧ hi ≤ 0x8000 ∧ (sym = 0 → lo = 0) ∧ (sym.toNat + 1 = s.params.nsym.toNat → hi = s.model.total)

/-- MODEL_GETSYM (R182, R188): the one symbol whose SymRange holds the point. -/
def Obligations.ModelGetsymFindsSymbol : Prop :=
  ∀ (s : State) (p : Half), Inv s → s.fault = false → p.toNat < s.model.total →
    ∃ sym : Half, sym.toNat < s.params.nsym.toNat ∧
      (let lo := leafSum s.model s.params.z sym.toNat
       let hi := lo + s.model.count (s.params.z + sym.toNat)
       lo ≤ p.toNat ∧ p.toNat < hi ∧
       exec (.modelGetsym p) s =
         .next { s with res0 := sym.setWidth 32, res1 := toWord (hi * 65536 + lo), pc := s.pc + 1 }) ∧
      ∀ x, x < s.params.nsym.toNat → leafSum s.model s.params.z x ≤ p.toNat →
        p.toNat < leafSum s.model s.params.z x + s.model.count (s.params.z + x) → x = sym.toNat

/-- What the model commands leave alone, in every next state (R184 to R188): every coder and bijector register, MODE, the
ports; the queries leave the model too, and MODEL_UPDATE and MODEL_RESET the results. -/
def Obligations.ModelCommandsFrame : Prop :=
  (∀ (i : Instr) (s t : State), (∃ sym, i = .modelUpdate sym) ∨ i = .modelReset → exec i s = .next t →
    t = { s with model := t.model, fault := t.fault, cause := t.cause, faultCmd := t.faultCmd, pc := s.pc + 1 }) ∧
  ∀ (i : Instr) (s t : State), i = .modelProbone ∨ (∃ sym, i = .modelSymrange sym) ∨ (∃ p, i = .modelGetsym p) →
    exec i s = .next t →
    t = { s with
      res0 := t.res0, res1 := t.res1, fault := t.fault, cause := t.cause, faultCmd := t.faultCmd, pc := s.pc + 1 }

/-! ### The interval engine (41_coder.md) -/

/-- R141: Seat is the smallest odd multiple of FEVEN + 1 at or above LOW. The bound below LOW + 2^(L+1) is an inference
the spec marks as its own. R145 step 3: the free end is re-seated exactly when it fell below LOW, and only NFE is written. -/
def Obligations.SeatIsLeastCandidate : Prop :=
  (∀ e : Engine, (e.nfe.toNat < e.low.toNat → e.reseat = { e with nfe := e.seat }) ∧
    (e.low.toNat ≤ e.nfe.toNat → e.reseat = e)) ∧
  ∀ (e : Engine) (L : Nat), e.feven.toNat = 2 ^ L - 1 → e.low.toNat + 2 ^ (L + 1) < 2 ^ 32 →
    (∃ k, e.seat.toNat = (2 * k + 1) * (e.feven.toNat + 1)) ∧ e.low.toNat ≤ e.seat.toNat ∧
    (∀ k, e.low.toNat ≤ (2 * k + 1) * (e.feven.toNat + 1) → e.seat.toNat ≤ (2 * k + 1) * (e.feven.toNat + 1)) ∧
    e.seat.toNat < e.low.toNat + 2 ^ (L + 1) ∧
    e.low.toNat ≤ e.reseat.nfe.toNat ∧ (e.low = 0x5900 → e.feven = 0xFFFF → e.seat = 0x10000)

/-- R142: Reserve's two cases, exact in every state that meets R27. -/
def Obligations.ReserveTakesNextCandidate : Prop :=
  ∀ e : Engine, EngineInv e →
    e.reserve.nfe.toNat =
      (if e.nfe = 0 then e.feven.toNat + 1 else e.nfe.toNat + 2 * (e.feven.toNat + 1)) ∧
    e.reserve.low = e.low ∧ e.reserve.range = e.range ∧ e.reserve.feven = e.feven ∧ e.reserve.ibits = e.ibits ∧
    ∃ k, e.reserve.nfe.toNat = (2 * k + 1) * (e.feven.toNat + 1)

/-- R143: Narrow's check, its two floors and its writes; RANGE stays positive. -/
def Obligations.NarrowScalesTheInterval : Prop :=
  (∀ (s : State) (lo hi p : Nat), EngineInv s.engine → lo < hi → hi ≤ p → p ≤ 0x8000 →
    ∃ e, narrow lo hi p s = .ok (lo * s.engine.range.toNat / p) { s with engine := e } ∧
      e.range.toNat = hi * s.engine.range.toNat / p - lo * s.engine.range.toNat / p ∧ 1 ≤ e.range.toNat ∧
      e.low.toNat = s.engine.low.toNat + lo * s.engine.range.toNat / p ∧
      e.nfe = s.engine.nfe ∧ e.feven = s.engine.feven ∧ e.ibits = s.engine.ibits) ∧
  ∀ (s : State) (lo hi p : Nat), ¬ (lo < hi ∧ hi ≤ p ∧ p ≤ 0x8000) → narrow lo hi p s = .raised .modelRange s

/-- R144: Cap goes down level by level, FEVEN halved once per level and NFE the Seat there, and stops at the first level
whose free end is below the interval's upper end (the level it started at, untouched, included), or raises FreeEndEscape at
FEVEN = 0 with the free end still outside. It writes NFE and FEVEN only. In every state: the model's 32 turns are enough
(log entry 7). -/
def Obligations.CapEndsInsideOrEscapes : Prop :=
  ∀ s : State,
    let finer (j : Nat) : Engine := { s.engine with feven := s.engine.feven >>> j }
    let level (j : Nat) : Engine := if j = 0 then s.engine else { finer j with nfe := (finer j).seat }
    let inside (j : Nat) : Prop := (level j).nfe.toNat < s.engine.low.toNat + s.engine.range.toNat
    ∃ k, (∀ j, j < k → ¬ inside j ∧ (level j).feven ≠ 0) ∧
      ((inside k ∧ cap s = .ok () { s with engine := level k }) ∨
        (¬ inside k ∧ (level k).feven = 0 ∧ cap s = .raised .freeEndEscape { s with engine := level k }))

/-- R146: one turn of Renorm pulls (in the decoder), doubles once, and detaches in its own direction exactly when IBITS is
24; Renorm makes such turns while RANGE is at most 0x8000 and no other, and on exit `0x8000 < RANGE <= 0x10000`. From every
state with a RANGE Narrow can leave: the model's 16 turns are enough (log entry 7). -/
def Obligations.RenormRestoresRange : Prop :=
  (∀ (dir : Dir) (s : State), 1 ≤ s.engine.range.toNat → s.engine.range.toNat ≤ 0x8000 →
    let pulled : Res Unit :=
      match dir with
      | .enc => .ok () s
      | .dec => pull s
    renorm dir s =
      pulled.andThen fun _ u =>
        let v := { u with engine := u.engine.double }
        (if v.engine.ibits = 24 then detach dir v else .ok () v).andThen fun _ w => renorm dir w) ∧
  (∀ (dir : Dir) (s : State), 0x8000 < s.engine.range.toNat → renorm dir s = .ok () s) ∧
  ∀ (dir : Dir) (s u : State), 1 ≤ s.engine.range.toNat → s.engine.range.toNat ≤ 0x10000 → renorm dir s = .ok () u →
    0x8000 < u.engine.range.toNat ∧ u.engine.range.toNat ≤ 0x10000

/-- R147 and R148: one doubling, and the registers after a detach, which only the encoder's byte precedes. -/
def Obligations.DoubleAndDetachRegisters : Prop :=
  (∀ e : Engine, e.low.toNat < 2 ^ 31 → e.range.toNat < 2 ^ 31 → e.nfe.toNat < 2 ^ 31 → e.feven.toNat < 2 ^ 31 →
    e.ibits.toNat < 31 →
    e.double.low.toNat = 2 * e.low.toNat ∧ e.double.range.toNat = 2 * e.range.toNat ∧
    e.double.nfe.toNat = 2 * e.nfe.toNat ∧ e.double.feven.toNat = 2 * e.feven.toNat + 1 ∧
    e.double.ibits.toNat = e.ibits.toNat + 1) ∧
  ∀ s : State, s.engine.low.toNat ≤ s.engine.nfe.toNat →
    ∃ e : Engine, e.low.toNat = s.engine.low.toNat % 65536 ∧ e.range = s.engine.range ∧
      e.nfe.toNat = s.engine.nfe.toNat - s.engine.low.toNat / 65536 * 65536 ∧ e.feven = s.engine.feven &&& 0xFFFF ∧
      e.ibits = 16 ∧ detach .dec s = .ok () { s with engine := e } ∧
      (∀ u, byteWithCarry (s.engine.low.toNat / 65536) s = .ok () u → detach .enc s = .ok () { u with engine := e }) ∧
      ∀ c u, byteWithCarry (s.engine.low.toNat / 65536) s = .raised c u → detach .enc s = .raised c u

/-- R151: the carry buffer, case by case, with the stream bytes it hands to FO_Put. -/
def Obligations.ByteWithCarryCases : Prop :=
  ∀ (s : State) (b : Nat), b ≤ 511 →
    let pending (first fill : Byte) : List Byte := first :: List.replicate (s.carry.buf.toNat - 1) fill
    let after (stream : List Byte) (byte : Byte) : Res Unit :=
      (foPutAll stream s).andThen fun _ u => .ok () { u with carry := { byte := byte, buf := 1 } }
    byteWithCarry b s =
      if s.carry.buf = 0 then
        if 255 < b then .raised .carryNoPending s else .ok () { s with carry := { byte := toByte b, buf := 1 } }
      else if 255 < b then
        if s.carry.byte = 0xFF then .raised .carryOverflow s
        else after (pending (s.carry.byte + 1) 0x00) (toByte (b - 256))
      else if b < 255 then after (pending s.carry.byte 0xFF) (toByte b)
      else if s.carry.buf = 0xFFFFFFFF then .raised .counterOverflow s
      else .ok () { s with carry := { s.carry with buf := s.carry.buf + 1 } }

/-- ENC_SYM (R153, R155) completes: in mode ENC, for a symbol of the model, with the free-end mask not used up and a total
of at most 0x4000 (R144), and room in the run counters (R240). The engine is the one R145 gives; the rest is Renorm's. -/
def Obligations.EncSymCompletes : Prop :=
  ∀ (c : Bool) (sym : Half) (s : State), Inv s → s.fault = false → s.mode = .enc →
    sym.toNat < s.params.nsym.toNat → counterRoom s → s.engine.feven ≠ 0 → s.model.total ≤ 0x4000 →
    let lo := leafSum s.model s.params.z sym.toNat
    let hi := lo + s.model.count (s.params.z + sym.toNat)
    let capped := (narrowedEngine lo hi s.model.total c s.engine).capLoop 32
    capped.1 = true ∧
    ∃ u, renorm .enc { s with engine := capped.2 } = .ok () u ∧
      exec (.encSym c sym) s = .next { u with pc := s.pc + 1 } ∧
      u.engine = symbolEngine lo hi s.model.total c s.engine ∧ EngineInv u.engine ∧ u.fault = false ∧ u.mode = .enc

/-- ENC_END (R154, R156) completes in mode ENC with room in the run counters: the free end's three bytes, the flush, FO_End,
and MODE = ENC_DONE. -/
def Obligations.EncEndCompletes : Prop :=
  ∀ s : State, Inv s → s.fault = false → s.mode = .enc → counterRoom s →
    let v := s.engine.nfe.toNat * 2 ^ (24 - s.engine.ibits.toNat)
    ∃ s1 s2 s3 s4, v < 2 ^ 25 ∧ byteWithCarry (v / 65536) s = .ok () s1 ∧ byteWithCarry (v / 256 % 256) s1 = .ok () s2 ∧
      byteWithCarry (v % 256) s2 = .ok () s3 ∧ s3.carry.buf ≠ 0 ∧ byteWithCarry 0 s3 = .ok () s4 ∧
      exec .encEnd s = .next { foEnd s4 with mode := .encDone, pc := s.pc + 1 } ∧
      s4.carry = { byte := 0, buf := 1 } ∧ s4.fo.first = false ∧ (foEnd s4).out = s4.out ∧ s.out <+: s4.out ∧
      s4.engine = s.engine ∧ s4.fault = false

/-- What ENC_SYM and ENC_END leave alone, in every next state (R155, R156): the look-ahead, the input side, the model, the
parameters, the results, IN and the host's list; ENC_SYM the mode too, ENC_END the interval engine. -/
def Obligations.EncoderCommandsFrame : Prop :=
  (∀ (c : Bool) (sym : Half) (s t : State), exec (.encSym c sym) s = .next t →
    t = { s with
      engine := t.engine, carry := t.carry, fo := t.fo, out := t.out, fault := t.fault, cause := t.cause,
      faultCmd := t.faultCmd, pc := s.pc + 1 }) ∧
  ∀ s t : State, exec .encEnd s = .next t →
    t = { s with
      carry := t.carry, fo := t.fo, out := t.out, mode := t.mode, fault := t.fault, cause := t.cause,
      faultCmd := t.faultCmd, pc := s.pc + 1 }

/-! ### The decoder (41_coder.md) -/

/-- R161 and R164: NextByte's order, held zeros, held byte, file; Pull shifts one byte in when no spare bit is left. -/
def Obligations.NextByteAndPull : Prop :=
  (∀ s : State, s.look.followBuf ≠ 0 →
    nextByte s = .ok 0 { s with look := { s.look with followBuf := s.look.followBuf - 1 } }) ∧
  (∀ s : State, s.look.followBuf = 0 → s.look.fbValid = true →
    nextByte s = .ok s.look.followByte { s with look := { s.look with fbValid := false, followByte := 0 } }) ∧
  (∀ s : State, s.look.followBuf = 0 → s.look.fbValid = false →
    ∀ t z u, fiNext s = .ok (t, z) u → nextByte s = .ok t u) ∧
  (∀ s : State, s.look.vshift ≠ 0 → pull s = .ok () { s with look := { s.look with vshift := s.look.vshift - 1 } }) ∧
  ∀ (s : State) (t : Byte) (u : State), s.look.vshift = 0 → u.look.value.toNat < 2 ^ 24 → nextByte s = .ok t u →
    ∃ w : Word, w.toNat = u.look.value.toNat * 256 + t.toNat ∧
      pull s = .ok () { u with look := { u.look with value := w, vshift := 7 } }

/-- R165: Exhausted answers whether every stream byte not yet in VALUE is 0, and only moves bytes into the look-ahead: the
stream still to come is the same. -/
def Obligations.ExhaustedTellsIfOnlyZerosRemain : Prop :=
  ∀ (s u : State) (b : Bool), FollowInv s.look → exhausted s = .ok b u →
    (b = true ↔ ∀ n bytes v, streamTake n s = .ok bytes v → ∀ t ∈ bytes, t = 0) ∧
    (∀ n bytes v, streamTake n s = .ok bytes v → ∃ v', streamTake n u = .ok bytes v') ∧
    u.look.value = s.look.value ∧ u.look.vshift = s.look.vshift

/-- DEC_SYM detects the end (R160, R162): with `C = 1`, the comparison met and only zeros to come, it returns the sentinel
and MODE = DEC_DONE and leaves the interval engine. -/
def Obligations.DecSymReturnsEnd : Prop :=
  ∀ s : State, Inv s → s.fault = false → s.mode = .dec → inDuty s →
    s.look.followBuf.toNat + s.inp.length < 2 ^ 32 →
    s.look.value.toNat = (s.engine.nfe.toNat - s.engine.low.toNat) * 2 ^ s.look.vshift.toNat →
    (∀ n bytes v, streamTake n s = .ok bytes v → ∀ t ∈ bytes, t = 0) →
    ∃ t, exec (.decSym true) s = .next t ∧ t.res0 = 0xFFFFFFFF ∧ t.res1 = 0 ∧ t.mode = .decDone ∧ t.fault = false ∧
      t = { s with look := t.look, fi := t.fi, inp := t.inp, res0 := t.res0, res1 := t.res1, mode := t.mode, pc := s.pc + 1 }

/-- DEC_SYM decodes a symbol (R162, R166) when the stream does not end here: the symbol whose range holds the point
`(v * P + P - 1) // RANGE`. The end test runs only with `C = 1` and the comparison met, and moves bytes into the look-ahead
only; then the steps of R145: Reserve and Narrow, `VALUE - (newl << VSHIFT)`, re-seat, Cap, and Renorm, whose state DEC_SYM
answers with the results and pc written. It completes as ENC_SYM does, with the host's IN duty met. -/
def Obligations.DecSymReturnsSymbol : Prop :=
  ∀ (c : Bool) (s : State), Inv s → s.fault = false → s.mode = .dec → inDuty s →
    s.look.followBuf.toNat + s.inp.length < 2 ^ 32 → s.engine.feven ≠ 0 → s.model.total ≤ 0x4000 →
    let atEnd := s.look.value.toNat = (s.engine.nfe.toNat - s.engine.low.toNat) * 2 ^ s.look.vshift.toNat
    (c = false ∨ ¬ atEnd ∨ ∃ n bytes v, streamTake n s = .ok bytes v ∧ ∃ t ∈ bytes, t ≠ 0) →
    ∃ (sym : Half) (s1 u : State) (value : Word), sym.toNat < s.params.nsym.toNat ∧
      ((c = true ∧ atEnd) → exhausted s = .ok false s1) ∧ ((c = false ∨ ¬ atEnd) → s1 = s) ∧
      s1 = { s with look := s1.look, fi := s1.fi, inp := s1.inp } ∧
      s1.look.value = s.look.value ∧ s1.look.vshift = s.look.vshift ∧
      (let lo := leafSum s.model s.params.z sym.toNat
       let hi := lo + s.model.count (s.params.z + sym.toNat)
       let v := s.look.value.toNat / 2 ^ s.look.vshift.toNat
       let p := (v * s.model.total + s.model.total - 1) / s.engine.range.toNat
       let newl := lo * s.engine.range.toNat / s.model.total
       let capped := (narrowedEngine lo hi s.model.total c s.engine).capLoop 32
       lo ≤ p ∧ p < hi ∧ newl * 2 ^ s.look.vshift.toNat ≤ s.look.value.toNat ∧
       value.toNat = s.look.value.toNat - newl * 2 ^ s.look.vshift.toNat ∧ capped.1 = true ∧
       renorm .dec { s1 with engine := capped.2, look := { s1.look with value := value } } = .ok () u ∧
       exec (.decSym c) s =
         .next { u with res0 := sym.setWidth 32, res1 := toWord (hi * 65536 + lo), pc := s.pc + 1 } ∧
       u.engine = symbolEngine lo hi s.model.total c s.engine) ∧
      EngineInv u.engine ∧ ValueInv u.engine u.look ∧ u.fault = false ∧ u.mode = .dec

/-- What DEC_SYM leaves alone, in every next state (R162, R167): OUT, the carry buffer, the output side, the model, the
parameters and the host's list. -/
def Obligations.DecSymFrame : Prop :=
  ∀ (c : Bool) (s t : State), exec (.decSym c) s = .next t →
    t = { s with
      engine := t.engine, look := t.look, fi := t.fi, inp := t.inp, mode := t.mode, res0 := t.res0, res1 := t.res1,
      fault := t.fault, cause := t.cause, faultCmd := t.faultCmd, pc := s.pc + 1 } ∧
    (t.mode ≠ s.mode → t.mode = .decDone ∧ t.res0 = 0xFFFFFFFF)

/-- R270: an encoder and a decoder with the same engine, model and parameters, given the same flag, keep the same engine
and model when the decoder returns the encoder's symbol. -/
def Obligations.DecoderMirrorsEncoder : Prop :=
  ∀ (e d e' d' : State) (c : Bool) (sym : Half), Inv e → Inv d → e.fault = false → d.fault = false →
    e.mode = .enc → d.mode = .dec → e.engine = d.engine → e.model = d.model → e.params = d.params →
    exec (.encSym c sym) e = .next e' → exec (.decSym c) d = .next d' → e'.fault = false → d'.fault = false →
    d'.res0 = sym.setWidth 32 →
    e'.engine = d'.engine ∧ e'.model = d'.model ∧ e'.params = d'.params

/-! ### The finitely-odd bijector (40_fobit.md) -/

/-- R101 to R104: the stream put through FO_Put and ended with FO_End gives the file paired with it. -/
def Obligations.FoPutWritesThePairedFile : Prop :=
  ∀ (stream : List Byte) (s : State), s.fo = FoSide.reset → stream.length < 2 ^ 32 →
    ∃ u file, foPutAll stream s = .ok () u ∧ (foEnd u).out = s.out ++ file ∧ paired file stream

/-- R101, R105: FI_Next over a non-empty file returns the digits of the file's number, then zeros. -/
def Obligations.FiNextReadsThePairedStream : Prop :=
  ∀ (file : List Byte) (rest : List InItem) (s : State) (n : Nat), file ≠ [] → s.fi = FiSide.reset →
    s.inp = fileItems file ++ rest →
    ∃ number stream u, fileNumber file = some number ∧ fiTake n s = .ok stream u ∧ stream.length = n ∧
      streamNumber stream = number % 256 ^ n

/-- R105: the input side is the exact inverse of the output side: the stream's bytes, then zeros. -/
def Obligations.FiNextInvertsFoPut : Prop :=
  ∀ (stream file : List Byte) (s u v : State) (rest : List InItem) (n : Nat), s.fo = FoSide.reset →
    foPutAll stream s = .ok () u → (foEnd u).out = s.out ++ file → v.fi = FiSide.reset → v.inp = fileItems file ++ rest →
    ∃ w, fiTake (stream.length + n) v = .ok (stream ++ List.replicate n 0) w

/-- R100, R101: the numeration is a bijection between non-empty files and numbers. The bijective numeration is general
knowledge the spec marks as such. -/
def Obligations.FileNumberIsBijective : Prop :=
  fileNumber [] = none ∧ (∀ n : Nat, ∃ file, fileNumber file = some n) ∧
  ∀ file file' : List Byte, file ≠ [] → fileNumber file = fileNumber file' → file = file'

/-! ### Runs (70_reset_and_hazards.md) -/

/-- R279: one command of a run that raises no fault. INIT_ENC begins an empty file, every other command's OUT bytes follow
the file's; INIT_DEC begins an empty message, DEC_SYM's RES0 follows the message's values unless it is the sentinel, and no
other command changes the message. What the host notes is the model's record (log entry 12). -/
def Obligations.RunNotesFileAndMessage : Prop :=
  ∀ (r r' : Run) (i : Instr), r.next = .next r' → r.state.params.admitted = true → r.state.nextCommand = some i →
    r'.state.fault = false → r.fileStart ≤ r.state.out.length →
    exec i r.state = .next r'.state ∧ r'.fileStart ≤ r'.state.out.length ∧
    (i = .initEnc → r'.file = []) ∧
    (i ≠ .initEnc → ∃ bytes, r'.state.out = r.state.out ++ bytes ∧ r'.file = r.file ++ bytes) ∧
    (i = .initDec → r'.message = []) ∧
    (∀ c, i = .decSym c →
      r'.message = if r'.state.res0 = 0xFFFFFFFF then r.message else r.message ++ [r'.state.res0]) ∧
    (i ≠ .initDec → (∀ c, i ≠ .decSym c) → r'.message = r.message)

end SpecStatements
end

