-- ==== Sys2Proof/Laws/Engine.lean ====
section
/-!
SUPPORT. Laws/Engine.lean: what each step of the interval engine does to R27 (10_state.md): Seat, Reserve, Narrow's
bounds, re-seat, Cap, Double and Detach (41_coder.md R141 to R148). Later proofs cite these instead of the bit-level
definitions.
-/

namespace Sys2Proof.Machine

/-- 0 or an odd multiple of `2^L`: what the free end is at level `L` (R27(d)). -/
def FreeEndAt (L n : Nat) : Prop := n = 0 ∨ ∃ k, n = (2 * k + 1) * 2 ^ L

theorem and_mask_eq_zero {n f : Word} {L : Nat} (h : f.toNat = 2 ^ L - 1) :
    n &&& f = 0 ↔ n.toNat % 2 ^ L = 0 := by
  rw [← BitVec.toNat_inj, BitVec.toNat_and, h, Nat.and_two_pow_sub_one_eq_mod]; simp

theorem mask_add_one {f : Word} {L : Nat} (hL : L < 32) (h : f.toNat = 2 ^ L - 1) :
    (f + 1).toNat = 2 ^ L := by
  have h1 : 2 ^ L < 2 ^ 32 := Nat.pow_lt_pow_right (by omega) hL
  have h2 : 0 < 2 ^ L := Nat.two_pow_pos L
  rw [BitVec.toNat_add, h]
  change (2 ^ L - 1 + 1) % 2 ^ 32 = 2 ^ L
  rw [Nat.sub_add_cancel h2, Nat.mod_eq_of_lt h1]

theorem and_half_ne_zero {n f : Word} {L : Nat} (hL : L < 32) (h : f.toNat = 2 ^ L - 1) :
    n &&& (f + 1) ≠ 0 ↔ n.toNat / 2 ^ L % 2 = 1 := by
  rw [Ne, ← BitVec.toNat_inj, BitVec.toNat_and, mask_add_one hL h, Nat.and_two_pow, Nat.testBit_eq_decide_div_mod_eq]
  have h2 : 0 < 2 ^ L := Nat.two_pow_pos L
  by_cases hc : n.toNat / 2 ^ L % 2 = 1 <;> simp [hc]

theorem freeEndAt_iff {n f : Word} {L : Nat} (hL : L < 32) (h : f.toNat = 2 ^ L - 1) :
    (n &&& f = 0 ∧ (n = 0 ∨ n &&& (f + 1) ≠ 0)) ↔ FreeEndAt L n.toNat := by
  rw [and_mask_eq_zero h, and_half_ne_zero hL h]
  have h2 : 0 < 2 ^ L := Nat.two_pow_pos L
  have h0 : n = 0 ↔ n.toNat = 0 := by rw [← BitVec.toNat_inj]; simp
  rw [h0]
  constructor
  · rintro ⟨hm, h0 | hh⟩
    · exact .inl h0
    · refine .inr ⟨n.toNat / 2 ^ L / 2, ?_⟩
      have := Nat.div_add_mod n.toNat (2 ^ L)
      rw [hm] at this
      have h3 : 2 * (n.toNat / 2 ^ L / 2) + 1 = n.toNat / 2 ^ L := by omega
      rw [h3, Nat.mul_comm]; omega
  · rintro (h0 | ⟨k, hk⟩)
    · exact ⟨by simp [h0], .inl h0⟩
    · rw [hk]
      refine ⟨Nat.mul_mod_left _ _, .inr ?_⟩
      rw [Nat.mul_div_cancel _ h2]; omega

theorem seat_spec {e : Engine} {L : Nat} (h : e.feven.toNat = 2 ^ L - 1) (hfit : e.low.toNat + 2 ^ (L + 1) < 2 ^ 32) :
    (∃ k, e.seat.toNat = (2 * k + 1) * 2 ^ L) ∧ e.low.toNat ≤ e.seat.toNat ∧
      e.seat.toNat < e.low.toNat + 2 ^ (L + 1) := by
  have hp : 0 < 2 ^ L := Nat.two_pow_pos L
  have hs : 2 ^ (L + 1) = 2 * 2 ^ L := by rw [Nat.pow_succ, Nat.mul_comm]
  have hL : L < 32 := by
    by_contra hc
    have : 2 ^ 32 ≤ 2 ^ L := Nat.pow_le_pow_right (by omega) (by omega)
    omega
  generalize hq : (e.low.toNat + (2 ^ L - 1)) / 2 ^ L = q
  have hsum : (e.low + e.feven).toNat = e.low.toNat + (2 ^ L - 1) := by
    rw [BitVec.toNat_add, h, Nat.mod_eq_of_lt (by omega)]
  have hbits : e.seat.toNat = (2 * (q / 2) + 1) * 2 ^ L := by
    apply Nat.eq_of_testBit_eq
    intro i
    have hfb : ∀ i, e.feven.toNat.testBit i = decide (i < L) := by
      intro i; rw [h, Nat.testBit_two_pow_sub_one]
    have hq1 : (2 * (q / 2) + 1) = q ||| 1 := by
      apply Nat.eq_of_testBit_eq; intro j
      rw [Nat.testBit_or]
      cases j with
      | zero => simp [Nat.testBit_zero]
      | succ j => simp [Nat.testBit_succ]; congr 1; omega
    rw [hq1, Nat.testBit_mul_two_pow, Engine.seat, BitVec.toNat_or, mask_add_one hL h, Nat.testBit_or,
      BitVec.toNat_and, Nat.testBit_and, hsum, Nat.testBit_two_pow, Nat.testBit_or]
    by_cases hi : i < 32
    · have : (~~~e.feven).toNat.testBit i = !decide (i < L) := by
        rw [← hfb i]
        have := BitVec.getLsbD_not (x := e.feven) (i := i)
        simpa [BitVec.getLsbD, hi] using this
      rw [this]
      by_cases hiL : i < L
      · have : ¬ L ≤ i := by omega
        have h3 : ¬ L = i := by omega
        simp [this, h3, hiL]
      · have h4 : L ≤ i := by omega
        rw [← hq, Nat.testBit_div_two_pow]
        have h5 : i - L + L = i := by omega
        simp [hiL, h4]
        have : Nat.testBit 1 (i - L) = decide (L = i) := by
          rw [show (1:Nat) = 2 ^ 0 by rfl, Nat.testBit_two_pow]
          by_cases h6 : L = i
          · subst h6; simp
          · simp [h6]; omega
        simp [this]
    · have hz : ∀ m : Word, m.toNat.testBit i = false := fun m =>
        Nat.testBit_lt_two_pow (Nat.lt_of_lt_of_le m.isLt (Nat.pow_le_pow_right (by omega) (by omega)))
      have h4 : L ≤ i := by omega
      have hqlt : q < 2 ^ (32 - L) := by
        rw [← hq, Nat.div_lt_iff_lt_mul hp, ← Nat.pow_add]
        rw [show 32 - L + L = 32 by omega]; omega
      rw [hz, Nat.testBit_lt_two_pow (i := i - L) (x := q) (Nat.lt_of_lt_of_le hqlt (Nat.pow_le_pow_right (by omega) (by omega)))]
      have : Nat.testBit 1 (i - L) = false := Nat.testBit_lt_two_pow (Nat.one_lt_two_pow (by omega))
      have h6 : ¬ L = i := by omega
      simp [this, h6]
  have hdm := Nat.div_add_mod (e.low.toNat + (2 ^ L - 1)) (2 ^ L)
  have hml := Nat.mod_lt (e.low.toNat + (2 ^ L - 1)) hp
  rw [hq] at hdm
  refine ⟨⟨_, hbits⟩, ?_, ?_⟩
  · rw [hbits]
    have : 2 ^ L * q ≤ (2 * (q / 2) + 1) * 2 ^ L := by
      rw [Nat.mul_comm]; exact Nat.mul_le_mul_right _ (by omega)
    omega
  · rw [hbits]
    have : (2 * (q / 2) + 1) * 2 ^ L ≤ 2 ^ L * q + 2 ^ L := by
      rw [show 2 ^ L * q + 2 ^ L = (q + 1) * 2 ^ L by ring]; exact Nat.mul_le_mul_right _ (by omega)
    omega

/-- FEVEN is the mask of level `L` and the free end sits on that level's grid (R27(c), (d)). -/
structure Placed (L : Nat) (e : Engine) : Prop where
  mask : e.feven.toNat = 2 ^ L - 1
  grid : FreeEndAt L e.nfe.toNat

theorem reserve_frame (e : Engine) : e.reserve = { e with nfe := e.reserve.nfe } := by
  unfold Engine.reserve; split <;> rfl

@[simp] theorem reserve_low (e : Engine) : e.reserve.low = e.low := by rw [reserve_frame]
@[simp] theorem reserve_range (e : Engine) : e.reserve.range = e.range := by rw [reserve_frame]
@[simp] theorem reserve_feven (e : Engine) : e.reserve.feven = e.feven := by rw [reserve_frame]
@[simp] theorem reserve_ibits (e : Engine) : e.reserve.ibits = e.ibits := by rw [reserve_frame]

theorem toWord_toNat {n : Nat} (h : n < 2 ^ 32) : (toWord n).toNat = n := by
  simp only [toWord, BitVec.toNat_ofNat]; exact Nat.mod_eq_of_lt h

theorem word_eq_zero_iff (n : Word) : n = 0 ↔ n.toNat = 0 := by
  rw [← BitVec.toNat_inj]; rfl

/-- Reserve moves the free end to the next candidate of its level (R142). -/
theorem reserve_spec {e : Engine} {L : Nat} (h : Placed L e) (hfit : e.nfe.toNat + 2 ^ (L + 1) < 2 ^ 32) :
    Placed L e.reserve ∧
      e.reserve.nfe.toNat = (if e.nfe.toNat = 0 then 2 ^ L else e.nfe.toNat + 2 ^ (L + 1)) := by
  have hp : 0 < 2 ^ L := Nat.two_pow_pos L
  have hs : 2 ^ (L + 1) = 2 * 2 ^ L := by rw [Nat.pow_succ, Nat.mul_comm]
  have hm1 : e.feven.toNat + 1 = 2 ^ L := by rw [h.mask]; omega
  have hn : e.reserve.nfe.toNat = (if e.nfe.toNat = 0 then 2 ^ L else e.nfe.toNat + 2 ^ (L + 1)) := by
    unfold Engine.reserve
    by_cases h0 : e.nfe = 0
    · have : e.nfe.toNat = 0 := (word_eq_zero_iff _).mp h0
      simp only [h0, if_true, hm1]
      rw [toWord_toNat (by omega)]; rfl
    · have : ¬ e.nfe.toNat = 0 := fun hc => h0 ((word_eq_zero_iff _).mpr hc)
      simp only [h0, this, if_false, hm1]
      rw [Nat.shiftLeft_eq, toWord_toNat (by omega)]; omega
  refine ⟨⟨by simpa using h.mask, ?_⟩, hn⟩
  rw [hn]
  rcases h.grid with h0 | ⟨k, hk⟩
  · rw [if_pos h0]; exact .inr ⟨0, by ring⟩
  · have : ¬ e.nfe.toNat = 0 := by
      rw [hk]; positivity
    rw [if_neg this, hk]
    exact .inr ⟨k + 1, by rw [hs]; ring⟩

/-- Narrow's bounds (R143): the new interval is non-empty and lies inside the old one. -/
theorem scale_bounds {r lo hi p : Nat} (hlt : lo < hi) (hle : hi ≤ p) (hpr : p ≤ r) :
    lo * r / p < hi * r / p ∧ hi * r / p ≤ r := by
  have hp : 0 < p := by omega
  constructor
  · have h1 : (lo * r + p) / p = lo * r / p + 1 := Nat.add_div_right _ hp
    have h2 : lo * r + p ≤ hi * r := by nlinarith
    have := Nat.div_le_div_right (c := p) h2
    omega
  · calc hi * r / p ≤ p * r / p := Nat.div_le_div_right (Nat.mul_le_mul_right _ hle)
      _ = r := by rw [Nat.mul_comm, Nat.mul_div_cancel _ hp]

theorem reseat_spec {e : Engine} {L : Nat} (h : Placed L e) (hfit : e.low.toNat + 2 ^ (L + 1) < 2 ^ 32) :
    Placed L e.reseat ∧ e.reseat.low.toNat ≤ e.reseat.nfe.toNat := by
  unfold Engine.reseat
  split
  · have := seat_spec h.mask hfit
    exact ⟨⟨h.mask, .inr this.1⟩, this.2.1⟩
  · exact ⟨h, by omega⟩

theorem reseat_frame (e : Engine) : e.reseat = { e with nfe := e.reseat.nfe } := by
  unfold Engine.reseat; split <;> rfl

@[simp] theorem reseat_low (e : Engine) : e.reseat.low = e.low := by rw [reseat_frame]
@[simp] theorem reseat_range (e : Engine) : e.reseat.range = e.range := by rw [reseat_frame]
@[simp] theorem reseat_feven (e : Engine) : e.reseat.feven = e.feven := by rw [reseat_frame]
@[simp] theorem reseat_ibits (e : Engine) : e.reseat.ibits = e.ibits := by rw [reseat_frame]

theorem refine_spec {e : Engine} {L : Nat} (h : e.feven.toNat = 2 ^ (L + 1) - 1)
    (hfit : e.low.toNat + 2 ^ (L + 1) < 2 ^ 32) :
    Placed L e.refine ∧ e.low.toNat ≤ e.refine.nfe.toNat ∧ e.refine.nfe.toNat < e.low.toNat + 2 ^ (L + 1) := by
  have hm : (e.feven >>> 1).toNat = 2 ^ L - 1 := by
    rw [BitVec.toNat_ushiftRight, h, Nat.shiftRight_eq_div_pow]
    have : 2 ^ (L + 1) = 2 * 2 ^ L := by rw [Nat.pow_succ, Nat.mul_comm]
    omega
  have := seat_spec (e := { e with feven := e.feven >>> 1 }) hm hfit
  exact ⟨⟨hm, .inr this.1⟩, this.2⟩

theorem capLoop_frame (n : Nat) (e : Engine) :
    (e.capLoop n).2 = { e with nfe := (e.capLoop n).2.nfe, feven := (e.capLoop n).2.feven } := by
  induction n generalizing e with
  | zero => rfl
  | succ n ih =>
    unfold Engine.capLoop
    split
    · rfl
    · split
      · rfl
      · rw [ih e.refine]; rfl

/-- What Cap leaves (R144): the free end on the grid of a level at most the old one, at or above LOW; inside the interval
when Cap returns, at level 0 and outside when it raises. -/
theorem capLoop_spec {n L : Nat} {e : Engine} (h : Placed L e) (hn : L ≤ n)
    (hfit : e.low.toNat + 2 ^ (L + 1) < 2 ^ 32) (hlow : e.low.toNat ≤ e.nfe.toNat) :
    ∃ L', L' ≤ L ∧ Placed L' (e.capLoop n).2 ∧ e.low.toNat ≤ (e.capLoop n).2.nfe.toNat ∧
      ((e.capLoop n).1 = true → (e.capLoop n).2.nfe.toNat < e.low.toNat + e.range.toNat) ∧
      ((e.capLoop n).1 = false → L' = 0 ∧ ¬ (e.capLoop n).2.nfe.toNat < e.low.toNat + e.range.toNat) := by
  induction n generalizing e L with
  | zero =>
    refine ⟨L, Nat.le_refl _, h, hlow, ?_, ?_⟩
    · simp [Engine.capLoop, Engine.capped]
    · simp [Engine.capLoop, Engine.capped]; omega
  | succ n ih =>
    unfold Engine.capLoop
    by_cases hc : e.capped = true
    · rw [if_pos hc]
      exact ⟨L, Nat.le_refl _, h, hlow, fun _ => by simpa [Engine.capped] using hc, by simp⟩
    · rw [if_neg hc]
      by_cases hf : e.feven = 0
      · rw [if_pos hf]
        have hL : L = 0 := by
          have hm : 0 = 2 ^ L - 1 := by rw [← h.mask, hf]; rfl
          by_contra hne
          have : 1 < 2 ^ L := Nat.one_lt_two_pow hne
          omega
        exact ⟨L, Nat.le_refl _, h, hlow, by simp, fun _ => ⟨hL, by simpa [Engine.capped] using hc⟩⟩
      · rw [if_neg hf]
        have hL : ∃ K, L = K + 1 := by
          cases L with
          | zero => exact absurd ((word_eq_zero_iff _).mpr (by simpa using h.mask)) hf
          | succ K => exact ⟨K, rfl⟩
        obtain ⟨K, rfl⟩ := hL
        have hK : 2 ^ (K + 1 + 1) = 2 * 2 ^ (K + 1) := by rw [Nat.pow_succ, Nat.mul_comm]
        obtain ⟨hp, hl, -⟩ := refine_spec h.mask (by omega)
        obtain ⟨L', h1, h2, h3, h4, h5⟩ := ih hp (by omega) (by simpa [Engine.refine] using by omega) (by simpa [Engine.refine] using hl)
        exact ⟨L', by omega, h2, by simpa [Engine.refine] using h3, by simpa [Engine.refine] using h4, by simpa [Engine.refine] using h5⟩

/-- Cap does not raise on an interval of width at least 2, unless the free end starts outside at level 0 (R144). -/
theorem capLoop_inside {n L : Nat} {e : Engine} (h : Placed L e) (hn : L ≤ n)
    (hfit : e.low.toNat + 2 ^ (L + 1) < 2 ^ 32) (hlow : e.low.toNat ≤ e.nfe.toNat) (hr : 2 ≤ e.range.toNat)
    (hstart : L ≠ 0 ∨ e.capped = true) : (e.capLoop n).1 = true := by
  induction n generalizing e L with
  | zero =>
    rcases hstart with h0 | hc
    · omega
    · simpa [Engine.capLoop] using hc
  | succ n ih =>
    unfold Engine.capLoop
    by_cases hc : e.capped = true
    · rw [if_pos hc]
    · rw [if_neg hc]
      have hL : L ≠ 0 := by
        rcases hstart with h0 | h1
        · exact h0
        · exact absurd h1 hc
      obtain ⟨K, rfl⟩ : ∃ K, L = K + 1 := ⟨L - 1, by omega⟩
      have hK : 2 ^ (K + 1 + 1) = 2 * 2 ^ (K + 1) := by rw [Nat.pow_succ, Nat.mul_comm]
      have hf : e.feven ≠ 0 := by
        intro hf
        have hm : 0 = 2 ^ (K + 1) - 1 := by rw [← h.mask, hf]; rfl
        have : 1 < 2 ^ (K + 1) := Nat.one_lt_two_pow (by omega)
        omega
      rw [if_neg hf]
      obtain ⟨hp, hl, hu⟩ := refine_spec h.mask (by omega)
      refine ih hp (by omega) (by simpa [Engine.refine] using by omega) (by simpa [Engine.refine] using hl)
        (by simpa [Engine.refine] using hr) ?_
      by_cases hK0 : K = 0
      · right
        subst hK0
        simp only [Engine.capped, decide_eq_true_eq]
        have : e.refine.low = e.low := rfl
        have : e.refine.range = e.range := rfl
        simp only [*]; omega
      · exact .inl hK0

/-- The engine between the steps of a command: R27 with any positive width (R150). -/
structure EngineMid (e : Engine) : Prop where
  rangeMost : e.range.toNat ≤ 0x10000
  freeEndAbove : e.low.toNat ≤ e.nfe.toNat
  freeEndBelow : e.nfe.toNat < e.low.toNat + e.range.toNat
  placed : ∃ L, L ≤ e.ibits.toNat ∧ Placed L e
  topBound : e.low.toNat + e.range.toNat ≤ 2 ^ (e.ibits.toNat + 1)
  ibitsLeast : 16 ≤ e.ibits.toNat
  ibitsMost : e.ibits.toNat ≤ 23

theorem engineInv_iff {e : Engine} : EngineInv e ↔ EngineMid e ∧ 0x8000 < e.range.toNat := by
  constructor
  · intro h
    obtain ⟨L, hL, hm⟩ := h.level
    have hL32 : L < 32 := by have := h.ibitsMost; omega
    exact ⟨⟨h.rangeMost, h.freeEndAbove, h.freeEndBelow,
      ⟨L, hL, hm, (freeEndAt_iff hL32 hm).mp ⟨h.evenBits, h.halfBit⟩⟩, h.topBound, h.ibitsLeast, h.ibitsMost⟩, h.rangeAbove⟩
  · rintro ⟨h, hr⟩
    obtain ⟨L, hL, hm, hg⟩ := h.placed
    have hL32 : L < 32 := by have := h.ibitsMost; omega
    have hb := (freeEndAt_iff hL32 hm).mpr hg
    exact ⟨hr, h.rangeMost, h.freeEndAbove, h.freeEndBelow, ⟨L, hL, hm⟩, hb.1, hb.2, h.topBound, h.ibitsLeast, h.ibitsMost⟩

/-- Doubling scales everything by two and refines the level by one (R147). -/
theorem double_spec {e : Engine} (h : EngineMid e) (hr : e.range.toNat ≤ 0x8000) :
    e.double.low.toNat = 2 * e.low.toNat ∧ e.double.range.toNat = 2 * e.range.toNat ∧
    e.double.nfe.toNat = 2 * e.nfe.toNat ∧ e.double.ibits.toNat = e.ibits.toNat + 1 ∧
    ∃ L, L ≤ e.ibits.toNat + 1 ∧ Placed L e.double := by
  obtain ⟨L, hL, hm, hg⟩ := h.placed
  have hib := h.ibitsMost
  have htop : 2 ^ (e.ibits.toNat + 1) ≤ 2 ^ 24 := Nat.pow_le_pow_right (by omega) (by omega)
  have h1 := h.topBound
  have h2 := h.freeEndBelow
  have hL24 : 2 ^ L ≤ 2 ^ 23 := Nat.pow_le_pow_right (by omega) (by omega)
  have hp : 0 < 2 ^ L := Nat.two_pow_pos L
  have hn : e.double.nfe.toNat = 2 * e.nfe.toNat := by
    simp only [Engine.double, BitVec.toNat_shiftLeft, Nat.shiftLeft_eq]; omega
  refine ⟨?_, ?_, hn, ?_, L + 1, by omega, ?_, ?_⟩
  · simp only [Engine.double, BitVec.toNat_shiftLeft, Nat.shiftLeft_eq]; omega
  · simp only [Engine.double, BitVec.toNat_shiftLeft, Nat.shiftLeft_eq]; omega
  · simp only [Engine.double, BitVec.toNat_add]
    change (e.ibits.toNat + 1) % 32 = _
    omega
  · simp only [Engine.double, BitVec.toNat_or, BitVec.toNat_shiftLeft, Nat.shiftLeft_eq, hm]
    rw [Nat.mod_eq_of_lt (by omega)]
    change (2 ^ L - 1) * 2 ^ 1 ||| 1 = _
    rw [Nat.mul_comm, ← Nat.two_pow_add_eq_or_of_lt (i := 1) (by norm_num)]
    have : 2 ^ (L + 1) = 2 * 2 ^ L := by rw [Nat.pow_succ, Nat.mul_comm]
    omega
  · rw [hn]
    rcases hg with h0 | ⟨k, hk⟩
    · exact .inl (by omega)
    · exact .inr ⟨k, by rw [hk, Nat.pow_succ]; ring⟩

/-- Taking `b * 2^16` off a free end keeps it on its grid up to level 16 (R148). -/
theorem freeEndAt_sub_low {L n b : Nat} (hL : L ≤ 16) (hg : FreeEndAt L n) (hbn : b * 2 ^ 16 ≤ n)
    (hu : n < b * 2 ^ 16 + 2 ^ 17) : FreeEndAt L (n - b * 2 ^ 16) := by
  rcases hg with h0 | ⟨k, hk⟩
  · exact .inl (by omega)
  · rcases Nat.lt_or_ge L 16 with hlt16 | hge
    · obtain ⟨d, hd⟩ : ∃ d, 16 = L + (d + 1) := ⟨15 - L, by omega⟩
      have h2 : b * 2 ^ 16 = 2 * (b * 2 ^ d) * 2 ^ L := by
        rw [hd, Nat.pow_add, Nat.pow_succ]; ring
      right
      refine ⟨k - b * 2 ^ d, ?_⟩
      have hle : 2 * (b * 2 ^ d) * 2 ^ L ≤ (2 * k + 1) * 2 ^ L := by rw [← h2, ← hk]; exact hbn
      have := Nat.le_of_mul_le_mul_right hle (Nat.two_pow_pos L)
      rw [hk, h2, ← Nat.sub_mul]
      congr 1
      omega
    · have hL16 : L = 16 := by omega
      subst hL16
      have : n - b * 2 ^ 16 = 0 ∨ n - b * 2 ^ 16 = 2 ^ 16 := by omega
      rcases this with h0 | h1
      · exact .inl h0
      · exact .inr ⟨0, by omega⟩

/-- Above level 16 the detached free end is 0 or 0x10000, on the grid of level 16 (R148). -/
theorem freeEndAt_sub_high {L n b : Nat} (hL : 16 < L) (hg : FreeEndAt L n) (hbn : b * 2 ^ 16 ≤ n)
    (hu : n < b * 2 ^ 16 + 2 ^ 17) : FreeEndAt 16 (n - b * 2 ^ 16) := by
  have hdiv : n % 2 ^ 16 = 0 := by
    rcases hg with h0 | ⟨k, hk⟩
    · omega
    · obtain ⟨d, rfl⟩ : ∃ d, L = 16 + d := ⟨L - 16, by omega⟩
      rw [hk, Nat.pow_add, Nat.mul_comm (2 ^ 16), ← Nat.mul_assoc]; exact Nat.mul_mod_left _ _
  have : n - b * 2 ^ 16 = 0 ∨ n - b * 2 ^ 16 = 2 ^ 16 := by omega
  rcases this with h0 | h1
  · exact .inl h0
  · exact .inr ⟨0, by omega⟩

/-- Cutting the mask of level `L` to 16 bits gives the mask of level `min L 16` (R148). -/
theorem mask_cut (L : Nat) : (2 ^ L - 1) % 2 ^ 16 = 2 ^ min L 16 - 1 := by
  rw [← Nat.and_two_pow_sub_one_eq_mod]
  apply Nat.eq_of_testBit_eq
  intro i
  simp only [Nat.testBit_and, Nat.testBit_two_pow_sub_one]
  rw [← Bool.decide_and]
  congr 1
  exact propext (Nat.lt_min).symm

theorem detach_low (e : Engine) : e.detach.low.toNat = e.low.toNat % 2 ^ 16 := by
  have hlt := e.low.isLt
  have h : e.detach.low = toWord (e.low.toNat - e.low.toNat >>> 16 <<< 16) := by simp only [Engine.detach]
  rw [h, toWord_toNat (by omega), Nat.shiftRight_eq_div_pow, Nat.shiftLeft_eq]
  omega

theorem detach_nfe (e : Engine) : e.detach.nfe.toNat = e.nfe.toNat - e.low.toNat / 2 ^ 16 * 2 ^ 16 := by
  have hnt := e.nfe.isLt
  have h : e.detach.nfe = toWord (e.nfe.toNat - e.low.toNat >>> 16 <<< 16) := by simp only [Engine.detach]
  rw [h, toWord_toNat (by omega), Nat.shiftRight_eq_div_pow, Nat.shiftLeft_eq]

@[simp] theorem detach_range (e : Engine) : e.detach.range = e.range := by simp only [Engine.detach]
@[simp] theorem detach_ibits (e : Engine) : e.detach.ibits = 16 := by simp only [Engine.detach]

theorem detach_feven (e : Engine) : e.detach.feven.toNat = e.feven.toNat % 2 ^ 16 := by
  simp only [Engine.detach, Config.mask16, BitVec.toNat_and]
  exact Nat.and_two_pow_sub_one_eq_mod _ 16

/-- Detach takes the top byte off LOW and the free end, and keeps everything else of R27 (R148). -/
theorem detach_spec {e : Engine} {L : Nat} (hp : Placed L e) (hr : e.range.toNat ≤ 0x10000)
    (ha : e.low.toNat ≤ e.nfe.toNat) (hb : e.nfe.toNat < e.low.toNat + e.range.toNat) :
    EngineMid e.detach := by
  have hl := detach_low e
  have hn := detach_nfe e
  have hf := detach_feven e
  have hi : e.detach.ibits.toNat = 16 := by rw [detach_ibits]; rfl
  refine ⟨by rw [detach_range]; exact hr, by rw [hl, hn]; omega, by rw [hl, hn, detach_range]; omega, ?_, ?_, by omega, by omega⟩
  · refine ⟨min L 16, by omega, by rw [hf, hp.mask, mask_cut], ?_⟩
    rw [hn]
    rcases Nat.lt_or_ge 16 L with h16 | h16
    · rw [Nat.min_eq_right (by omega)]
      exact freeEndAt_sub_high h16 hp.grid (by omega) (by omega)
    · rw [Nat.min_eq_left h16]
      exact freeEndAt_sub_low h16 hp.grid (by omega) (by omega)
  · rw [hl, detach_range, hi]; omega

/-- The engine of Cap's level `j` (R144): FEVEN halved `j` times, and the free end seated there. -/
def Engine.level (e : Engine) (j : Nat) : Engine :=
  if j = 0 then e else { e with feven := e.feven >>> j, nfe := Engine.seat { e with feven := e.feven >>> j } }

/-- One turn of Cap goes one level down. -/
theorem level_succ (e : Engine) (j : Nat) : (e.level j).refine = e.level (j + 1) := by
  unfold Engine.level
  by_cases h : j = 0
  · subst h; simp [Engine.refine]
  · simp [h, Engine.refine, Engine.seat, BitVec.shiftRight_add]

theorem level_low (e : Engine) (j : Nat) : (e.level j).low = e.low := by unfold Engine.level; split <;> rfl
theorem level_range (e : Engine) (j : Nat) : (e.level j).range = e.range := by unfold Engine.level; split <;> rfl
theorem level_feven (e : Engine) (j : Nat) : (e.level j).feven = e.feven >>> j := by
  unfold Engine.level; split
  · next h => subst h; simp
  · rfl

/-- Everything Cap's loop can do, in every state: it stops at the first level whose free end is inside, or at FEVEN = 0
(R144). -/
theorem capLoop_levels {n : Nat} {e : Engine} (m : Nat) (h : (e.level (m + n)).feven = 0) :
    ∃ k, m ≤ k ∧ (∀ j, m ≤ j → j < k → (e.level j).capped = false ∧ (e.level j).feven ≠ 0) ∧
      (e.level m).capLoop n = ((e.level k).capped, e.level k) ∧ ((e.level k).capped = false → (e.level k).feven = 0) := by
  induction n generalizing m with
  | zero => exact ⟨m, le_rfl, fun j h1 h2 => by omega, rfl, fun _ => h⟩
  | succ n ih =>
    unfold Engine.capLoop
    by_cases hc : (e.level m).capped = true
    · exact ⟨m, le_rfl, fun j h1 h2 => by omega, by rw [if_pos hc, hc], fun h => by rw [hc] at h; simp at h⟩
    · by_cases hf : (e.level m).feven = 0
      · exact ⟨m, le_rfl, fun j h1 h2 => by omega, by rw [if_neg hc, if_pos hf]; simp at hc; rw [hc], fun _ => hf⟩
      · obtain ⟨k, h1, h2, h3, h4⟩ := ih (m + 1) (by rw [show m + 1 + n = m + (n + 1) by omega]; exact h)
        refine ⟨k, by omega, fun j hj1 hj2 => ?_, by rw [if_neg hc, if_neg hf, level_succ]; exact h3, h4⟩
        by_cases hj : j = m
        · subst hj; exact ⟨by simpa using hc, hf⟩
        · exact h2 j (by omega) hj2

end Sys2Proof.Machine
end

