-- ==== Sys2Proof/Laws/State.lean ====
section
/-!
SUPPORT. Laws/State.lean: one lemma per field of State per named update, each true by rfl, so that no later proof unfolds
a record update; then fault entry, whose result depends on FAULT.
-/

namespace Sys2Proof.Machine

@[simp] theorem State.advance_engine (s : State) : s.advance.engine = s.engine := rfl
@[simp] theorem State.advance_carry (s : State) : s.advance.carry = s.carry := rfl
@[simp] theorem State.advance_look (s : State) : s.advance.look = s.look := rfl
@[simp] theorem State.advance_fo (s : State) : s.advance.fo = s.fo := rfl
@[simp] theorem State.advance_fi (s : State) : s.advance.fi = s.fi := rfl
@[simp] theorem State.advance_model (s : State) : s.advance.model = s.model := rfl
@[simp] theorem State.advance_params (s : State) : s.advance.params = s.params := rfl
@[simp] theorem State.advance_mode (s : State) : s.advance.mode = s.mode := rfl
@[simp] theorem State.advance_fault (s : State) : s.advance.fault = s.fault := rfl
@[simp] theorem State.advance_cause (s : State) : s.advance.cause = s.cause := rfl
@[simp] theorem State.advance_faultCmd (s : State) : s.advance.faultCmd = s.faultCmd := rfl
@[simp] theorem State.advance_res0 (s : State) : s.advance.res0 = s.res0 := rfl
@[simp] theorem State.advance_res1 (s : State) : s.advance.res1 = s.res1 := rfl
@[simp] theorem State.advance_out (s : State) : s.advance.out = s.out := rfl
@[simp] theorem State.advance_inp (s : State) : s.advance.inp = s.inp := rfl
@[simp] theorem State.advance_cmds (s : State) : s.advance.cmds = s.cmds := rfl
@[simp] theorem State.advance_pc (s : State) : s.advance.pc = s.pc + 1 := rfl

@[simp] theorem fileOut_engine (b : Byte) (s : State) : (fileOut b s).engine = s.engine := rfl
@[simp] theorem fileOut_carry (b : Byte) (s : State) : (fileOut b s).carry = s.carry := rfl
@[simp] theorem fileOut_look (b : Byte) (s : State) : (fileOut b s).look = s.look := rfl
@[simp] theorem fileOut_fo (b : Byte) (s : State) : (fileOut b s).fo = s.fo := rfl
@[simp] theorem fileOut_fi (b : Byte) (s : State) : (fileOut b s).fi = s.fi := rfl
@[simp] theorem fileOut_model (b : Byte) (s : State) : (fileOut b s).model = s.model := rfl
@[simp] theorem fileOut_params (b : Byte) (s : State) : (fileOut b s).params = s.params := rfl
@[simp] theorem fileOut_mode (b : Byte) (s : State) : (fileOut b s).mode = s.mode := rfl
@[simp] theorem fileOut_fault (b : Byte) (s : State) : (fileOut b s).fault = s.fault := rfl
@[simp] theorem fileOut_cause (b : Byte) (s : State) : (fileOut b s).cause = s.cause := rfl
@[simp] theorem fileOut_faultCmd (b : Byte) (s : State) : (fileOut b s).faultCmd = s.faultCmd := rfl
@[simp] theorem fileOut_res0 (b : Byte) (s : State) : (fileOut b s).res0 = s.res0 := rfl
@[simp] theorem fileOut_res1 (b : Byte) (s : State) : (fileOut b s).res1 = s.res1 := rfl
@[simp] theorem fileOut_out (b : Byte) (s : State) : (fileOut b s).out = s.out ++ [b] := rfl
@[simp] theorem fileOut_inp (b : Byte) (s : State) : (fileOut b s).inp = s.inp := rfl
@[simp] theorem fileOut_cmds (b : Byte) (s : State) : (fileOut b s).cmds = s.cmds := rfl
@[simp] theorem fileOut_pc (b : Byte) (s : State) : (fileOut b s).pc = s.pc := rfl

@[simp] theorem fileOutRun_engine (n : Nat) (b : Byte) (s : State) : (fileOutRun n b s).engine = s.engine := rfl
@[simp] theorem fileOutRun_carry (n : Nat) (b : Byte) (s : State) : (fileOutRun n b s).carry = s.carry := rfl
@[simp] theorem fileOutRun_look (n : Nat) (b : Byte) (s : State) : (fileOutRun n b s).look = s.look := rfl
@[simp] theorem fileOutRun_fo (n : Nat) (b : Byte) (s : State) : (fileOutRun n b s).fo = s.fo := rfl
@[simp] theorem fileOutRun_fi (n : Nat) (b : Byte) (s : State) : (fileOutRun n b s).fi = s.fi := rfl
@[simp] theorem fileOutRun_model (n : Nat) (b : Byte) (s : State) : (fileOutRun n b s).model = s.model := rfl
@[simp] theorem fileOutRun_params (n : Nat) (b : Byte) (s : State) : (fileOutRun n b s).params = s.params := rfl
@[simp] theorem fileOutRun_mode (n : Nat) (b : Byte) (s : State) : (fileOutRun n b s).mode = s.mode := rfl
@[simp] theorem fileOutRun_fault (n : Nat) (b : Byte) (s : State) : (fileOutRun n b s).fault = s.fault := rfl
@[simp] theorem fileOutRun_cause (n : Nat) (b : Byte) (s : State) : (fileOutRun n b s).cause = s.cause := rfl
@[simp] theorem fileOutRun_faultCmd (n : Nat) (b : Byte) (s : State) : (fileOutRun n b s).faultCmd = s.faultCmd := rfl
@[simp] theorem fileOutRun_res0 (n : Nat) (b : Byte) (s : State) : (fileOutRun n b s).res0 = s.res0 := rfl
@[simp] theorem fileOutRun_res1 (n : Nat) (b : Byte) (s : State) : (fileOutRun n b s).res1 = s.res1 := rfl
@[simp] theorem fileOutRun_out (n : Nat) (b : Byte) (s : State) : (fileOutRun n b s).out = s.out ++ List.replicate n b := rfl
@[simp] theorem fileOutRun_inp (n : Nat) (b : Byte) (s : State) : (fileOutRun n b s).inp = s.inp := rfl
@[simp] theorem fileOutRun_cmds (n : Nat) (b : Byte) (s : State) : (fileOutRun n b s).cmds = s.cmds := rfl
@[simp] theorem fileOutRun_pc (n : Nat) (b : Byte) (s : State) : (fileOutRun n b s).pc = s.pc := rfl

@[simp] theorem State.writeResults_engine (s : State) (r0 r1 : Word) : (s.writeResults r0 r1).engine = s.engine := rfl
@[simp] theorem State.writeResults_carry (s : State) (r0 r1 : Word) : (s.writeResults r0 r1).carry = s.carry := rfl
@[simp] theorem State.writeResults_look (s : State) (r0 r1 : Word) : (s.writeResults r0 r1).look = s.look := rfl
@[simp] theorem State.writeResults_fo (s : State) (r0 r1 : Word) : (s.writeResults r0 r1).fo = s.fo := rfl
@[simp] theorem State.writeResults_fi (s : State) (r0 r1 : Word) : (s.writeResults r0 r1).fi = s.fi := rfl
@[simp] theorem State.writeResults_model (s : State) (r0 r1 : Word) : (s.writeResults r0 r1).model = s.model := rfl
@[simp] theorem State.writeResults_params (s : State) (r0 r1 : Word) : (s.writeResults r0 r1).params = s.params := rfl
@[simp] theorem State.writeResults_mode (s : State) (r0 r1 : Word) : (s.writeResults r0 r1).mode = s.mode := rfl
@[simp] theorem State.writeResults_fault (s : State) (r0 r1 : Word) : (s.writeResults r0 r1).fault = s.fault := rfl
@[simp] theorem State.writeResults_cause (s : State) (r0 r1 : Word) : (s.writeResults r0 r1).cause = s.cause := rfl
@[simp] theorem State.writeResults_faultCmd (s : State) (r0 r1 : Word) : (s.writeResults r0 r1).faultCmd = s.faultCmd := rfl
@[simp] theorem State.writeResults_res0 (s : State) (r0 r1 : Word) : (s.writeResults r0 r1).res0 = r0 := rfl
@[simp] theorem State.writeResults_res1 (s : State) (r0 r1 : Word) : (s.writeResults r0 r1).res1 = r1 := rfl
@[simp] theorem State.writeResults_out (s : State) (r0 r1 : Word) : (s.writeResults r0 r1).out = s.out := rfl
@[simp] theorem State.writeResults_inp (s : State) (r0 r1 : Word) : (s.writeResults r0 r1).inp = s.inp := rfl
@[simp] theorem State.writeResults_cmds (s : State) (r0 r1 : Word) : (s.writeResults r0 r1).cmds = s.cmds := rfl
@[simp] theorem State.writeResults_pc (s : State) (r0 r1 : Word) : (s.writeResults r0 r1).pc = s.pc := rfl

@[simp] theorem modelReset_engine (s : State) : (modelReset s).engine = s.engine := rfl
@[simp] theorem modelReset_carry (s : State) : (modelReset s).carry = s.carry := rfl
@[simp] theorem modelReset_look (s : State) : (modelReset s).look = s.look := rfl
@[simp] theorem modelReset_fo (s : State) : (modelReset s).fo = s.fo := rfl
@[simp] theorem modelReset_fi (s : State) : (modelReset s).fi = s.fi := rfl
@[simp] theorem modelReset_model (s : State) : (modelReset s).model = Model.reset s.params := rfl
@[simp] theorem modelReset_params (s : State) : (modelReset s).params = s.params := rfl
@[simp] theorem modelReset_mode (s : State) : (modelReset s).mode = s.mode := rfl
@[simp] theorem modelReset_fault (s : State) : (modelReset s).fault = s.fault := rfl
@[simp] theorem modelReset_cause (s : State) : (modelReset s).cause = s.cause := rfl
@[simp] theorem modelReset_faultCmd (s : State) : (modelReset s).faultCmd = s.faultCmd := rfl
@[simp] theorem modelReset_res0 (s : State) : (modelReset s).res0 = s.res0 := rfl
@[simp] theorem modelReset_res1 (s : State) : (modelReset s).res1 = s.res1 := rfl
@[simp] theorem modelReset_out (s : State) : (modelReset s).out = s.out := rfl
@[simp] theorem modelReset_inp (s : State) : (modelReset s).inp = s.inp := rfl
@[simp] theorem modelReset_cmds (s : State) : (modelReset s).cmds = s.cmds := rfl
@[simp] theorem modelReset_pc (s : State) : (modelReset s).pc = s.pc := rfl

@[simp] theorem streamReset_engine (s : State) : (streamReset s).engine = Engine.reset := rfl
@[simp] theorem streamReset_carry (s : State) : (streamReset s).carry = Carry.reset := rfl
@[simp] theorem streamReset_look (s : State) : (streamReset s).look = LookAhead.reset := rfl
@[simp] theorem streamReset_fo (s : State) : (streamReset s).fo = FoSide.reset := rfl
@[simp] theorem streamReset_fi (s : State) : (streamReset s).fi = FiSide.reset := rfl
@[simp] theorem streamReset_model (s : State) : (streamReset s).model = Model.reset s.params := rfl
@[simp] theorem streamReset_params (s : State) : (streamReset s).params = s.params := rfl
@[simp] theorem streamReset_mode (s : State) : (streamReset s).mode = s.mode := rfl
@[simp] theorem streamReset_fault (s : State) : (streamReset s).fault = s.fault := rfl
@[simp] theorem streamReset_cause (s : State) : (streamReset s).cause = s.cause := rfl
@[simp] theorem streamReset_faultCmd (s : State) : (streamReset s).faultCmd = s.faultCmd := rfl
@[simp] theorem streamReset_res0 (s : State) : (streamReset s).res0 = 0 := rfl
@[simp] theorem streamReset_res1 (s : State) : (streamReset s).res1 = 0 := rfl
@[simp] theorem streamReset_out (s : State) : (streamReset s).out = s.out := rfl
@[simp] theorem streamReset_inp (s : State) : (streamReset s).inp = s.inp := rfl
@[simp] theorem streamReset_cmds (s : State) : (streamReset s).cmds = s.cmds := rfl
@[simp] theorem streamReset_pc (s : State) : (streamReset s).pc = s.pc := rfl

@[simp] theorem decodeEnd_engine (s : State) : (decodeEnd s).engine = s.engine := rfl
@[simp] theorem decodeEnd_carry (s : State) : (decodeEnd s).carry = s.carry := rfl
@[simp] theorem decodeEnd_look (s : State) : (decodeEnd s).look = s.look := rfl
@[simp] theorem decodeEnd_fo (s : State) : (decodeEnd s).fo = s.fo := rfl
@[simp] theorem decodeEnd_fi (s : State) : (decodeEnd s).fi = s.fi := rfl
@[simp] theorem decodeEnd_model (s : State) : (decodeEnd s).model = s.model := rfl
@[simp] theorem decodeEnd_params (s : State) : (decodeEnd s).params = s.params := rfl
@[simp] theorem decodeEnd_mode (s : State) : (decodeEnd s).mode = .decDone := rfl
@[simp] theorem decodeEnd_fault (s : State) : (decodeEnd s).fault = s.fault := rfl
@[simp] theorem decodeEnd_cause (s : State) : (decodeEnd s).cause = s.cause := rfl
@[simp] theorem decodeEnd_faultCmd (s : State) : (decodeEnd s).faultCmd = s.faultCmd := rfl
@[simp] theorem decodeEnd_res0 (s : State) : (decodeEnd s).res0 = 0xFFFFFFFF := rfl
@[simp] theorem decodeEnd_res1 (s : State) : (decodeEnd s).res1 = 0 := rfl
@[simp] theorem decodeEnd_out (s : State) : (decodeEnd s).out = s.out := rfl
@[simp] theorem decodeEnd_inp (s : State) : (decodeEnd s).inp = s.inp := rfl
@[simp] theorem decodeEnd_cmds (s : State) : (decodeEnd s).cmds = s.cmds := rfl
@[simp] theorem decodeEnd_pc (s : State) : (decodeEnd s).pc = s.pc := rfl

@[simp] theorem State.placeWord_engine (s : State) (w : Word) : (s.placeWord w).engine = s.engine := rfl
@[simp] theorem State.placeWord_carry (s : State) (w : Word) : (s.placeWord w).carry = s.carry := rfl
@[simp] theorem State.placeWord_look (s : State) (w : Word) : (s.placeWord w).look = s.look := rfl
@[simp] theorem State.placeWord_fo (s : State) (w : Word) : (s.placeWord w).fo = s.fo := rfl
@[simp] theorem State.placeWord_fi (s : State) (w : Word) : (s.placeWord w).fi = s.fi := rfl
@[simp] theorem State.placeWord_model (s : State) (w : Word) : (s.placeWord w).model = s.model := rfl
@[simp] theorem State.placeWord_params (s : State) (w : Word) : (s.placeWord w).params = s.params := rfl
@[simp] theorem State.placeWord_mode (s : State) (w : Word) : (s.placeWord w).mode = s.mode := rfl
@[simp] theorem State.placeWord_fault (s : State) (w : Word) : (s.placeWord w).fault = s.fault := rfl
@[simp] theorem State.placeWord_cause (s : State) (w : Word) : (s.placeWord w).cause = s.cause := rfl
@[simp] theorem State.placeWord_faultCmd (s : State) (w : Word) : (s.placeWord w).faultCmd = s.faultCmd := rfl
@[simp] theorem State.placeWord_res0 (s : State) (w : Word) : (s.placeWord w).res0 = s.res0 := rfl
@[simp] theorem State.placeWord_res1 (s : State) (w : Word) : (s.placeWord w).res1 = s.res1 := rfl
@[simp] theorem State.placeWord_out (s : State) (w : Word) : (s.placeWord w).out = s.out := rfl
@[simp] theorem State.placeWord_inp (s : State) (w : Word) : (s.placeWord w).inp = s.inp := rfl
@[simp] theorem State.placeWord_cmds (s : State) (w : Word) : (s.placeWord w).cmds = s.cmds.take s.pc ++ List.replicate (s.pc - s.cmds.length) 0 ++ w :: s.cmds.drop (s.pc + 1) := rfl
@[simp] theorem State.placeWord_pc (s : State) (w : Word) : (s.placeWord w).pc = s.pc := rfl

@[simp] theorem State.issue_engine (s : State) (w : Word) : (s.issue w).engine = s.engine := rfl
@[simp] theorem State.issue_carry (s : State) (w : Word) : (s.issue w).carry = s.carry := rfl
@[simp] theorem State.issue_look (s : State) (w : Word) : (s.issue w).look = s.look := rfl
@[simp] theorem State.issue_fo (s : State) (w : Word) : (s.issue w).fo = s.fo := rfl
@[simp] theorem State.issue_fi (s : State) (w : Word) : (s.issue w).fi = s.fi := rfl
@[simp] theorem State.issue_model (s : State) (w : Word) : (s.issue w).model = s.model := rfl
@[simp] theorem State.issue_params (s : State) (w : Word) : (s.issue w).params = s.params := rfl
@[simp] theorem State.issue_mode (s : State) (w : Word) : (s.issue w).mode = s.mode := rfl
@[simp] theorem State.issue_fault (s : State) (w : Word) : (s.issue w).fault = s.fault := rfl
@[simp] theorem State.issue_cause (s : State) (w : Word) : (s.issue w).cause = s.cause := rfl
@[simp] theorem State.issue_faultCmd (s : State) (w : Word) : (s.issue w).faultCmd = s.faultCmd := rfl
@[simp] theorem State.issue_res0 (s : State) (w : Word) : (s.issue w).res0 = s.res0 := rfl
@[simp] theorem State.issue_res1 (s : State) (w : Word) : (s.issue w).res1 = s.res1 := rfl
@[simp] theorem State.issue_out (s : State) (w : Word) : (s.issue w).out = s.out := rfl
@[simp] theorem State.issue_inp (s : State) (w : Word) : (s.issue w).inp = s.inp := rfl
@[simp] theorem State.issue_cmds (s : State) (w : Word) : (s.issue w).cmds = s.cmds ++ [w] := rfl
@[simp] theorem State.issue_pc (s : State) (w : Word) : (s.issue w).pc = s.pc := rfl

@[simp] theorem State.supplyIn_engine (s : State) (items : List InItem) : (s.supplyIn items).engine = s.engine := rfl
@[simp] theorem State.supplyIn_carry (s : State) (items : List InItem) : (s.supplyIn items).carry = s.carry := rfl
@[simp] theorem State.supplyIn_look (s : State) (items : List InItem) : (s.supplyIn items).look = s.look := rfl
@[simp] theorem State.supplyIn_fo (s : State) (items : List InItem) : (s.supplyIn items).fo = s.fo := rfl
@[simp] theorem State.supplyIn_fi (s : State) (items : List InItem) : (s.supplyIn items).fi = s.fi := rfl
@[simp] theorem State.supplyIn_model (s : State) (items : List InItem) : (s.supplyIn items).model = s.model := rfl
@[simp] theorem State.supplyIn_params (s : State) (items : List InItem) : (s.supplyIn items).params = s.params := rfl
@[simp] theorem State.supplyIn_mode (s : State) (items : List InItem) : (s.supplyIn items).mode = s.mode := rfl
@[simp] theorem State.supplyIn_fault (s : State) (items : List InItem) : (s.supplyIn items).fault = s.fault := rfl
@[simp] theorem State.supplyIn_cause (s : State) (items : List InItem) : (s.supplyIn items).cause = s.cause := rfl
@[simp] theorem State.supplyIn_faultCmd (s : State) (items : List InItem) : (s.supplyIn items).faultCmd = s.faultCmd := rfl
@[simp] theorem State.supplyIn_res0 (s : State) (items : List InItem) : (s.supplyIn items).res0 = s.res0 := rfl
@[simp] theorem State.supplyIn_res1 (s : State) (items : List InItem) : (s.supplyIn items).res1 = s.res1 := rfl
@[simp] theorem State.supplyIn_out (s : State) (items : List InItem) : (s.supplyIn items).out = s.out := rfl
@[simp] theorem State.supplyIn_inp (s : State) (items : List InItem) : (s.supplyIn items).inp = s.inp ++ items := rfl
@[simp] theorem State.supplyIn_cmds (s : State) (items : List InItem) : (s.supplyIn items).cmds = s.cmds := rfl
@[simp] theorem State.supplyIn_pc (s : State) (items : List InItem) : (s.supplyIn items).pc = s.pc := rfl

@[simp] theorem State.withdrawFile_engine (s : State) : s.withdrawFile.engine = s.engine := rfl
@[simp] theorem State.withdrawFile_carry (s : State) : s.withdrawFile.carry = s.carry := rfl
@[simp] theorem State.withdrawFile_look (s : State) : s.withdrawFile.look = s.look := rfl
@[simp] theorem State.withdrawFile_fo (s : State) : s.withdrawFile.fo = s.fo := rfl
@[simp] theorem State.withdrawFile_fi (s : State) : s.withdrawFile.fi = s.fi := rfl
@[simp] theorem State.withdrawFile_model (s : State) : s.withdrawFile.model = s.model := rfl
@[simp] theorem State.withdrawFile_params (s : State) : s.withdrawFile.params = s.params := rfl
@[simp] theorem State.withdrawFile_mode (s : State) : s.withdrawFile.mode = s.mode := rfl
@[simp] theorem State.withdrawFile_fault (s : State) : s.withdrawFile.fault = s.fault := rfl
@[simp] theorem State.withdrawFile_cause (s : State) : s.withdrawFile.cause = s.cause := rfl
@[simp] theorem State.withdrawFile_faultCmd (s : State) : s.withdrawFile.faultCmd = s.faultCmd := rfl
@[simp] theorem State.withdrawFile_res0 (s : State) : s.withdrawFile.res0 = s.res0 := rfl
@[simp] theorem State.withdrawFile_res1 (s : State) : s.withdrawFile.res1 = s.res1 := rfl
@[simp] theorem State.withdrawFile_out (s : State) : s.withdrawFile.out = s.out := rfl
@[simp] theorem State.withdrawFile_inp (s : State) : s.withdrawFile.inp = afterEof s.inp := rfl
@[simp] theorem State.withdrawFile_cmds (s : State) : s.withdrawFile.cmds = s.cmds := rfl
@[simp] theorem State.withdrawFile_pc (s : State) : s.withdrawFile.pc = s.pc := rfl

@[simp] theorem State.powerOn_engine (p : Params) : (State.powerOn p).engine = Engine.reset := rfl
@[simp] theorem State.powerOn_carry (p : Params) : (State.powerOn p).carry = Carry.reset := rfl
@[simp] theorem State.powerOn_look (p : Params) : (State.powerOn p).look = LookAhead.reset := rfl
@[simp] theorem State.powerOn_fo (p : Params) : (State.powerOn p).fo = FoSide.reset := rfl
@[simp] theorem State.powerOn_fi (p : Params) : (State.powerOn p).fi = FiSide.reset := rfl
@[simp] theorem State.powerOn_model (p : Params) : (State.powerOn p).model = Model.reset p := rfl
@[simp] theorem State.powerOn_params (p : Params) : (State.powerOn p).params = p := rfl
@[simp] theorem State.powerOn_mode (p : Params) : (State.powerOn p).mode = .idle := rfl
@[simp] theorem State.powerOn_fault (p : Params) : (State.powerOn p).fault = false := rfl
@[simp] theorem State.powerOn_cause (p : Params) : (State.powerOn p).cause = .noFault := rfl
@[simp] theorem State.powerOn_faultCmd (p : Params) : (State.powerOn p).faultCmd = 0 := rfl
@[simp] theorem State.powerOn_res0 (p : Params) : (State.powerOn p).res0 = 0 := rfl
@[simp] theorem State.powerOn_res1 (p : Params) : (State.powerOn p).res1 = 0 := rfl
@[simp] theorem State.powerOn_out (p : Params) : (State.powerOn p).out = [] := rfl
@[simp] theorem State.powerOn_inp (p : Params) : (State.powerOn p).inp = [] := rfl
@[simp] theorem State.powerOn_cmds (p : Params) : (State.powerOn p).cmds = [] := rfl
@[simp] theorem State.powerOn_pc (p : Params) : (State.powerOn p).pc = 0 := rfl

@[simp] theorem State.faultEntry_engine (s : State) (c : Cause) (w : Word) : (s.faultEntry c w).engine = s.engine := by
  unfold State.faultEntry; split <;> rfl
@[simp] theorem State.faultEntry_carry (s : State) (c : Cause) (w : Word) : (s.faultEntry c w).carry = s.carry := by
  unfold State.faultEntry; split <;> rfl
@[simp] theorem State.faultEntry_look (s : State) (c : Cause) (w : Word) : (s.faultEntry c w).look = s.look := by
  unfold State.faultEntry; split <;> rfl
@[simp] theorem State.faultEntry_fo (s : State) (c : Cause) (w : Word) : (s.faultEntry c w).fo = s.fo := by
  unfold State.faultEntry; split <;> rfl
@[simp] theorem State.faultEntry_fi (s : State) (c : Cause) (w : Word) : (s.faultEntry c w).fi = s.fi := by
  unfold State.faultEntry; split <;> rfl
@[simp] theorem State.faultEntry_model (s : State) (c : Cause) (w : Word) : (s.faultEntry c w).model = s.model := by
  unfold State.faultEntry; split <;> rfl
@[simp] theorem State.faultEntry_params (s : State) (c : Cause) (w : Word) : (s.faultEntry c w).params = s.params := by
  unfold State.faultEntry; split <;> rfl
@[simp] theorem State.faultEntry_mode (s : State) (c : Cause) (w : Word) : (s.faultEntry c w).mode = s.mode := by
  unfold State.faultEntry; split <;> rfl
@[simp] theorem State.faultEntry_res0 (s : State) (c : Cause) (w : Word) : (s.faultEntry c w).res0 = s.res0 := by
  unfold State.faultEntry; split <;> rfl
@[simp] theorem State.faultEntry_res1 (s : State) (c : Cause) (w : Word) : (s.faultEntry c w).res1 = s.res1 := by
  unfold State.faultEntry; split <;> rfl
@[simp] theorem State.faultEntry_out (s : State) (c : Cause) (w : Word) : (s.faultEntry c w).out = s.out := by
  unfold State.faultEntry; split <;> rfl
@[simp] theorem State.faultEntry_inp (s : State) (c : Cause) (w : Word) : (s.faultEntry c w).inp = s.inp := by
  unfold State.faultEntry; split <;> rfl
@[simp] theorem State.faultEntry_cmds (s : State) (c : Cause) (w : Word) : (s.faultEntry c w).cmds = s.cmds := by
  unfold State.faultEntry; split <;> rfl

@[simp] theorem State.faultEntry_pc (s : State) (c : Cause) (w : Word) : (s.faultEntry c w).pc = s.pc + 1 := by
  unfold State.faultEntry; split <;> rfl

@[simp] theorem State.faultEntry_fault (s : State) (c : Cause) (w : Word) : (s.faultEntry c w).fault = true := by
  unfold State.faultEntry; split <;> simp_all [State.advance]

/-- The first fault is recorded (60_exceptions.md R231). -/
theorem State.faultEntry_of_clear {s : State} (h : s.fault = false) (c : Cause) (w : Word) :
    s.faultEntry c w = { s with fault := true, cause := c, faultCmd := w, pc := s.pc + 1 } := by
  simp [State.faultEntry, h, State.advance]

/-- A later fault is not recorded (60_exceptions.md R231, R245). -/
theorem State.faultEntry_of_faulted {s : State} (h : s.fault = true) (c : Cause) (w : Word) :
    s.faultEntry c w = s.advance := by
  simp [State.faultEntry, h]

end Sys2Proof.Machine
end

