-- ==== Sys2Proof/Laws/Res.lean ====
section
/-!
SUPPORT. Laws/Res.lean: how steps compose and how commands end: the inversion lemmas of andThen, finish, command,
commandAlways and inMode, which later proofs cite instead of unfolding them.
-/

namespace Sys2Proof.Machine

variable {α β : Type}

@[simp] theorem Res.ok_andThen (a : α) (s : State) (f : α → State → Res β) : (Res.ok a s).andThen f = f a s := rfl
@[simp] theorem Res.raised_andThen (c : Cause) (s : State) (f : α → State → Res β) :
    (Res.raised c s : Res α).andThen f = .raised c s := rfl
@[simp] theorem Res.held_andThen (f : α → State → Res β) : (Res.held : Res α).andThen f = .held := rfl

theorem Res.andThen_eq_ok {r : Res α} {f : α → State → Res β} {b : β} {t : State} :
    r.andThen f = .ok b t ↔ ∃ a u, r = .ok a u ∧ f a u = .ok b t := by
  cases r <;> simp [Res.andThen]

theorem Res.andThen_eq_raised {r : Res α} {f : α → State → Res β} {c : Cause} {t : State} :
    r.andThen f = .raised c t ↔ r = .raised c t ∨ ∃ a u, r = .ok a u ∧ f a u = .raised c t := by
  cases r <;> simp [Res.andThen]

theorem Res.andThen_eq_held {r : Res α} {f : α → State → Res β} :
    r.andThen f = .held ↔ r = .held ∨ ∃ a u, r = .ok a u ∧ f a u = .held := by
  cases r <;> simp [Res.andThen]

/-- A property of whatever state a step leaves, returned or raised. -/
def Res.All (P : State → Prop) : Res α → Prop
  | .ok _ s => P s
  | .raised _ s => P s
  | .held => True

@[simp] theorem Res.all_ok (P : State → Prop) (a : α) (s : State) : (Res.ok a s).All P ↔ P s := Iff.rfl
@[simp] theorem Res.all_raised (P : State → Prop) (c : Cause) (s : State) : (Res.raised c s : Res α).All P ↔ P s := Iff.rfl
@[simp] theorem Res.all_held (P : State → Prop) : (Res.held : Res α).All P ↔ True := Iff.rfl

/-- The rule by which every frame of a composed step is proved. -/
theorem Res.All.andThen {P Q : State → Prop} {r : Res α} {f : α → State → Res β} (h : r.All P)
    (hraised : ∀ u, P u → Q u) (hok : ∀ a u, r = .ok a u → P u → (f a u).All Q) : (r.andThen f).All Q := by
  cases r with
  | ok a u => exact hok a u rfl h
  | raised c u => exact hraised u h
  | held => trivial

theorem Res.All.mono {P Q : State → Prop} {r : Res α} (h : r.All P) (hpq : ∀ u, P u → Q u) : r.All Q := by
  cases r with
  | ok a u => exact hpq u h
  | raised c u => exact hpq u h
  | held => trivial

/-- What follows a step matters only where the step returned. -/
theorem Res.andThen_congr {r : Res α} {f g : α → State → Res β} (h : ∀ a u, r = .ok a u → f a u = g a u) :
    r.andThen f = r.andThen g := by
  cases r with
  | ok a u => exact h a u rfl
  | raised c u => rfl
  | held => rfl

/-- How a command ends: it completes, it faults, or (below) it holds. -/
theorem finish_eq_next {w : Word} {r : Res Unit} {t : State} :
    finish w r = .next t ↔
      (∃ u, r = .ok () u ∧ t = u.advance) ∨ (∃ c u, r = .raised c u ∧ t = u.faultEntry c w) := by
  cases r <;> simp [finish, eq_comm]

theorem finish_eq_fault {w : Word} {r : Res Unit} {e : Fault} :
    finish w r = .fault e ↔ r = .held ∧ e = .heldOnIn := by
  cases r <;> simp [finish, eq_comm]

theorem finish_not_refused {w : Word} {r : Res Unit} {e : Refusal} : finish w r ≠ .refused e := by
  cases r <;> simp [finish]

theorem command_of_faulted {i : Instr} {body : State → Res Unit} {s : State} (h : s.fault = true) :
    command i body s = .next s.advance := by
  simp [command, h]

theorem command_of_clear {i : Instr} {body : State → Res Unit} {s : State} (h : s.fault = false) :
    command i body s = finish (encode i) (body s) := by
  simp [command, h]

/-- Every way a gated command can reach a next state (60_exceptions.md R231). -/
theorem command_eq_next {i : Instr} {body : State → Res Unit} {s t : State} :
    command i body s = .next t ↔
      (s.fault = true ∧ t = s.advance) ∨
      (s.fault = false ∧ ∃ u, body s = .ok () u ∧ t = u.advance) ∨
      (s.fault = false ∧ ∃ c u, body s = .raised c u ∧ t = u.faultEntry c (encode i)) := by
  cases h : s.fault
  · simp [command_of_clear h, finish_eq_next]
  · simp [command_of_faulted h, eq_comm]

theorem inMode_of_eq {m : Mode} {body : State → Res Unit} {s : State} (h : s.mode = m) : inMode m body s = body s := by
  simp [inMode, h]

theorem inMode_of_ne {m : Mode} {body : State → Res Unit} {s : State} (h : s.mode ≠ m) :
    inMode m body s = .raised .modeError s := by
  simp [inMode, h]

theorem fileIn_nil {s : State} (h : s.inp = []) : fileIn s = .held := by simp [fileIn, h]

theorem fileIn_cons {s : State} {item : InItem} {rest : List InItem} (h : s.inp = item :: rest) :
    fileIn s = .ok item { s with inp := rest } := by simp [fileIn, h]

/-- Fault entry outside the fault state, as one record (60_exceptions.md R231). -/
theorem illegalWord_of_clear {s : State} (h : s.fault = false) (w : Word) :
    illegalWord w s = { s with fault := true, cause := .illegalCommand, faultCmd := w, pc := s.pc + 1 } := by
  simp [illegalWord, h, State.faultEntry_of_clear h]

theorem illegalWord_of_faulted {s : State} (h : s.fault = true) (w : Word) : illegalWord w s = s.advance := by
  simp [illegalWord, h]

/-- The word the host placed is the next one fetched. -/
theorem State.nextWord_placeWord (s : State) (w : Word) : (s.placeWord w).nextWord = some w := by
  have hl : (s.cmds.take s.pc ++ List.replicate (s.pc - s.cmds.length) 0).length = s.pc := by
    simp only [List.length_append, List.length_take, List.length_replicate]; omega
  have h2 : (s.placeWord w).cmds[(s.placeWord w).pc]? =
      ((s.cmds.take s.pc ++ List.replicate (s.pc - s.cmds.length) 0) ++ w :: s.cmds.drop (s.pc + 1))[s.pc]? := rfl
  unfold State.nextWord
  rw [h2, List.getElem?_append_right (by omega), hl]
  simp

end Sys2Proof.Machine
end

