-- ==== Sys2Proof/Laws/Fobit.lean ====
section
/-!
SUPPORT. Laws/Fobit.lean: what FO_Put, its runs, FO_End and FI_Next can do (40_fobit.md R103 to R105): their frames, the
output side's invariant, and when they raise.
-/

namespace Sys2Proof.Machine

/-- What the output side of the bijector may write: the FO registers, and bytes appended to OUT (R103, R110). -/
structure FoFrame (s t : State) : Prop where
  rest : t = { s with fo := t.fo, out := t.out }
  appends : s.out <+: t.out

theorem FoFrame.refl (s : State) : FoFrame s s := ⟨rfl, List.prefix_rfl⟩

theorem FoFrame.trans {s t u : State} (h1 : FoFrame s t) (h2 : FoFrame t u) : FoFrame s u :=
  ⟨by rw [h2.rest, h1.rest], h1.appends.trans h2.appends⟩

/-- What the input side of the bijector may write: the FI registers, and items taken from IN, none once the end mark has
been taken (R105, 20_memory.md R61). -/
structure FiFrame (s t : State) : Prop where
  rest : t = { s with fi := t.fi, inp := t.inp }
  takes : t.inp <:+ s.inp
  afterEof : s.fi.eof = true → t.fi.eof = true ∧ t.inp = s.inp

theorem FiFrame.refl (s : State) : FiFrame s s := ⟨rfl, List.suffix_rfl, fun h => ⟨h, rfl⟩⟩

theorem FiFrame.trans {s t u : State} (h1 : FiFrame s t) (h2 : FiFrame t u) : FiFrame s u :=
  ⟨by rw [h2.rest, h1.rest], h2.takes.trans h1.takes, fun h =>
    have h3 := h1.afterEof h
    have h4 := h2.afterEof h3.1
    ⟨h4.1, h4.2.trans h3.2⟩⟩

theorem bitByte_false : bitByte false = 0 := rfl
theorem bitByte_true : bitByte true = 1 := rfl

/-- FO_Put raises CounterOverflow only with a full zero run, and otherwise returns (R103). -/
theorem foPut_returns {t : Byte} {s : State} (h : s.fo.zrun ≠ Config.counterMax) : ∃ u, foPut t s = .ok () u := by
  unfold foPut
  rw [if_neg h]
  split
  · exact ⟨_, rfl⟩
  · split
    · split <;> exact ⟨_, rfl⟩
    · exact ⟨_, rfl⟩

theorem foDigit_frame (t : Byte) (s : State) : FoFrame s (foDigit t s) := by
  unfold foDigit; split
  · exact ⟨rfl, List.prefix_rfl⟩
  · exact ⟨rfl, List.prefix_append _ _⟩

theorem foFlush_frame (s : State) : FoFrame s (foFlush s) :=
  ⟨rfl, by simp [foFlush, fileOutRun, fileOut]⟩

theorem foPut_frame (t : Byte) (s : State) : (foPut t s).All (FoFrame s) := by
  unfold foPut; split
  · exact ⟨rfl, List.prefix_append _ _⟩
  · split
    · split
      · split
        · exact FoFrame.refl s
        · exact ⟨rfl, List.prefix_rfl⟩
      · exact (foFlush_frame s).trans (foDigit_frame t _)
    · exact foDigit_frame t s

theorem foPutRun_frame (n : Nat) (t : Byte) (s : State) : (foPutRun n t s).All (FoFrame s) := by
  induction n generalizing s with
  | zero => exact FoFrame.refl s
  | succ n ih =>
    exact (foPut_frame t s).andThen (fun _ h => h) fun _ u _ h => (ih u).mono fun _ h2 => h.trans h2

/-- The digit a byte leaves the output side in: a hold, or no borrow left over (R103, notes). -/
theorem foDigit_inv {t : Byte} {s : State} (h : s.fo.borrow = true → t ≠ 0) (hz : s.fo.zrun = 0) :
    FoInv (foDigit t s).fo ∧ (foDigit t s).fo.zrun = 0 ∧ (foDigit t s).fo.first = s.fo.first := by
  unfold foDigit
  split
  · exact ⟨fun hc => by simp at hc, rfl, rfl⟩
  · next hne =>
    refine ⟨fun _ => ⟨hz, ?_⟩, hz, rfl⟩
    cases hb : s.fo.borrow
    · rw [hb, bitByte_false] at hne
      have : t.toNat ≠ 0 := fun hc => hne (by rw [← BitVec.toNat_inj]; simpa using hc)
      simpa [bitByte] using by omega
    · rw [hb, bitByte_true] at hne
      have h0 : t.toNat ≠ 0 := fun hc => h hb (by rw [← BitVec.toNat_inj]; simpa using hc)
      have h1 : t.toNat ≠ 1 := fun hc => hne (by rw [← BitVec.toNat_inj]; simpa using hc)
      simpa [bitByte] using by omega

theorem foFlush_fo (s : State) : (foFlush s).fo = { s.fo with hold := false, zrun := 0, borrow := true } := rfl

/-- FO_Put keeps the output side's invariant and lets the zero run grow by at most one (R33, R103). -/
theorem foPut_inv {t : Byte} {s u : State} (hinv : FoInv s.fo) (h : foPut t s = .ok () u) :
    FoInv u.fo ∧ u.fo.zrun.toNat ≤ s.fo.zrun.toNat + 1 ∧ u.fo.first = false := by
  unfold foPut at h
  split at h
  · next hf =>
    obtain ⟨-, rfl⟩ := Res.ok.inj h
    refine ⟨fun hh => ⟨(hinv hh).1, rfl⟩, by simp, rfl⟩
  · next hf =>
    simp only [Bool.not_eq_true] at hf
    split at h
    · next hh =>
      split at h
      · split at h
        · simp at h
        · obtain ⟨-, rfl⟩ := Res.ok.inj h
          refine ⟨fun hc => ?_, ?_, hf⟩
          · exact absurd (hh.symm.trans hc) (by simp)
          · simp only [BitVec.toNat_add]
            change (s.fo.zrun.toNat + 1) % 2 ^ 32 ≤ _
            exact Nat.mod_le _ _
      · next ht =>
        obtain ⟨-, rfl⟩ := Res.ok.inj h
        obtain ⟨h1, h2, h3⟩ := foDigit_inv (t := t) (s := foFlush s) (fun _ => ht) (by rw [foFlush_fo])
        exact ⟨h1, by rw [h2]; simp, by rw [h3, foFlush_fo]; exact hf⟩
    · next hh =>
      obtain ⟨-, rfl⟩ := Res.ok.inj h
      have hh' : s.fo.hold = false := by simpa using hh
      obtain ⟨h1, h2, h3⟩ := foDigit_inv (t := t) (s := s) (fun hb => by simp [(hinv hh').2] at hb) (hinv hh').1
      exact ⟨h1, by rw [h2]; simp, by rw [h3]; exact hf⟩

/-- A run of FO_Put with room in the counter returns, and keeps the invariant (R103). -/
theorem foPutRun_spec {n : Nat} {t : Byte} {s : State} (hinv : FoInv s.fo) (hroom : s.fo.zrun.toNat + n < 2 ^ 32) :
    ∃ u, foPutRun n t s = .ok () u ∧ FoFrame s u ∧ FoInv u.fo ∧ u.fo.zrun.toNat ≤ s.fo.zrun.toNat + n ∧
      (s.fo.first = false → u.fo.first = false) := by
  induction n generalizing s with
  | zero => exact ⟨s, rfl, FoFrame.refl s, hinv, by omega, id⟩
  | succ n ih =>
    have hne : s.fo.zrun ≠ Config.counterMax := by
      intro hc; rw [hc] at hroom; simp [Config.counterMax] at hroom; omega
    obtain ⟨v, hv⟩ := foPut_returns (t := t) hne
    have hfr := foPut_frame t s
    rw [hv] at hfr
    obtain ⟨h1, h2, h3⟩ := foPut_inv hinv hv
    obtain ⟨u, hu, hf, hi, hz, hfst⟩ := ih h1 (by omega)
    exact ⟨u, by simp [foPutRun, hv, hu], FoFrame.trans hfr hf, hi, by omega, fun _ => hfst h3⟩

theorem foEnd_frame (s : State) : FoFrame s (foEnd s) := by
  unfold foEnd; split
  · exact ⟨rfl, List.prefix_append _ _⟩
  · exact ⟨rfl, List.prefix_rfl⟩

theorem fiTail_eof (f : FiSide) : (fiTail f).2.eof = f.eof := by unfold fiTail; split <;> rfl

theorem fiByte_eof (b : Byte) (f : FiSide) : (fiByte b f).2.eof = f.eof := by
  unfold fiByte; dsimp only; split <;> rfl

theorem fiItem_frame (item : InItem) (s : State) :
    (fiItem item s).All fun t => t = { s with fi := t.fi } ∧ (s.fi.eof = true → t.fi.eof = true) := by
  cases item with
  | eof =>
    simp only [fiItem]
    split
    · exact ⟨rfl, id⟩
    · exact ⟨rfl, fun _ => fiTail_eof _⟩
  | byte b => exact ⟨rfl, fun h => (fiByte_eof b s.fi).trans h⟩

theorem fiNext_frame (s : State) : (fiNext s).All (FiFrame s) := by
  unfold fiNext; split
  · next he => exact ⟨rfl, List.suffix_rfl, fun _ => ⟨(fiTail_eof s.fi).trans he, rfl⟩⟩
  · next he =>
    cases hin : s.inp with
    | nil => rw [fileIn_nil hin]; trivial
    | cons item rest =>
      rw [fileIn_cons hin, Res.ok_andThen]
      refine (fiItem_frame item _).mono fun t ht => ⟨by rw [ht.1], ?_, fun h => absurd h he⟩
      rw [ht.1, hin]; exact List.suffix_cons _ _

/-- FI_Next holds only when the file is not at its end and the host has supplied no item (R61, R105). -/
theorem fiNext_held_iff {s : State} : fiNext s = .held ↔ s.fi.eof = false ∧ s.inp = [] := by
  unfold fiNext
  split
  · next he => simp [he]
  · next he =>
    have heof : s.fi.eof = false := by simpa using he
    cases hin : s.inp with
    | nil => simp [fileIn_nil hin, heof]
    | cons item rest =>
      rw [fileIn_cons hin]
      cases item with
      | eof => simp only [Res.ok_andThen, fiItem]; split <;> simp
      | byte b => simp [fiItem]

/-- FI_Next raises only EmptyStream, when the first item of a file is its end mark (R106). -/
theorem fiNext_raised {s u : State} {c : Cause} (h : fiNext s = .raised c u) :
    c = .emptyStream ∧ s.fi.eof = false ∧ s.fi.first = true ∧ ∃ rest, s.inp = .eof :: rest := by
  unfold fiNext at h
  split at h
  · simp at h
  · next he =>
    have heof : s.fi.eof = false := by simpa using he
    cases hin : s.inp with
    | nil => rw [fileIn_nil hin] at h; simp at h
    | cons item rest =>
      rw [fileIn_cons hin] at h
      cases item with
      | eof =>
        simp only [Res.ok_andThen, fiItem] at h
        split at h
        · next hf => obtain ⟨rfl, -⟩ := Res.raised.inj h; exact ⟨rfl, heof, hf, rest, rfl⟩
        · simp at h
      | byte b => simp [fiItem] at h

/-- What FI_Next leaves when it returns: FI_FIRST only for a file not begun, the end mark kept on IN until it is taken
(R105). -/
theorem fiNext_ok {s u : State} {r : Byte × Bool} (h : fiNext s = .ok r u) (hd : inDuty s) : inDuty u := by
  unfold fiNext at h
  split at h
  · next he => obtain ⟨-, rfl⟩ := Res.ok.inj h; exact .inl ((fiTail_eof s.fi).trans he)
  · next he =>
    cases hin : s.inp with
    | nil => rw [fileIn_nil hin] at h; simp at h
    | cons item rest =>
      rw [fileIn_cons hin] at h
      cases item with
      | eof =>
        simp only [Res.ok_andThen, fiItem] at h
        split at h
        · simp at h
        · obtain ⟨-, rfl⟩ := Res.ok.inj h; exact .inl (fiTail_eof _)
      | byte b =>
        simp only [Res.ok_andThen, fiItem] at h
        obtain ⟨-, rfl⟩ := Res.ok.inj h
        rcases hd with h1 | h1
        · exact absurd h1 he
        · right; rw [hin] at h1; simpa using h1

end Sys2Proof.Machine
end

