-- ==== Sys2Proof/Laws/Carry.lean ====
section
/-!
SUPPORT. Laws/Carry.lean: what ByteWithCarry can do (41_coder.md R151, R152): its frame, its result, the growth of the
run counters, and that it raises nothing but CounterOverflow where a carry has a byte to go into.
-/

namespace Sys2Proof.Machine

/-- What the carry buffer's steps may write (R151, R110): the carry buffer, the FO registers, and bytes appended to
OUT. -/
structure CarryFrame (s t : State) : Prop where
  rest : t = { s with carry := t.carry, fo := t.fo, out := t.out }
  appends : s.out <+: t.out

theorem CarryFrame.refl (s : State) : CarryFrame s s := ⟨rfl, List.prefix_rfl⟩

theorem CarryFrame.trans {s t u : State} (h1 : CarryFrame s t) (h2 : CarryFrame t u) : CarryFrame s u :=
  ⟨by rw [h2.rest, h1.rest], h1.appends.trans h2.appends⟩

theorem FoFrame.toCarry {s t : State} (h : FoFrame s t) : CarryFrame s t := ⟨by rw [h.rest], h.appends⟩

/-- The carry buffer's content as a count of pending stream bytes, with the zero run of the output side (R240). -/
def pendingCount (s : State) : Nat := s.fo.zrun.toNat + s.carry.buf.toNat

/-- The carry buffer after ByteWithCarry returned (R151): an extended run, or the new pending byte. -/
def carryAfter (b : Nat) (c : Carry) : Carry :=
  if c.buf ≠ 0 ∧ b = 255 then { c with buf := c.buf + 1 } else { byte := toByte b, buf := 1 }

theorem foPut_raised {t : Byte} {s u : State} {c : Cause} (h : foPut t s = .raised c u) : c = .counterOverflow := by
  by_cases hz : s.fo.zrun = Config.counterMax
  · unfold foPut at h
    split at h
    · simp at h
    · split at h
      · split at h
        · exact (Res.raised.inj h).1.symm
        · simp at h
      · simp at h
  · obtain ⟨v, hv⟩ := foPut_returns (t := t) hz
    rw [hv] at h; simp at h

theorem foPut_not_held {t : Byte} {s : State} : foPut t s ≠ .held := by
  unfold foPut
  split
  · simp
  · split
    · split
      · split <;> simp
      · simp
    · simp

theorem foPutRun_raised {n : Nat} {t : Byte} {s u : State} {c : Cause} (h : foPutRun n t s = .raised c u) :
    c = .counterOverflow := by
  induction n generalizing s with
  | zero => simp [foPutRun] at h
  | succ n ih =>
    rcases Res.andThen_eq_raised.mp h with h1 | ⟨_, v, _, h2⟩
    · exact foPut_raised h1
    · exact ih h2

theorem foPutRun_not_held {n : Nat} {t : Byte} {s : State} : foPutRun n t s ≠ .held := by
  induction n generalizing s with
  | zero => simp [foPutRun]
  | succ n ih =>
    intro h
    rcases Res.andThen_eq_held.mp h with h1 | ⟨_, v, _, h2⟩
    · exact foPut_not_held h1
    · exact ih h2

theorem foPutRun_inv {n : Nat} {t : Byte} {s u : State} (hinv : FoInv s.fo) (h : foPutRun n t s = .ok () u) :
    FoInv u.fo := by
  induction n generalizing s with
  | zero => obtain ⟨-, rfl⟩ := Res.ok.inj h; exact hinv
  | succ n ih =>
    obtain ⟨_, v, hv, h2⟩ := Res.andThen_eq_ok.mp h
    exact ih (foPut_inv hinv hv).1 h2

theorem resolveCarry_frame (t fill : Byte) (b : Nat) (s : State) : (resolveCarry t fill b s).All (CarryFrame s) := by
  refine ((foPut_frame t s).mono fun _ h => h.toCarry).andThen (fun _ h => h) fun _ u _ hu => ?_
  refine ((foPutRun_frame _ fill u).mono fun _ h => hu.trans h.toCarry).andThen (fun _ h => h) fun _ v _ hv => ?_
  exact hv.trans ⟨rfl, List.prefix_rfl⟩

theorem byteWithCarry_frame (b : Nat) (s : State) : (byteWithCarry b s).All (CarryFrame s) := by
  unfold byteWithCarry
  split
  · split
    · exact CarryFrame.refl s
    · exact ⟨rfl, List.prefix_rfl⟩
  · split
    · split
      · exact CarryFrame.refl s
      · exact resolveCarry_frame _ _ _ s
    · split
      · exact resolveCarry_frame _ _ _ s
      · split
        · exact CarryFrame.refl s
        · exact ⟨rfl, List.prefix_rfl⟩

theorem resolveCarry_ok {t fill : Byte} {b : Nat} {s u : State} (h : resolveCarry t fill b s = .ok () u) :
    u.carry = { byte := toByte b, buf := 1 } ∧ (FoInv s.fo → FoInv u.fo) := by
  obtain ⟨_, v, hv, h2⟩ := Res.andThen_eq_ok.mp h
  obtain ⟨_, w, hw, h3⟩ := Res.andThen_eq_ok.mp h2
  obtain ⟨-, rfl⟩ := Res.ok.inj h3
  refine ⟨rfl, fun hi => ?_⟩
  have : FoInv w.fo := foPutRun_inv (foPut_inv hi hv).1 hw
  exact this

theorem resolveCarry_raised {t fill : Byte} {b : Nat} {s u : State} {c : Cause} (h : resolveCarry t fill b s = .raised c u) :
    c = .counterOverflow := by
  rcases Res.andThen_eq_raised.mp h with h1 | ⟨_, v, _, h2⟩
  · exact foPut_raised h1
  · rcases Res.andThen_eq_raised.mp h2 with h3 | ⟨_, w, _, h4⟩
    · exact foPutRun_raised h3
    · simp at h4

theorem resolveCarry_not_held {t fill : Byte} {b : Nat} {s : State} : resolveCarry t fill b s ≠ .held := by
  intro h
  rcases Res.andThen_eq_held.mp h with h1 | ⟨_, v, _, h2⟩
  · exact foPut_not_held h1
  · rcases Res.andThen_eq_held.mp h2 with h3 | ⟨_, w, _, h4⟩
    · exact foPutRun_not_held h3
    · simp at h4

theorem byteWithCarry_not_held {b : Nat} {s : State} : byteWithCarry b s ≠ .held := by
  unfold byteWithCarry
  split
  · split <;> simp
  · split
    · split
      · simp
      · exact resolveCarry_not_held
    · split
      · exact resolveCarry_not_held
      · split <;> simp

theorem toByte_and_mask (b : Nat) : toByte (b &&& 0xFF) = toByte b := by
  rw [← BitVec.toNat_inj]
  simp only [toByte, BitVec.toNat_ofNat]
  rw [Nat.and_two_pow_sub_one_eq_mod b 8]
  omega

/-- What ByteWithCarry leaves when it returns (R151). -/
theorem byteWithCarry_ok {b : Nat} {s u : State} (h : byteWithCarry b s = .ok () u) :
    u.carry = carryAfter b s.carry ∧ (FoInv s.fo → FoInv u.fo) := by
  unfold byteWithCarry at h
  split at h
  · next hb =>
    split at h
    · simp at h
    · obtain ⟨-, rfl⟩ := Res.ok.inj h
      exact ⟨by simp [carryAfter, hb], id⟩
  · next hb =>
    split at h
    · next hlt =>
      split at h
      · simp at h
      · obtain ⟨h1, h2⟩ := resolveCarry_ok h
        refine ⟨?_, h2⟩
        have : ¬ (s.carry.buf ≠ 0 ∧ b = 255) := fun hc => by omega
        rw [h1, carryAfter, if_neg this, toByte_and_mask]
    · next hge =>
      split at h
      · next hlt =>
        obtain ⟨h1, h2⟩ := resolveCarry_ok h
        refine ⟨?_, h2⟩
        have : ¬ (s.carry.buf ≠ 0 ∧ b = 255) := fun hc => by omega
        rw [h1, carryAfter, if_neg this]
      · next hlt =>
        split at h
        · simp at h
        · obtain ⟨-, rfl⟩ := Res.ok.inj h
          have : s.carry.buf ≠ 0 ∧ b = 255 := ⟨hb, by omega⟩
          exact ⟨by rw [carryAfter, if_pos this], id⟩

/-- Where a carry has a byte to go into, ByteWithCarry raises nothing but CounterOverflow (R152). -/
theorem byteWithCarry_raised {b : Nat} {s u : State} {c : Cause} (h : byteWithCarry b s = .raised c u)
    (hsafe : s.carry.buf = 0 ∨ s.carry.byte = 0xFF → b ≤ 255) : c = .counterOverflow := by
  unfold byteWithCarry at h
  split at h
  · next hb =>
    split at h
    · next hlt => have := hsafe (.inl hb); omega
    · simp at h
  · split at h
    · next hlt =>
      split at h
      · next hff => have := hsafe (.inr hff); omega
      · exact resolveCarry_raised h
    · split at h
      · exact resolveCarry_raised h
      · split at h
        · exact (Res.raised.inj h).1.symm
        · simp at h

theorem resolveCarry_returns {t fill : Byte} {b : Nat} {s : State} (hinv : FoInv s.fo) (hbuf : s.carry.buf ≠ 0)
    (hroom : pendingCount s + 1 < 2 ^ 32) :
    ∃ u, resolveCarry t fill b s = .ok () u ∧ u.fo.first = false ∧ pendingCount u ≤ pendingCount s + 1 := by
  unfold pendingCount at *
  have hpos : 0 < s.carry.buf.toNat := by
    rcases Nat.eq_zero_or_pos s.carry.buf.toNat with h0 | h0
    · exact absurd ((word_eq_zero_iff _).mpr h0) hbuf
    · exact h0
  have hne : s.fo.zrun ≠ Config.counterMax := by
    intro hc; rw [hc] at hroom; simp [Config.counterMax] at hroom; omega
  obtain ⟨v, hv⟩ := foPut_returns (t := t) hne
  obtain ⟨h1, h2, h3⟩ := foPut_inv hinv hv
  have hfr := foPut_frame t s
  rw [hv] at hfr
  have hvc : v.carry = s.carry := by rw [FoFrame.rest hfr]
  obtain ⟨w, hw, -, -, hz, hf⟩ := foPutRun_spec (n := v.carry.buf.toNat - 1) (t := fill) h1 (by rw [hvc]; omega)
  refine ⟨{ w with carry := { byte := toByte b, buf := 1 } }, by simp only [resolveCarry, hv, hw, Res.ok_andThen], hf h3, ?_⟩
  rw [hvc] at hz
  change w.fo.zrun.toNat + 1 ≤ _
  omega

/-- With room in the counters, and a byte for a carry to go into, ByteWithCarry returns (R151, R240). -/
theorem byteWithCarry_returns {b : Nat} {s : State} (hinv : FoInv s.fo) (hroom : pendingCount s + 1 < 2 ^ 32)
    (hsafe : s.carry.buf = 0 ∨ s.carry.byte = 0xFF → b ≤ 255) :
    ∃ u, byteWithCarry b s = .ok () u ∧ pendingCount u ≤ pendingCount s + 1 ∧
      (s.fo.first = false ∨ (s.carry.buf ≠ 0 ∧ b ≠ 255) → u.fo.first = false) := by
  unfold byteWithCarry
  by_cases hb : s.carry.buf = 0
  · have hle := hsafe (.inl hb)
    rw [if_pos hb, if_neg (by omega)]
    refine ⟨_, rfl, ?_, ?_⟩
    · have h0 : s.carry.buf.toNat = 0 := (word_eq_zero_iff _).mp hb
      change s.fo.zrun.toNat + 1 ≤ s.fo.zrun.toNat + s.carry.buf.toNat + 1
      omega
    · rintro (h | h)
      · exact h
      · exact absurd hb h.1
  · rw [if_neg hb]
    by_cases hgt : 255 < b
    · have hff : s.carry.byte ≠ 0xFF := fun hc => by have := hsafe (.inr hc); omega
      rw [if_pos hgt, if_neg hff]
      obtain ⟨u, h1, h2, h3⟩ := resolveCarry_returns (t := s.carry.byte + 1) (fill := 0x00) (b := b &&& 0xFF) hinv hb hroom
      exact ⟨u, h1, h3, fun _ => h2⟩
    · rw [if_neg hgt]
      by_cases hlt : b < 255
      · rw [if_pos hlt]
        obtain ⟨u, h1, h2, h3⟩ := resolveCarry_returns (t := s.carry.byte) (fill := 0xFF) (b := b) hinv hb hroom
        exact ⟨u, h1, h3, fun _ => h2⟩
      · rw [if_neg hlt]
        have hne : s.carry.buf ≠ Config.counterMax := by
          intro hc; unfold pendingCount at hroom; rw [hc] at hroom; simp [Config.counterMax] at hroom; omega
        rw [if_neg hne]
        refine ⟨_, rfl, ?_, ?_⟩
        · have : (s.carry.buf + 1).toNat ≤ s.carry.buf.toNat + 1 := by
            rw [BitVec.toNat_add]; exact Nat.mod_le _ _
          change s.fo.zrun.toNat + (s.carry.buf + 1).toNat ≤ s.fo.zrun.toNat + s.carry.buf.toNat + 1
          omega
        · rintro (h | h)
          · exact h
          · omega

theorem carryAfter_buf {b : Nat} {c : Carry} (h : c.buf ≠ Config.counterMax) : (carryAfter b c).buf ≠ 0 := by
  unfold carryAfter
  split
  · intro hc
    apply h
    rw [← BitVec.toNat_inj] at hc ⊢
    simp only [BitVec.toNat_add] at hc
    change (c.buf.toNat + 1) % 2 ^ 32 = 0 at hc
    have := c.buf.isLt
    simp only [Config.counterMax]
    change c.buf.toNat = 4294967295
    omega
  · simp

/-- A returning ByteWithCarry leaves a pending byte (R24). -/
theorem byteWithCarry_pending {b : Nat} {s u : State} (h : byteWithCarry b s = .ok () u) : u.carry.buf ≠ 0 := by
  rw [(byteWithCarry_ok h).1]
  by_cases hm : s.carry.buf = Config.counterMax
  · unfold carryAfter
    split
    · next hc =>
      unfold byteWithCarry at h
      rw [if_neg hc.1, if_neg (by omega), if_neg (by omega), if_pos hm] at h
      simp at h
    · simp
  · exact carryAfter_buf hm

end Sys2Proof.Machine
end

