-- ==== Sys2Proof/Laws/Tree.lean ====
section
/-!
SUPPORT. Laws/Tree.lean: the model's register file TREE as a heap of 16-bit sums: what ModelReset builds
(42_model.md R185), what one Add changes (R183), and the count of a node as the sum of its leaves (10_state.md R35).
-/

namespace Sys2Proof.Machine

/-- TREE[i] as its 16 bits. -/
def cell (t : List Half) (i : Nat) : Half := t.getD i 0

/-- The heap law below node `z`, on the 16-bit entries (R35). -/
def HeapSum (z : Nat) (t : List Half) : Prop := ∀ j, 1 ≤ j → j < z → cell t j = cell t (2 * j) + cell t (2 * j + 1)

theorem half_add_zero (x : Half) : x + 0 = x := BitVec.add_zero x

theorem cell_set (t : List Half) (i j : Nat) (v : Half) (h : i < t.length) :
    cell (t.set i v) j = if j = i then v else cell t j := by
  unfold cell
  simp only [List.getD_eq_getElem?_getD, List.getElem?_set]
  by_cases hji : i = j
  · subst hji; simp [h]
  · rw [if_neg hji, if_neg (Ne.symm hji)]

theorem addPath_length (n i : Nat) (d : Half) (t : List Half) : (addPath n i d t).length = t.length := by
  induction n generalizing i t with
  | zero => rfl
  | succ n ih => simp [addPath, ih]

/-- Add's loop below a node leaves every entry from `z` on alone. -/
theorem addPath_above {n i z j : Nat} {d : Half} {t : List Half} (hi : i < z) (hj : z ≤ j) (hl : z ≤ t.length) :
    cell (addPath n i d t) j = cell t j := by
  induction n generalizing i t with
  | zero => rfl
  | succ n ih =>
    unfold addPath
    rw [ih (by omega) (by simp; omega), cell_set _ _ _ _ (by omega), if_neg (by omega)]

/-- Add changes one leaf (R183). -/
theorem addPath_leaf {n i z j : Nat} {d : Half} {t : List Half} (hi : z ≤ i) (hi2 : i < 2 * z) (hj : z ≤ j)
    (hl : t.length = 2 * z) : cell (addPath (n + 1) i d t) j = cell t j + if j = i then d else 0 := by
  unfold addPath
  rw [addPath_above (z := z) (by omega) hj (by simp; omega), cell_set _ _ _ _ (by omega)]
  split
  · next h => subst h; rfl
  · exact (half_add_zero _).symm

/-- Add's loop, started with one node's sum short by `d`, restores the heap law (R183). -/
theorem addPath_heap {n i z : Nat} {d : Half} {t : List Half} (hl : t.length = 2 * z) (hi : i < 2 * z) (hn : i < 2 ^ n)
    (h : ∀ j, 1 ≤ j → j < z → cell t (2 * j) + cell t (2 * j + 1) = cell t j + if j = i then d else 0) :
    HeapSum z (addPath n i d t) := by
  induction n generalizing i t with
  | zero =>
    intro j h1 h2
    have := h j h1 h2
    rw [if_neg (by omega), half_add_zero] at this
    exact this.symm
  | succ n ih =>
    unfold addPath
    apply ih (by simpa using hl) (by omega) (by rw [Nat.pow_succ] at hn; omega)
    intro j h1 h2
    have hj := h j h1 h2
    rw [cell_set _ _ _ _ (by omega), cell_set _ _ _ _ (by omega), cell_set _ _ _ _ (by omega)]
    by_cases hji : j = i
    · rw [if_pos hji] at hj
      rw [if_neg (by omega), if_neg (by omega), if_pos hji, if_neg (by omega), half_add_zero, hj, ← hji]; rfl
    · rw [if_neg hji, half_add_zero] at hj
      by_cases hp : j = i / 2
      · rw [if_neg hji, if_pos hp, ← hj]
        by_cases he : 2 * j = i
        · rw [if_pos he, if_neg (by omega), ← he]
          show cell t (2 * j) + d + _ = _
          rw [BitVec.add_assoc, BitVec.add_comm d, ← BitVec.add_assoc]
        · have ho : 2 * j + 1 = i := by omega
          rw [if_neg he, if_pos ho, ← ho]
          show _ + (cell t (2 * j + 1) + d) = _
          rw [← BitVec.add_assoc]
      · rw [if_neg (by omega), if_neg (by omega), if_neg hji, if_neg hp, half_add_zero, hj]

theorem addPath_zero {n i : Nat} {d : Half} {t : List Half} (hn : 2 ^ n ≤ 2 * i) (hi : i < t.length) :
    cell (addPath n i d t) 0 = cell t 0 := by
  induction n generalizing i t with
  | zero => rfl
  | succ n ih =>
    have hpos : 0 < 2 ^ n := Nat.two_pow_pos n
    rw [Nat.pow_succ] at hn
    unfold addPath
    cases n with
    | zero =>
      show cell (t.set i _) 0 = _
      rw [cell_set _ _ _ _ hi, if_neg (by omega)]
    | succ n =>
      rw [Nat.pow_succ] at hn
      rw [ih (by rw [Nat.pow_succ]; omega) (by simp; omega), cell_set _ _ _ _ hi, if_neg (by omega)]

theorem leavesFrom_length (nsym n s : Nat) (b : Half) : (leavesFrom nsym b n s).length = n := by
  induction n generalizing s with
  | zero => rfl
  | succ n ih => simp [leavesFrom, ih]

theorem leavesFrom_get (nsym n s i : Nat) (b : Half) (h : i < n) :
    (leavesFrom nsym b n s).getD i 0 = if s + i < nsym then b else 0 := by
  induction n generalizing s i with
  | zero => omega
  | succ n ih =>
    cases i with
    | zero => simp [leavesFrom]
    | succ i =>
      have := ih (s + 1) i (by omega)
      simp only [leavesFrom, List.getD_cons_succ, this]
      congr 2; omega

theorem pairSums_length (l : List Half) (n : Nat) (h : l.length = 2 * n) : (pairSums l).length = n := by
  induction n generalizing l with
  | zero => match l, h with | [], _ => rfl
  | succ n ih =>
    match l, h with
    | a :: b :: rest, h => simp only [pairSums, List.length_cons] at *; rw [ih rest (by omega)]
    | [a], h => simp at h; omega
    | [], h => simp at h

theorem pairSums_get (l : List Half) (n i : Nat) (h : l.length = 2 * n) (hi : i < n) :
    (pairSums l).getD i 0 = l.getD (2 * i) 0 + l.getD (2 * i + 1) 0 := by
  induction n generalizing l i with
  | zero => omega
  | succ n ih =>
    match l, h with
    | a :: b :: rest, h =>
      cases i with
      | zero => rfl
      | succ i =>
        have h1 := ih rest i (by simp at h; omega) (by omega)
        simpa [pairSums, Nat.mul_succ] using h1
    | [a], h => simp at h; omega
    | [], h => simp at h

theorem rowsAbove_length (k : Nat) (l : List Half) (h : l.length = 2 ^ k) : (rowsAbove k l).length + 1 = 2 * 2 ^ k := by
  induction k generalizing l with
  | zero => simp [rowsAbove, h]
  | succ k ih =>
    rw [Nat.pow_succ] at *
    have h2 := ih (pairSums l) (pairSums_length l _ (by omega))
    simp only [rowsAbove, List.length_append]
    omega

/-- The last row of ModelReset's tree is its leaves. -/
theorem rowsAbove_leaf (k : Nat) (l : List Half) (i : Nat) (h : l.length = 2 ^ k) :
    cell (0 :: rowsAbove k l) (2 ^ k + i) = l.getD i 0 := by
  have hp : 0 < 2 ^ k := Nat.two_pow_pos k
  obtain ⟨m, hm⟩ : ∃ m, 2 ^ k = m + 1 := ⟨2 ^ k - 1, by omega⟩
  cases k with
  | zero => simp [cell, rowsAbove, Nat.add_comm]
  | succ k =>
    have hp2 : 2 ^ (k + 1) = 2 * 2 ^ k := by rw [Nat.pow_succ, Nat.mul_comm]
    have hlen := rowsAbove_length k (pairSums l) (pairSums_length l _ (by omega))
    have he : 2 ^ (k + 1) + i = (m + i) + 1 := by omega
    unfold cell
    rw [he, List.getD_cons_succ, rowsAbove, List.getD_append_right _ _ _ _ (by omega)]
    congr 1; omega

/-- ModelReset builds a heap of sums (R185). -/
theorem rowsAbove_heap (k : Nat) (l : List Half) (h : l.length = 2 ^ k) : HeapSum (2 ^ k) (0 :: rowsAbove k l) := by
  induction k generalizing l with
  | zero => intro j h1 h2; simp at h2; omega
  | succ k ih =>
    have hp2 : 2 ^ (k + 1) = 2 * 2 ^ k := by rw [Nat.pow_succ, Nat.mul_comm]
    have hpl := pairSums_length l (2 ^ k) (by omega)
    have hlen := rowsAbove_length k (pairSums l) hpl
    have hup : ∀ j, j < 2 * 2 ^ k → cell (0 :: rowsAbove (k + 1) l) j = cell (0 :: rowsAbove k (pairSums l)) j := by
      intro j hj
      cases j with
      | zero => rfl
      | succ j =>
        unfold cell
        rw [List.getD_cons_succ, List.getD_cons_succ, rowsAbove, List.getD_append _ _ _ _ (by omega)]
    intro j h1 h2
    rw [hup j (by omega)]
    by_cases hj : j < 2 ^ k
    · rw [hup _ (by omega), hup _ (by omega)]
      exact ih _ hpl j h1 hj
    · obtain ⟨i, rfl⟩ : ∃ i, j = 2 ^ k + i := ⟨j - 2 ^ k, by omega⟩
      have e1 : 2 * (2 ^ k + i) = 2 ^ (k + 1) + 2 * i := by omega
      have e2 : 2 * (2 ^ k + i) + 1 = 2 ^ (k + 1) + (2 * i + 1) := by omega
      rw [rowsAbove_leaf k _ i hpl, e2, rowsAbove_leaf (k + 1) l _ h, e1, rowsAbove_leaf (k + 1) l _ h]
      exact pairSums_get l (2 ^ k) i (by omega) (by omega)

theorem resetTree_length (p : Params) : (resetTree p).length = 2 * p.z := by
  have := rowsAbove_length p.depth (leavesFrom p.nsym.toNat p.leafBase p.z 0) (leavesFrom_length _ _ _ _)
  simp only [resetTree, List.length_cons]
  exact this

theorem resetTree_leaf (p : Params) (s : Nat) (h : s < p.z) :
    cell (resetTree p) (p.z + s) = if s < p.nsym.toNat then p.leafBase else 0 := by
  have h1 : cell (resetTree p) (p.z + s) = _ :=
    rowsAbove_leaf p.depth (leavesFrom p.nsym.toNat p.leafBase p.z 0) s (leavesFrom_length _ _ _ _)
  rw [h1, leavesFrom_get _ _ _ _ _ h]; simp

theorem resetTree_heap (p : Params) : HeapSum p.z (resetTree p) :=
  rowsAbove_heap p.depth _ (leavesFrom_length _ _ _ _)

theorem leafSum_add (m : Model) (a b c : Nat) : leafSum m a (b + c) = leafSum m a b + leafSum m (a + b) c := by
  induction c with
  | zero => rfl
  | succ c ih =>
    show leafSum m a (b + c) + m.count (a + (b + c)) = _ + (leafSum m (a + b) c + m.count (a + b + c))
    rw [ih, Nat.add_assoc, Nat.add_assoc a b c]

theorem leafSum_mono (m : Model) (a : Nat) {b c : Nat} (h : b ≤ c) : leafSum m a b ≤ leafSum m a c := by
  obtain ⟨d, rfl⟩ := Nat.exists_eq_add_of_le h
  rw [leafSum_add]; omega

/-- A run of leaves inside another sums to no more. -/
theorem leafSum_inside (m : Model) {a b n k : Nat} (h1 : a ≤ b) (h2 : b + n ≤ a + k) : leafSum m b n ≤ leafSum m a k := by
  have e : k = (b - a) + (n + (a + k - (b + n))) := by omega
  rw [e, leafSum_add, leafSum_add, show a + (b - a) = b by omega]
  omega

theorem count_lt (m : Model) (i : Nat) : m.count i < 65536 := (m.tree.getD i 0).isLt

/-- A node's count is the sum of its leaves' counts, where the leaves' total fits 16 bits (R35). -/
theorem count_of_heap {m : Model} {z : Nat} (h : HeapSum z m.tree) (hfit : leafSum m z z < 65536) (d i : Nat)
    (h1 : z ≤ i * 2 ^ d) (h2 : (i + 1) * 2 ^ d ≤ 2 * z) : m.count i = leafSum m (i * 2 ^ d) (2 ^ d) := by
  induction d generalizing i with
  | zero => simp [leafSum]
  | succ d ih =>
    have hp : 0 < 2 ^ d := Nat.two_pow_pos d
    rw [Nat.pow_succ] at *
    have e1 : i * (2 ^ d * 2) = 2 * i * 2 ^ d := by ring
    have e2 : (i + 1) * (2 ^ d * 2) = 2 * i * 2 ^ d + 2 ^ d + 2 ^ d := by ring
    have e3 : (2 * i + 1) * 2 ^ d = 2 * i * 2 ^ d + 2 ^ d := by ring
    have e4 : (2 * i + 1 + 1) * 2 ^ d = 2 * i * 2 ^ d + 2 ^ d + 2 ^ d := by ring
    rw [e1] at h1 ⊢
    rw [e2] at h2
    have ha := ih (2 * i) h1 (by rw [e3]; omega)
    have hb := ih (2 * i + 1) (by rw [e3]; omega) (by rw [e4]; omega)
    have hiz : i < z := by
      by_contra hc
      have : z * 1 ≤ i * 2 ^ d := Nat.mul_le_mul (by omega) hp
      have e5 : 2 * i * 2 ^ d = i * 2 ^ d + i * 2 ^ d := by ring
      omega
    have hi1 : 1 ≤ i := by
      rcases Nat.eq_zero_or_pos i with h0 | h0
      · subst h0; omega
      · exact h0
    have hs : leafSum m (2 * i * 2 ^ d) (2 ^ d * 2) = m.count (2 * i) + m.count (2 * i + 1) := by
      rw [Nat.mul_two, leafSum_add, ha, hb, e3]
    have hle : leafSum m (2 * i * 2 ^ d) (2 ^ d * 2) ≤ leafSum m z z := leafSum_inside m h1 (by omega)
    have hc := congrArg BitVec.toNat (h i hi1 hiz)
    rw [BitVec.toNat_add] at hc
    have hc2 : m.count i = (m.count (2 * i) + m.count (2 * i + 1)) % 65536 := hc
    rw [hc2, hs, Nat.mod_eq_of_lt (by omega)]

end Sys2Proof.Machine
end

