-- ==== Sys2Proof/Laws/Window.lean ====
section
/-!
SUPPORT. Laws/Window.lean: the weights of the model window (42_model.md R183, R189): how one update moves them, and that
they add up to at most 15360 (R180).
-/

namespace Sys2Proof.Machine

open Finset

/-- 1 where a slot holds the symbol, else 0. -/
def slotIs (m : Model) (h : BitVec 12) (sym : Nat) : Nat := if (m.slot h).toNat = sym then 1 else 0

theorem slotWeight_eq (m : Model) (sym a : Nat) :
    slotWeight m sym a = Config.weight (a / Config.zone) * slotIs m (m.mhead - BitVec.ofNat 12 a) sym := by
  unfold slotWeight slotIs; split <;> simp

theorem recentWeight_sum (m : Model) (sym n : Nat) : recentWeight m sym n = ∑ a ∈ range n, slotWeight m sym a := by
  induction n with
  | zero => rfl
  | succ n ih => rw [sum_range_succ, ← ih]; rfl

theorem leafSum_sum (m : Model) (z n : Nat) : leafSum m z n = ∑ x ∈ range n, m.count (z + x) := by
  induction n with
  | zero => rfl
  | succ n ih => rw [sum_range_succ, ← ih]; rfl

theorem fullWeight : (∑ a ∈ range Config.winSize, Config.weight (a / Config.zone)) = Config.windowTotal := by
  decide +kernel

/-- The window adds at most 15360 to the total (R180). -/
theorem recentWeight_total (m : Model) (n : Nat) :
    (∑ x ∈ range n, recentWeight m x Config.winSize) ≤ Config.windowTotal := by
  simp only [recentWeight_sum]
  rw [sum_comm, ← fullWeight]
  apply sum_le_sum
  intro a _
  have h : ∀ x ∈ range n, slotWeight m x a =
      if (m.slot (m.mhead - BitVec.ofNat 12 a)).toNat = x then Config.weight (a / Config.zone) else 0 := fun x _ => rfl
  rw [sum_congr rfl h, sum_ite_eq]
  split <;> simp

/-- No symbol's weight exceeds the window's total. -/
theorem recentWeight_le (m : Model) (x : Nat) : recentWeight m x Config.winSize ≤ Config.windowTotal :=
  le_trans (single_le_sum (f := fun y => recentWeight m y Config.winSize) (fun _ _ => Nat.zero_le _) (mem_range.mpr (Nat.lt_succ_self x)))
    (recentWeight_total m (x + 1))

/-- The zone weights one step older: only the three zone boundaries and the window's end differ. -/
theorem weight_shift (f : Nat → Nat) (n : Nat) (hn : n < 4096) :
    (∑ a ∈ range n, Config.weight ((a + 1) / Config.zone) * f a) + (if 1023 < n then 2 * f 1023 else 0) +
        (if 2047 < n then f 2047 else 0) + (if 3071 < n then f 3071 else 0) =
      ∑ a ∈ range n, Config.weight (a / Config.zone) * f a := by
  induction n with
  | zero => simp
  | succ n ih =>
    have ih := ih (by omega)
    rw [sum_range_succ, sum_range_succ, ← ih]
    have hz : Config.zone = 1024 := rfl
    rw [hz]
    rcases Nat.lt_trichotomy n 1023 with h | h | h
    · have e1 : (n + 1) / 1024 = 0 := by omega
      have e2 : n / 1024 = 0 := by omega
      rw [e1, e2]
      simp only [show ¬ 1023 < n + 1 by omega, show ¬ 1023 < n by omega, show ¬ 2047 < n + 1 by omega, show ¬ 2047 < n by omega,
        show ¬ 3071 < n + 1 by omega, show ¬ 3071 < n by omega, if_false]
      omega
    · subst h
      simp [Config.weight]; omega
    · rcases Nat.lt_trichotomy n 2047 with h' | h' | h'
      · have e1 : (n + 1) / 1024 = 1 := by omega
        have e2 : n / 1024 = 1 := by omega
        rw [e1, e2]
        simp only [show 1023 < n + 1 by omega, h, show ¬ 2047 < n + 1 by omega, show ¬ 2047 < n by omega,
          show ¬ 3071 < n + 1 by omega, show ¬ 3071 < n by omega, if_false, if_true]
        omega
      · subst h'
        simp [Config.weight]; omega
      · rcases Nat.lt_trichotomy n 3071 with h'' | h'' | h''
        · have e1 : (n + 1) / 1024 = 2 := by omega
          have e2 : n / 1024 = 2 := by omega
          rw [e1, e2]
          simp only [show 1023 < n + 1 by omega, h, show 2047 < n + 1 by omega, h',
            show ¬ 3071 < n + 1 by omega, show ¬ 3071 < n by omega, if_false, if_true]
          omega
        · subst h''
          simp [Config.weight]; omega
        · have e1 : (n + 1) / 1024 = 3 := by omega
          have e2 : n / 1024 = 3 := by omega
          rw [e1, e2]
          simp only [show 1023 < n + 1 by omega, h, show 2047 < n + 1 by omega, h',
            show 3071 < n + 1 by omega, h'', if_true]
          omega

theorem slot_set (m : Model) (h k : BitVec 12) (v : Half) (hl : m.win.length = Config.winSize) :
    Model.slot { m with win := m.win.set h.toNat v } k = if k = h then v else m.slot k := by
  have hh := h.isLt
  unfold Model.slot
  simp only [List.getD_eq_getElem?_getD, List.getElem?_set]
  by_cases hk : h = k
  · subst hk
    have : h.toNat < m.win.length := by rw [hl]; exact hh
    simp [this]
  · rw [if_neg (fun e => hk (BitVec.eq_of_toNat_eq e)), if_neg (Ne.symm hk)]

/-- What one update does to a symbol's weight (R183): the new symbol gains 6, and the symbols that enter zones 1, 2, 3 and
leave the window lose 2, 1, 1 and 2. -/
theorem recentWeight_update {m m' : Model} {sym : Half} (hl : m.win.length = Config.winSize) (x : Nat)
    (hw : m'.win = m.win.set (m.mhead + 1).toNat sym) (hh : m'.mhead = m.mhead + 1) :
    recentWeight m' x Config.winSize + (2 * slotIs m (m.mhead + 1) x + 2 * slotIs m (m.mhead + 1 - BitVec.ofNat 12 1024) x +
        slotIs m (m.mhead + 1 - BitVec.ofNat 12 2048) x + slotIs m (m.mhead + 1 - BitVec.ofNat 12 3072) x) =
      recentWeight m x Config.winSize + 6 * (if sym.toNat = x then 1 else 0) := by
  have hslot : ∀ k, m'.slot k = if k = m.mhead + 1 then sym else m.slot k := by
    intro k
    have := slot_set m (m.mhead + 1) k sym hl
    rw [← this]; unfold Model.slot; rw [hw]
  rw [recentWeight_sum, recentWeight_sum, show Config.winSize = 4095 + 1 from rfl, sum_range_succ' (fun a => slotWeight m' x a) 4095,
    sum_range_succ (fun a => slotWeight m x a) 4095]
  have h0 : slotWeight m' x 0 = 6 * (if sym.toNat = x then 1 else 0) := by
    rw [slotWeight_eq, hh]
    unfold slotIs
    rw [hslot]; simp [Config.weight]
  have hs : ∀ a ∈ range 4095, slotWeight m' x (a + 1) =
      Config.weight ((a + 1) / Config.zone) * slotIs m (m.mhead - BitVec.ofNat 12 a) x := by
    intro a ha
    have ha := mem_range.mp ha
    rw [slotWeight_eq, hh]
    have e : m.mhead + 1 - BitVec.ofNat 12 (a + 1) = m.mhead - BitVec.ofNat 12 a := by
      have hb : BitVec.ofNat 12 (a + 1) = BitVec.ofNat 12 a + 1 := by rw [BitVec.ofNat_add]; rfl
      rw [hb]
      generalize BitVec.ofNat 12 a = b
      generalize m.mhead = c
      bv_omega
    have hne : ¬ m.mhead - BitVec.ofNat 12 a = m.mhead + 1 := by
      intro hc
      have := m.mhead.isLt
      have hc := congrArg BitVec.toNat hc
      simp only [BitVec.toNat_sub, BitVec.toNat_add, BitVec.toNat_ofNat, show BitVec.toNat (1 : BitVec 12) = 1 from rfl] at hc
      omega
    unfold slotIs
    rw [e, hslot, if_neg hne]
  rw [sum_congr rfl hs, h0]
  have hold : ∀ a ∈ range 4095, slotWeight m x a = Config.weight (a / Config.zone) * slotIs m (m.mhead - BitVec.ofNat 12 a) x :=
    fun a _ => slotWeight_eq m x a
  rw [sum_congr rfl hold, ← weight_shift (fun a => slotIs m (m.mhead - BitVec.ofNat 12 a) x) 4095 (by omega), slotWeight_eq]
  have e1 : m.mhead - BitVec.ofNat 12 1023 = m.mhead + 1 - BitVec.ofNat 12 1024 := by generalize m.mhead = c; bv_omega
  have e2 : m.mhead - BitVec.ofNat 12 2047 = m.mhead + 1 - BitVec.ofNat 12 2048 := by generalize m.mhead = c; bv_omega
  have e3 : m.mhead - BitVec.ofNat 12 3071 = m.mhead + 1 - BitVec.ofNat 12 3072 := by generalize m.mhead = c; bv_omega
  have e4 : m.mhead - BitVec.ofNat 12 4095 = m.mhead + 1 := by generalize m.mhead = c; bv_omega
  simp only [e1, e2, e3, e4, show (1023 : Nat) < 4095 by omega, show (2047 : Nat) < 4095 by omega,
    show (3071 : Nat) < 4095 by omega, if_true, show Config.weight (4095 / Config.zone) = 2 from rfl]
  omega

end Sys2Proof.Machine
end

