-- ==== Sys2Proof/Laws/Model.lean ====
section
/-!
SUPPORT. Laws/Model.lean: ModelInv (10_state.md R35, R36; 42_model.md R189) on the 16-bit entries, that ModelReset makes
it and Update keeps it, and the bounds of R180.
-/

namespace Sys2Proof.Machine

open Finset

theorem nsym_le_z (p : Params) : p.nsym.toNat ≤ p.z := by
  unfold Params.z Params.depth
  split
  · simpa using ‹_›
  · have := @Nat.lt_log2_self (p.nsym.toNat - 1)
    omega

theorem z_pos (p : Params) : 0 < p.z := Nat.two_pow_pos _

/-- What admitted parameters give (R6). -/
theorem admitted_iff (p : Params) : p.admitted = true ↔
    p.blockSize = 1 ∧ 2 ≤ p.nsym.toNat ∧ p.nsym.toNat ≤ 4096 ∧ 1 ≤ p.leafBase.toNat ∧ p.leafBase.toNat ≤ 64 ∧
      p.nsym.toNat * p.leafBase.toNat + 15360 ≤ 0x8000 := by
  simp only [Params.admitted, Params.blockSizeAdmitted, Params.modelAdmitted, Bool.and_eq_true, decide_eq_true_eq, beq_iff_eq]
  rfl

theorem z_le {p : Params} (h : p.admitted = true) : p.z ≤ 4096 := by
  have h := (admitted_iff p).mp h
  unfold Params.z Params.depth
  split
  · norm_num
  · have h1 : Nat.log2 (p.nsym.toNat - 1) < 12 := (Nat.log2_lt (by omega)).mpr (by omega)
    calc 2 ^ (Nat.log2 (p.nsym.toNat - 1) + 1) ≤ 2 ^ 12 := Nat.pow_le_pow_right (by norm_num) (by omega)
      _ = 4096 := by norm_num

/-- The lengths of the two register files (R35, R36): what every command keeps of them in every state. -/
structure ModelShape (p : Params) (m : Model) : Prop where
  treeLength : m.tree.length = 2 * p.z
  winLength : m.win.length = Config.winSize

/-- ModelInv on the 16-bit entries. -/
structure ModelCells (p : Params) (m : Model) : Prop extends ModelShape p m where
  unused : cell m.tree 0 = 0
  heap : HeapSum p.z m.tree
  padding : ∀ x, p.nsym.toNat ≤ x → x < p.z → cell m.tree (p.z + x) = 0
  leaf : ∀ x, x < p.nsym.toNat → cell m.tree (p.z + x) = p.leafBase + BitVec.ofNat 16 (recentWeight m x Config.winSize)
  slotLegal : ∀ h, m.slot h = Config.emptySlot ∨ (m.slot h).toNat < p.nsym.toNat

theorem ModelCells.leafCount {p : Params} {m : Model} (hp : p.admitted = true) (h : ModelCells p m) {x : Nat}
    (hx : x < p.nsym.toNat) : m.count (p.z + x) = p.leafBase.toNat + recentWeight m x Config.winSize := by
  have hb := (admitted_iff p).mp hp
  have hw : recentWeight m x Config.winSize ≤ 15360 := recentWeight_le m x
  have hc := congrArg BitVec.toNat (h.leaf x hx)
  rw [BitVec.toNat_add, BitVec.toNat_ofNat] at hc
  show (cell m.tree (p.z + x)).toNat = _
  rw [hc]; omega

/-- The total of the leaves (R180). -/
theorem leaves_total {p : Params} {m : Model} {c : Nat}
    (hleaf : ∀ x, x < p.nsym.toNat → m.count (p.z + x) = c + recentWeight m x Config.winSize)
    (hpad : ∀ x, p.nsym.toNat ≤ x → x < p.z → m.count (p.z + x) = 0) :
    leafSum m p.z p.z = p.nsym.toNat * c + ∑ x ∈ range p.nsym.toNat, recentWeight m x Config.winSize := by
  obtain ⟨k, hk⟩ := Nat.exists_eq_add_of_le (nsym_le_z p)
  have h1 : leafSum m p.z p.z = leafSum m p.z (p.nsym.toNat + k) := by rw [← hk]
  rw [h1, leafSum_add, leafSum_sum, leafSum_sum]
  have hz : (∑ x ∈ range k, m.count (p.z + p.nsym.toNat + x)) = 0 :=
    sum_eq_zero fun x hx => by
      have := mem_range.mp hx
      rw [Nat.add_assoc]; exact hpad _ (by omega) (by omega)
  rw [hz, sum_congr rfl fun x hx => hleaf x (mem_range.mp hx), sum_add_distrib]
  simp

theorem ModelCells.total_fit {p : Params} {m : Model} (hp : p.admitted = true) (h : ModelCells p m) :
    leafSum m p.z p.z ≤ 0x8000 := by
  have hb := (admitted_iff p).mp hp
  have hw : (∑ x ∈ range p.nsym.toNat, recentWeight m x Config.winSize) ≤ 15360 := recentWeight_total m _
  rw [leaves_total (fun x hx => h.leafCount hp hx) (fun x h1 h2 => congrArg BitVec.toNat (h.padding x h1 h2))]
  omega

/-- Below the root, every node's count is the sum of its children's as numbers (R35). -/
theorem innerSum_of_heap {m : Model} {k : Nat} (h : HeapSum (2 ^ k) m.tree) (hfit : leafSum m (2 ^ k) (2 ^ k) < 65536) (i : Nat)
    (h1 : 1 ≤ i) (h2 : i < 2 ^ k) : m.count i = m.count (2 * i) + m.count (2 * i + 1) := by
  have hlog : 2 ^ Nat.log2 i ≤ i := Nat.log2_self_le (by omega)
  have hlog2 : i < 2 ^ (Nat.log2 i + 1) := Nat.lt_log2_self
  have hlt : Nat.log2 i < k := (Nat.log2_lt (by omega)).mpr h2
  obtain ⟨d, hd⟩ : ∃ d, k = Nat.log2 i + (d + 1) := ⟨k - Nat.log2 i - 1, by omega⟩
  have hz : 2 ^ k = 2 ^ Nat.log2 i * 2 ^ (d + 1) := by rw [hd, Nat.pow_add]
  have hz2 : 2 * 2 ^ k = 2 ^ (Nat.log2 i + 1) * 2 ^ (d + 1) := by rw [hz, Nat.pow_succ]; ring
  have a1 : 2 ^ k ≤ i * 2 ^ (d + 1) := by rw [hz]; exact Nat.mul_le_mul_right _ hlog
  have a2 : (i + 1) * 2 ^ (d + 1) ≤ 2 * 2 ^ k := by rw [hz2]; exact Nat.mul_le_mul_right _ hlog2
  have hp : 0 < 2 ^ d := Nat.two_pow_pos d
  have e1 : i * 2 ^ (d + 1) = 2 * i * 2 ^ d := by rw [Nat.pow_succ]; ring
  have e2 : (i + 1) * 2 ^ (d + 1) = 2 * i * 2 ^ d + 2 ^ d + 2 ^ d := by rw [Nat.pow_succ]; ring
  have e3 : (2 * i + 1) * 2 ^ d = 2 * i * 2 ^ d + 2 ^ d := by ring
  have e4 : (2 * i + 1 + 1) * 2 ^ d = 2 * i * 2 ^ d + 2 ^ d + 2 ^ d := by ring
  rw [count_of_heap h hfit (d + 1) i a1 a2, count_of_heap h hfit d (2 * i) (by omega) (by rw [e3]; omega),
    count_of_heap h hfit d (2 * i + 1) (by omega) (by omega), e1, Nat.pow_succ, Nat.mul_two, leafSum_add, e3]

theorem modelInv_iff {p : Params} (hp : p.admitted = true) {m : Model} : ModelInv p m ↔ ModelCells p m := by
  constructor
  · intro h
    refine ⟨⟨h.treeLength, h.winLength⟩, BitVec.eq_of_toNat_eq h.unusedZero, fun j h1 h2 => ?_, fun x h1 h2 =>
      BitVec.eq_of_toNat_eq (h.padding x h1 h2), fun x hx => ?_, h.slotLegal⟩
    · apply BitVec.eq_of_toNat_eq
      have := h.innerSum j h1 h2
      have hlt := count_lt m j
      rw [BitVec.toNat_add]
      show m.count j = (m.count (2 * j) + m.count (2 * j + 1)) % 65536
      rw [← this, Nat.mod_eq_of_lt hlt]
    · apply BitVec.eq_of_toNat_eq
      have := h.leafCount x hx
      have hlt := count_lt m (p.z + x)
      rw [BitVec.toNat_add, BitVec.toNat_ofNat, Nat.add_mod_mod]
      show m.count (p.z + x) = (p.leafBase.toNat + recentWeight m x Config.winSize) % 65536
      rw [← this, Nat.mod_eq_of_lt hlt]
  · intro h
    have hfit := h.total_fit hp
    exact ⟨h.treeLength, h.winLength, congrArg BitVec.toNat h.unused,
      fun i h1 h2 => innerSum_of_heap (k := p.depth) h.heap (Nat.lt_of_le_of_lt hfit (by norm_num)) i h1 h2,
      fun x h1 h2 => congrArg BitVec.toNat (h.padding x h1 h2), fun x hx => h.leafCount hp hx, h.slotLegal⟩

/-- The root is the sum of all leaves (R35). -/
theorem ModelInv.total_leaves {p : Params} {m : Model} (hp : p.admitted = true) (h : ModelInv p m) :
    m.total = leafSum m p.z p.z := by
  have hc := (modelInv_iff hp).mp h
  have hfit := hc.total_fit hp
  have := count_of_heap (z := p.z) hc.heap (by omega) p.depth 1 (by show p.z ≤ 1 * p.z; omega) (by show (1 + 1) * p.z ≤ _; omega)
  rw [Nat.one_mul] at this
  exact this

/-- The total is the symbols' initial counts plus the window (R180, R189). -/
theorem ModelInv.total_sum {p : Params} {m : Model} (hp : p.admitted = true) (h : ModelInv p m) :
    m.total = p.nsym.toNat * p.leafBase.toNat + ∑ x ∈ range p.nsym.toNat, recentWeight m x Config.winSize := by
  rw [h.total_leaves hp]; exact leaves_total h.leafCount h.padding

theorem ModelInv.total_pos {p : Params} {m : Model} (hp : p.admitted = true) (h : ModelInv p m) : 0 < m.total := by
  have hb := (admitted_iff p).mp hp
  have : 2 * 1 ≤ p.nsym.toNat * p.leafBase.toNat := Nat.mul_le_mul hb.2.1 hb.2.2.2.1
  rw [h.total_sum hp]; omega

theorem ModelInv.total_most {p : Params} {m : Model} (hp : p.admitted = true) (h : ModelInv p m) : m.total ≤ 0x8000 := by
  rw [h.total_leaves hp]; exact ((modelInv_iff hp).mp h).total_fit hp

/-- ModelReset's register files (R185). -/
theorem Model.reset_shape (p : Params) : ModelShape p (Model.reset p) :=
  ⟨resetTree_length p, List.length_replicate⟩

theorem Model.reset_slot (p : Params) (h : BitVec 12) : (Model.reset p).slot h = Config.emptySlot := by
  have : h.toNat < Config.winSize := h.isLt
  simp only [Model.slot, Model.reset, resetWin, List.getD_eq_getElem?_getD]
  rw [List.getElem?_replicate_of_lt this]; rfl

theorem emptySlot_toNat : Config.emptySlot.toNat = 65535 := rfl

theorem Model.reset_weight {p : Params} {x : Nat} (hx : x < 65535) (n : Nat) : recentWeight (Model.reset p) x n = 0 := by
  induction n with
  | zero => rfl
  | succ n ih =>
    rw [recentWeight, ih, slotWeight, Model.reset_slot, emptySlot_toNat, if_neg (by omega)]

theorem Model.reset_cells (p : Params) (hp : p.admitted = true) : ModelCells p (Model.reset p) where
  toModelShape := Model.reset_shape p
  unused := rfl
  heap := resetTree_heap p
  padding x h1 h2 := by
    show cell (resetTree p) _ = _
    rw [resetTree_leaf p x h2, if_neg (by omega)]
  leaf x hx := by
    have hb := (admitted_iff p).mp hp
    have := nsym_le_z p
    show cell (resetTree p) _ = _
    rw [resetTree_leaf p x (by omega), if_pos hx, Model.reset_weight (by omega)]
    exact (half_add_zero _).symm
  slotLegal h := .inl (Model.reset_slot p h)

/-- What Add for one window slot changes (R183), for an empty slot or a symbol below NSYM. -/
theorem addSlot_spec {p : Params} {u d : Half} {m : Model} (hz : p.z ≤ 4096) (hl : m.tree.length = 2 * p.z)
    (hh : HeapSum p.z m.tree) (h0 : cell m.tree 0 = 0) (hu : u = Config.emptySlot ∨ u.toNat < p.nsym.toNat) :
    (addSlot p.z u d m).tree.length = 2 * p.z ∧ HeapSum p.z (addSlot p.z u d m).tree ∧ cell (addSlot p.z u d m).tree 0 = 0 ∧
      ∀ x, x < p.z → cell (addSlot p.z u d m).tree (p.z + x) = cell m.tree (p.z + x) + if u.toNat = x then d else 0 := by
  have hnz := nsym_le_z p
  have hzp := z_pos p
  unfold addSlot
  split
  · next he =>
    refine ⟨hl, hh, h0, fun x hx => ?_⟩
    rw [he, emptySlot_toNat, if_neg (by omega), half_add_zero]
  · next he =>
    have hlt : u.toNat < p.z := by rcases hu with h | h <;> [exact absurd h he; omega]
    have hpow : p.z + u.toNat < 2 ^ (Nat.log2 (p.z + u.toNat) + 1) := Nat.lt_log2_self
    have hpow2 : 2 ^ Nat.log2 (p.z + u.toNat) ≤ p.z + u.toNat := Nat.log2_self_le (by omega)
    refine ⟨by simp only [addCount, addPath_length, hl], ?_, ?_, fun x hx => ?_⟩
    · refine addPath_heap hl (by omega) hpow fun j h1 h2 => ?_
      rw [if_neg (by omega), half_add_zero]; exact (hh j h1 h2).symm
    · rw [addCount, addPath_zero (by rw [Nat.pow_succ]; omega) (by omega)]; exact h0
    · rw [addCount, addPath_leaf (z := p.z) (by omega) (by omega) (by omega) hl]
      congr 1
      by_cases hx : u.toNat = x <;> simp [hx]; omega

theorem addSlot_win (z : Nat) (u d : Half) (m : Model) : (addSlot z u d m).win = m.win ∧ (addSlot z u d m).mhead = m.mhead := by
  unfold addSlot; split <;> exact ⟨rfl, rfl⟩

theorem addSlot_slot (z : Nat) (u d : Half) (m : Model) (h : BitVec 12) : (addSlot z u d m).slot h = m.slot h := by
  unfold Model.slot; rw [(addSlot_win z u d m).1]

theorem addSlot_treeLength (z : Nat) (u d : Half) (m : Model) : (addSlot z u d m).tree.length = m.tree.length := by
  unfold addSlot; split
  · rfl
  · simp only [addCount, addPath_length]

theorem ageWindow_win (z : Nat) (h : BitVec 12) (m : Model) : (ageWindow z h m).win = m.win ∧ (ageWindow z h m).mhead = m.mhead := by
  simp only [ageWindow, (addSlot_win _ _ _ _).1, (addSlot_win _ _ _ _).2, and_self]

theorem ageWindow_treeLength (z : Nat) (h : BitVec 12) (m : Model) : (ageWindow z h m).tree.length = m.tree.length := by
  simp only [ageWindow, addSlot_treeLength]

/-- Update keeps the register files' lengths, in every state (R65). -/
theorem Model.record_shape {p : Params} {m : Model} (z : Nat) (sym : Half) (h : ModelShape p m) :
    ModelShape p (m.record z sym) := by
  refine ⟨?_, ?_⟩
  · simp only [Model.record, addCount, addPath_length, ageWindow_treeLength]; exact h.treeLength
  · simp only [Model.record, addCount, (ageWindow_win _ _ _).1, List.length_set]; exact h.winLength

theorem Model.record_win (z : Nat) (sym : Half) (m : Model) :
    (m.record z sym).win = m.win.set (m.mhead + 1).toNat sym ∧ (m.record z sym).mhead = m.mhead + 1 := by
  simp only [Model.record, addCount, (ageWindow_win _ _ _).1, and_self]

theorem zoneChange_values : zoneChange 4 = -2 ∧ zoneChange 1 = -2 ∧ zoneChange 2 = -1 ∧ zoneChange 3 = -1 := by decide

/-- What Update does to the tree (R183): the heap law holds after it, and leaf `x` changes by the four departures and the
arrival. -/
theorem Model.record_tree {p : Params} {m : Model} {sym : Half} (hz : p.z ≤ 4096) (h : ModelCells p m)
    (hs : sym.toNat < p.nsym.toNat) :
    (m.record p.z sym).tree.length = 2 * p.z ∧ HeapSum p.z (m.record p.z sym).tree ∧ cell (m.record p.z sym).tree 0 = 0 ∧
      ∀ x, x < p.z → cell (m.record p.z sym).tree (p.z + x) =
        cell m.tree (p.z + x) + (if (m.slot (m.mhead + 1)).toNat = x then -2 else 0) +
          (if (m.slot (m.mhead + 1 - BitVec.ofNat 12 1024)).toNat = x then -2 else 0) +
          (if (m.slot (m.mhead + 1 - BitVec.ofNat 12 2048)).toNat = x then -1 else 0) +
          (if (m.slot (m.mhead + 1 - BitVec.ofNat 12 3072)).toNat = x then -1 else 0) + (if sym.toNat = x then 6 else 0) := by
  obtain ⟨v4, v1, v2, v3⟩ := zoneChange_values
  have hslot := h.slotLegal
  obtain ⟨a1, a2, a3, a4⟩ := addSlot_spec (d := zoneChange 4) hz h.treeLength h.heap h.unused (hslot (m.mhead + 1))
  generalize hm1 : addSlot p.z (m.slot (m.mhead + 1)) (zoneChange 4) m = m1 at a1 a2 a3 a4
  have s1 : ∀ k, m1.slot k = m.slot k := fun k => by rw [← hm1]; exact addSlot_slot _ _ _ _ k
  obtain ⟨b1, b2, b3, b4⟩ := addSlot_spec (u := m1.zoneSlot (m.mhead + 1) 1) (d := zoneChange 1) hz a1 a2 a3
    (by unfold Model.zoneSlot; rw [s1]; exact hslot _)
  generalize hm2 : addSlot p.z (m1.zoneSlot (m.mhead + 1) 1) (zoneChange 1) m1 = m2 at b1 b2 b3 b4
  have s2 : ∀ k, m2.slot k = m.slot k := fun k => by rw [← hm2, addSlot_slot, s1]
  obtain ⟨c1, c2, c3, c4⟩ := addSlot_spec (u := m2.zoneSlot (m.mhead + 1) 2) (d := zoneChange 2) hz b1 b2 b3
    (by unfold Model.zoneSlot; rw [s2]; exact hslot _)
  generalize hm3 : addSlot p.z (m2.zoneSlot (m.mhead + 1) 2) (zoneChange 2) m2 = m3 at c1 c2 c3 c4
  have s3 : ∀ k, m3.slot k = m.slot k := fun k => by rw [← hm3, addSlot_slot, s2]
  obtain ⟨d1, d2, d3, d4⟩ := addSlot_spec (u := m3.zoneSlot (m.mhead + 1) 3) (d := zoneChange 3) hz c1 c2 c3
    (by unfold Model.zoneSlot; rw [s3]; exact hslot _)
  generalize hm4 : addSlot p.z (m3.zoneSlot (m.mhead + 1) 3) (zoneChange 3) m3 = m4 at d1 d2 d3 d4
  have hne : sym ≠ Config.emptySlot := by
    have := nsym_le_z p
    intro e; rw [e, emptySlot_toNat] at hs; omega
  obtain ⟨e1, e2, e3, e4⟩ := addSlot_spec (u := sym) (d := BitVec.ofNat 16 (Config.weight 0))
    (m := { m4 with win := m4.win.set (m.mhead + 1).toNat sym }) hz d1 d2 d3 (.inr hs)
  have hrec : (m.record p.z sym).tree =
      (addSlot p.z sym (BitVec.ofNat 16 (Config.weight 0)) { m4 with win := m4.win.set (m.mhead + 1).toNat sym }).tree := by
    simp only [Model.record, ageWindow, hm1, hm2, hm3, hm4]
    rw [addSlot, if_neg hne]
  rw [hrec]
  refine ⟨e1, e2, e3, fun x hx => ?_⟩
  rw [e4 x hx]
  show cell m4.tree _ + _ = _
  rw [d4 x hx, c4 x hx, b4 x hx, a4 x hx]
  simp only [Model.zoneSlot, s1, s2, s3, v4, v1, v2, v3]
  rfl

theorem ite_half (c : Prop) [Decidable c] (k : Half) :
    (if c then k else 0) = k * BitVec.ofNat 16 (if c then 1 else 0) := by
  split
  · exact (BitVec.mul_one k).symm
  · exact (BitVec.mul_zero).symm

/-- Update keeps the count formula (R183, R189). -/
theorem Model.record_cells {p : Params} (hp : p.admitted = true) {m : Model} {sym : Half} (h : ModelCells p m)
    (hs : sym.toNat < p.nsym.toNat) : ModelCells p (m.record p.z sym) := by
  have hz := z_le hp
  have hnz := nsym_le_z p
  obtain ⟨t1, t2, t3, t4⟩ := Model.record_tree hz h hs
  obtain ⟨w1, w2⟩ := Model.record_win p.z sym m
  have hleg := h.slotLegal
  have hpadSlot : ∀ k x, p.nsym.toNat ≤ x → x < p.z → ¬ (m.slot k).toNat = x := by
    intro k x h1 h2 e
    rcases hleg k with h' | h'
    · rw [h', emptySlot_toNat] at e; omega
    · omega
  refine ⟨⟨t1, (Model.record_shape p.z sym h.toModelShape).winLength⟩, t3, t2, fun x h1 h2 => ?_, fun x hx => ?_, fun k => ?_⟩
  · rw [t4 x h2, h.padding x h1 h2, if_neg (hpadSlot _ x h1 h2), if_neg (hpadSlot _ x h1 h2), if_neg (hpadSlot _ x h1 h2),
      if_neg (hpadSlot _ x h1 h2), if_neg (by omega)]
    rfl
  · have hrw := recentWeight_update (m := m) (m' := m.record p.z sym) (sym := sym) h.winLength x w1 w2
    rw [t4 x (by omega), h.leaf x hx]
    have hrw := congrArg (BitVec.ofNat 16) hrw
    simp only [BitVec.ofNat_add, BitVec.ofNat_mul, slotIs, show BitVec.ofNat 16 2 = (2 : Half) from rfl,
      show BitVec.ofNat 16 6 = (6 : Half) from rfl] at hrw
    simp only [ite_half]
    generalize BitVec.ofNat 16 (recentWeight (m.record p.z sym) x Config.winSize) = r' at *
    generalize BitVec.ofNat 16 (recentWeight m x Config.winSize) = r at *
    linear_combination -hrw
  · have := slot_set m (m.mhead + 1) k sym h.winLength
    have e : (m.record p.z sym).slot k = if k = m.mhead + 1 then sym else m.slot k := by
      rw [← this]; unfold Model.slot; rw [w1]
    rw [e]
    split
    · exact .inr hs
    · exact hleg k

end Sys2Proof.Machine
end

