-- ==== Sys2Proof/Laws/Descent.lean ====
section
/-!
SUPPORT. Laws/Descent.lean: what SymRange and GetSymbol compute on a tree of sums (42_model.md R181, R182).
-/

namespace Sys2Proof.Machine

/-- Every node holds the sum of its leaves (R35). -/
def NodeSums (m : Model) (z : Nat) : Prop :=
  ∀ d i, z ≤ i * 2 ^ d → (i + 1) * 2 ^ d ≤ 2 * z → m.count i = leafSum m (i * 2 ^ d) (2 ^ d)

theorem ModelInv.nodeSums {p : Params} {m : Model} (hp : p.admitted = true) (h : ModelInv p m) : NodeSums m p.z := by
  have hc := (modelInv_iff hp).mp h
  exact fun d i h1 h2 => count_of_heap hc.heap (Nat.lt_of_le_of_lt (hc.total_fit hp) (by norm_num)) d i h1 h2

/-- SymRange's descent ends at the symbol's leaf with the sum of the leaves before it. -/
theorem symDescend_spec {m : Model} {z : Nat} (h : NodeSums m z) (sym d node lo : Nat) (h1 : z ≤ node * 2 ^ d)
    (h2 : (node + 1) * 2 ^ d ≤ 2 * z) :
    symDescend m sym d node lo = (node * 2 ^ d + sym % 2 ^ d, lo + leafSum m (node * 2 ^ d) (sym % 2 ^ d)) := by
  induction d generalizing node lo with
  | zero => simp [symDescend, leafSum, Nat.mod_one]
  | succ d ih =>
    have hp : 0 < 2 ^ d := Nat.two_pow_pos d
    have e1 : node * 2 ^ (d + 1) = 2 * node * 2 ^ d := by rw [Nat.pow_succ]; ring
    have e2 : (node + 1) * 2 ^ (d + 1) = 2 * node * 2 ^ d + 2 ^ d + 2 ^ d := by rw [Nat.pow_succ]; ring
    have e3 : (2 * node + 1) * 2 ^ d = 2 * node * 2 ^ d + 2 ^ d := by ring
    have e4 : (2 * node + 1 + 1) * 2 ^ d = 2 * node * 2 ^ d + 2 ^ d + 2 ^ d := by ring
    rw [e1] at h1
    rw [e2] at h2
    have hmod : sym % 2 ^ (d + 1) = sym % 2 ^ d + 2 ^ d * (sym / 2 ^ d % 2) := Nat.mod_pow_succ
    unfold symDescend
    rw [Nat.testBit_eq_decide_div_mod_eq]
    by_cases hb : sym / 2 ^ d % 2 = 1
    · rw [if_pos (by simp [hb]), ih (2 * node + 1) _ (by rw [e3]; omega) (by rw [e4]; omega), hmod, hb, e1, e3,
        Nat.mul_one, Nat.add_comm (sym % 2 ^ d), leafSum_add, ← h d (2 * node) (by omega) (by rw [e3]; omega)]
      ext <;> simp only <;> omega
    · have hb0 : sym / 2 ^ d % 2 = 0 := by omega
      rw [if_neg (by simp [hb0]), ih (2 * node) _ (by omega) (by rw [e3]; omega), hmod, hb0, e1, Nat.mul_zero, Nat.add_zero]

/-- GetSymbol's descent ends at the leaf whose range holds the point. -/
theorem getDescend_spec {m : Model} {z : Nat} (h : NodeSums m z) (p d node base : Nat) (h1 : z ≤ node * 2 ^ d)
    (h2 : (node + 1) * 2 ^ d ≤ 2 * z) (hb : base ≤ p) (hp : p - base < m.count node) :
    ∃ k, k < 2 ^ d ∧ getDescend m p d node base = (node * 2 ^ d + k, base + leafSum m (node * 2 ^ d) k) ∧
      base + leafSum m (node * 2 ^ d) k ≤ p ∧ p < base + leafSum m (node * 2 ^ d) k + m.count (node * 2 ^ d + k) := by
  induction d generalizing node base with
  | zero => exact ⟨0, by simp, by simp [getDescend, leafSum], by simpa [leafSum] using hb, by simp [leafSum]; omega⟩
  | succ d ih =>
    have hpos : 0 < 2 ^ d := Nat.two_pow_pos d
    have e1 : node * 2 ^ (d + 1) = 2 * node * 2 ^ d := by rw [Nat.pow_succ]; ring
    have e2 : (node + 1) * 2 ^ (d + 1) = 2 * node * 2 ^ d + 2 ^ d + 2 ^ d := by rw [Nat.pow_succ]; ring
    have e3 : (2 * node + 1) * 2 ^ d = 2 * node * 2 ^ d + 2 ^ d := by ring
    have e4 : (2 * node + 1 + 1) * 2 ^ d = 2 * node * 2 ^ d + 2 ^ d + 2 ^ d := by ring
    have hnode := h (d + 1) node h1 h2
    rw [e1] at h1 hnode
    rw [e2] at h2
    rw [Nat.pow_succ, Nat.mul_two, leafSum_add, ← e3, ← h d (2 * node) (by omega) (by rw [e3]; omega),
      ← h d (2 * node + 1) (by rw [e3]; omega) (by rw [e4]; omega)] at hnode
    rw [e1]
    unfold getDescend
    by_cases hc : p - base < m.count (2 * node)
    · rw [if_pos hc]
      obtain ⟨k, hk, k1, k2, k3⟩ := ih (2 * node) base (by omega) (by rw [e3]; omega) hb hc
      exact ⟨k, by rw [Nat.pow_succ]; omega, k1, k2, k3⟩
    · rw [if_neg hc]
      obtain ⟨k, hk, k1, k2, k3⟩ := ih (2 * node + 1) (base + m.count (2 * node)) (by rw [e3]; omega) (by rw [e4]; omega)
        (by omega) (by omega)
      rw [e3] at k1 k2 k3
      have hs : leafSum m (2 * node * 2 ^ d) (2 ^ d + k) = m.count (2 * node) + leafSum m (2 * node * 2 ^ d + 2 ^ d) k := by
        rw [leafSum_add, ← h d (2 * node) (by omega) (by rw [e3]; omega)]
      refine ⟨2 ^ d + k, by rw [Nat.pow_succ]; omega, ?_, by rw [hs]; omega, by rw [hs, ← Nat.add_assoc (2 * node * 2 ^ d)]; omega⟩
      rw [k1, hs]
      ext <;> simp only <;> omega

/-- SymRange's result: the leaves before the symbol, and the symbol's leaf on top (R181). -/
theorem rangeOf_leaves {p : Params} {m : Model} (hp : p.admitted = true) (h : ModelInv p m) {sym : Nat} (hs : sym < p.z) :
    m.rangeOf p.depth sym = (leafSum m p.z sym, leafSum m p.z (sym + 1)) := by
  have hm : sym % 2 ^ p.depth = sym := Nat.mod_eq_of_lt hs
  have := symDescend_spec (h.nodeSums hp) sym p.depth 1 0 (by show p.z ≤ 1 * p.z; omega)
    (by show (1 + 1) * p.z ≤ _; omega)
  rw [Nat.one_mul, hm, Nat.zero_add] at this
  unfold Model.rangeOf
  rw [this]
  rfl

/-- Every symbol has a non-empty range below the total (R180). -/
theorem rangeOf_valid {p : Params} {m : Model} (hp : p.admitted = true) (h : ModelInv p m) {sym : Nat}
    (hs : sym < p.nsym.toNat) :
    (m.rangeOf p.depth sym).1 < (m.rangeOf p.depth sym).2 ∧ (m.rangeOf p.depth sym).2 ≤ m.total ∧
      (m.rangeOf p.depth sym).2 - (m.rangeOf p.depth sym).1 = m.count (p.z + sym) := by
  have hz := nsym_le_z p
  have ha := (admitted_iff p).mp hp
  have hl := h.leafCount sym hs
  have hm : leafSum m p.z (sym + 1) ≤ leafSum m p.z p.z := leafSum_mono m p.z (by omega)
  rw [rangeOf_leaves hp h (by omega), h.total_leaves hp]
  simp only [leafSum] at *
  omega

/-- GetSymbol's result is the symbol whose SymRange holds the point (R182). -/
theorem symbolAt_spec {p : Params} {m : Model} (hp : p.admitted = true) (h : ModelInv p m) {q : Nat} (hq : q < m.total) :
    ∃ sym, sym < p.nsym.toNat ∧ m.symbolAt p.depth q = (sym, m.rangeOf p.depth sym) ∧
      (m.rangeOf p.depth sym).1 ≤ q ∧ q < (m.rangeOf p.depth sym).2 := by
  obtain ⟨k, hk, k1, k2, k3⟩ := getDescend_spec (h.nodeSums hp) q p.depth 1 0 (by show p.z ≤ 1 * p.z; omega)
    (by show (1 + 1) * p.z ≤ _; omega) (Nat.zero_le _) (by rw [Nat.sub_zero]; exact hq)
  rw [Nat.one_mul, Nat.zero_add] at k1 k2 k3
  have hkz : k < p.z := hk
  have hr := rangeOf_leaves hp h hkz
  have hleaf : leafSum m p.z (k + 1) = leafSum m p.z k + m.count (p.z + k) := rfl
  refine ⟨k, ?_, ?_, ?_, ?_⟩
  · by_contra hc
    have : m.count (p.z + k) = 0 := h.padding k (by omega) hkz
    have e : 2 ^ p.depth = p.z := rfl
    rw [e, this] at k3
    rw [e] at k2
    omega
  · unfold Model.symbolAt
    rw [k1, hr]
    show (p.z + k - p.z, _, _) = _
    rw [Nat.add_sub_cancel_left]
    rfl
  · rw [hr]; exact k2
  · rw [hr]; exact k3

end Sys2Proof.Machine
end

