-- ==== Sys2Proof/Laws/Symbol.lean ====
section
/-!
SUPPORT. Laws/Symbol.lean: what the shared body of one symbol does to the interval engine up to Cap (41_coder.md R142 to
R145), in either direction, and what Renorm does to it in the encoder (R146 to R148).
-/

namespace Sys2Proof.Machine

theorem two_pow_le_of_level {L n : Nat} (h : L ≤ n) : 2 ^ L ≤ 2 ^ n := Nat.pow_le_pow_right (by omega) h

theorem reserveIf_low (c : Bool) (e : Engine) : (e.reserveIf c).low = e.low := by cases c <;> simp [Engine.reserveIf]
theorem reserveIf_range (c : Bool) (e : Engine) : (e.reserveIf c).range = e.range := by cases c <;> simp [Engine.reserveIf]
theorem reserveIf_feven (c : Bool) (e : Engine) : (e.reserveIf c).feven = e.feven := by cases c <;> simp [Engine.reserveIf]
theorem reserveIf_ibits (c : Bool) (e : Engine) : (e.reserveIf c).ibits = e.ibits := by cases c <;> simp [Engine.reserveIf]

/-- The bounds every engine that meets R27 has (R150). -/
theorem EngineMid.bounds {e : Engine} (h : EngineMid e) :
    e.low.toNat + e.range.toNat ≤ 2 ^ 24 ∧ e.nfe.toNat < 2 ^ 24 ∧ 0 < e.range.toNat ∧
      ∃ L, L ≤ 23 ∧ L ≤ e.ibits.toNat ∧ Placed L e := by
  obtain ⟨L, hL, hp⟩ := h.placed
  have h1 := h.topBound
  have h2 := h.freeEndBelow
  have h3 := h.freeEndAbove
  have h4 : 2 ^ (e.ibits.toNat + 1) ≤ 2 ^ 24 := two_pow_le_of_level (by have := h.ibitsMost; omega)
  exact ⟨by omega, by omega, by omega, L, by have := h.ibitsMost; omega, hL, hp⟩

/-- Reserve keeps the free end on its grid and moves it up by at most two steps (R142). -/
theorem reserveIf_placed {c : Bool} {e : Engine} {L : Nat} (h : EngineMid e) (hL : L ≤ 23) (hp : Placed L e) :
    Placed L (e.reserveIf c) := by
  cases c
  · exact hp
  · have hb := h.bounds
    have : 2 ^ (L + 1) ≤ 2 ^ 24 := two_pow_le_of_level (by omega)
    exact (reserve_spec hp (by omega)).1

/-- The engine between re-seat and Cap (R145): everything of R27 but the free end's upper bound. -/
structure PreCap (L : Nat) (e0 e : Engine) : Prop where
  placed : Placed L e
  ibits : e.ibits = e0.ibits
  freeEndAbove : e.low.toNat ≤ e.nfe.toNat
  rangePos : 0 < e.range.toNat
  shrinks : e.low.toNat + e.range.toNat ≤ e0.low.toNat + e0.range.toNat
  rangeLess : e.range.toNat ≤ e0.range.toNat

theorem narrowTo_low {e : Engine} {a b : Nat} (h : e.low.toNat + a < 2 ^ 32) :
    (e.narrowTo a b).low.toNat = e.low.toNat + a := toWord_toNat h

theorem narrowTo_range {e : Engine} {a b : Nat} (h : b - a < 2 ^ 32) : (e.narrowTo a b).range.toNat = b - a :=
  toWord_toNat h

theorem narrowedEngine_low (lo hi p : Nat) (c : Bool) (e : Engine) :
    (narrowedEngine lo hi p c e).low = ((e.reserveIf c).narrowTo (e.scale lo p) (e.scale hi p)).low := by
  simp [narrowedEngine]

theorem narrowedEngine_range (lo hi p : Nat) (c : Bool) (e : Engine) :
    (narrowedEngine lo hi p c e).range = ((e.reserveIf c).narrowTo (e.scale lo p) (e.scale hi p)).range := by
  simp [narrowedEngine]

/-- Narrow's bounds on the engine's own width (R143). -/
theorem Engine.scale_bounds {e : Engine} {lo hi p : Nat} (hlt : lo < hi) (hle : hi ≤ p) (hpr : p ≤ e.range.toNat) :
    e.scale lo p < e.scale hi p ∧ e.scale hi p ≤ e.range.toNat :=
  Sys2Proof.Machine.scale_bounds hlt hle hpr

theorem narrowedEngine_range_toNat {lo hi p : Nat} {c : Bool} {e : Engine} (h : EngineInv e) (hlt : lo < hi)
    (hle : hi ≤ p) (hp : p ≤ 0x8000) :
    (narrowedEngine lo hi p c e).range.toNat = e.scale hi p - e.scale lo p := by
  have hsc := Engine.scale_bounds hlt hle (show p ≤ e.range.toNat by have := h.rangeAbove; omega)
  have := h.rangeMost
  rw [narrowedEngine_range]
  exact narrowTo_range (by omega)

/-- What Reserve, Narrow and re-seat leave (R142, R143, R145). -/
theorem narrowedEngine_spec {lo hi p : Nat} {c : Bool} {e : Engine} (h : EngineInv e) (hlt : lo < hi) (hle : hi ≤ p)
    (hp : p ≤ 0x8000) :
    ∃ L, L ≤ e.ibits.toNat ∧ L ≤ 23 ∧ Placed L e ∧ PreCap L e (narrowedEngine lo hi p c e) := by
  obtain ⟨hm, hr⟩ := engineInv_iff.mp h
  obtain ⟨hb1, hb2, hb3, L, hL23, hLi, hpl⟩ := hm.bounds
  have hsc := Engine.scale_bounds hlt hle (show p ≤ e.range.toNat by omega)
  have hle2 : 2 ^ (L + 1) ≤ 2 ^ 24 := two_pow_le_of_level (by omega)
  have hrm := hm.rangeMost
  have hres := reserveIf_placed (c := c) hm hL23 hpl
  unfold narrowedEngine
  generalize e.scale lo p = x at *
  generalize e.scale hi p = y at *
  have hlow : ((e.reserveIf c).narrowTo x y).low.toNat = e.low.toNat + x := by
    rw [narrowTo_low (by rw [reserveIf_low]; omega), reserveIf_low]
  have hrng : ((e.reserveIf c).narrowTo x y).range.toNat = y - x := narrowTo_range (by omega)
  have hpl2 : Placed L ((e.reserveIf c).narrowTo x y) := ⟨hres.mask, hres.grid⟩
  obtain ⟨h1, h2⟩ := reseat_spec hpl2 (by omega)
  refine ⟨L, hLi, hL23, hpl, h1, ?_, h2, ?_, ?_, ?_⟩
  · simp [Engine.narrowTo, reserveIf_ibits]
  · rw [reseat_range, hrng]; omega
  · rw [reseat_range, reseat_low, hrng, hlow]; omega
  · rw [reseat_range, hrng]; omega

/-- Narrow returns on a valid model range, with RANGE above the total (R143). -/
theorem narrow_ok {lo hi p : Nat} {s : State} (hr : 0x8000 < s.engine.range.toNat) (hr2 : s.engine.range.toNat ≤ 0x10000)
    (hlt : lo < hi) (hle : hi ≤ p) (hp : p ≤ 0x8000) :
    narrow lo hi p s = .ok (s.engine.scale lo p)
      { s with engine := s.engine.narrowTo (s.engine.scale lo p) (s.engine.scale hi p) } := by
  have hsc := Engine.scale_bounds (e := s.engine) hlt hle (by omega)
  have hcond : lo < hi ∧ hi ≤ p ∧ p ≤ Config.maxP1 := ⟨hlt, hle, hp⟩
  unfold narrow
  rw [if_pos hcond]
  have hne : (s.engine.narrowTo (s.engine.scale lo p) (s.engine.scale hi p)).range ≠ 0 := by
    intro hc
    have := (word_eq_zero_iff _).mp hc
    rw [narrowTo_range (by omega)] at this
    omega
  simp only [hne, if_false]

/-- What Cap makes of the narrowed engine (R144). -/
theorem cap_spec {L : Nat} {e0 e : Engine} (h0 : EngineMid e0) (hL : L ≤ e0.ibits.toNat) (h : PreCap L e0 e) :
    (e.capLoop 32).2.low = e.low ∧ (e.capLoop 32).2.range = e.range ∧
      ((e.capLoop 32).1 = true → EngineMid (e.capLoop 32).2) := by
  have hfr := capLoop_frame 32 e
  have hl : (e.capLoop 32).2.low = e.low := by rw [hfr]
  have hr : (e.capLoop 32).2.range = e.range := by rw [hfr]
  have hi : (e.capLoop 32).2.ibits = e.ibits := by rw [hfr]
  have hb := h0.bounds
  have h23 := h0.ibitsMost
  have hle2 : 2 ^ (L + 1) ≤ 2 ^ 24 := two_pow_le_of_level (by omega)
  have hs := h.shrinks
  have hrl := h.rangeLess
  have hrm := h0.rangeMost
  obtain ⟨L', hL', hp', ha, hin, -⟩ := capLoop_spec (n := 32) h.placed (by omega) (by omega) h.freeEndAbove
  refine ⟨hl, hr, fun ht => ?_⟩
  refine ⟨by rw [hr]; omega, by rw [hl]; exact ha, by rw [hl, hr]; exact hin ht, ⟨L', ?_, hp'⟩, ?_, ?_, ?_⟩
  · rw [hi, h.ibits]; omega
  · rw [hl, hr, hi, h.ibits]; have := h0.topBound; omega
  · rw [hi, h.ibits]; exact h0.ibitsLeast
  · rw [hi, h.ibits]; exact h0.ibitsMost

/-- What the encoder's steps may write (R110, R153): the interval engine, the carry buffer, the FO registers, and bytes
appended to OUT. -/
structure EncFrame (s t : State) : Prop where
  rest : t = { s with engine := t.engine, carry := t.carry, fo := t.fo, out := t.out }
  appends : s.out <+: t.out

theorem EncFrame.refl (s : State) : EncFrame s s := ⟨rfl, List.prefix_rfl⟩

theorem EncFrame.trans {s t u : State} (h1 : EncFrame s t) (h2 : EncFrame t u) : EncFrame s u :=
  ⟨by rw [h2.rest, h1.rest], h1.appends.trans h2.appends⟩

theorem CarryFrame.toEnc {s t : State} (h : CarryFrame s t) : EncFrame s t := ⟨by rw [h.rest], h.appends⟩

theorem EncFrame.setEngine (s : State) (e : Engine) : EncFrame s { s with engine := e } := ⟨rfl, List.prefix_rfl⟩

/-- One turn of Renorm, with the doubled engine about to be detached or not (R146, R147). -/
theorem double_mid {e : Engine} (h : EngineMid e) (hr : e.range.toNat ≤ 0x8000) (hi : e.double.ibits.toNat ≠ 24) :
    EngineMid e.double := by
  obtain ⟨h1, h2, h3, h4, L, hL, hp⟩ := double_spec h hr
  have ha := h.freeEndAbove
  have hb := h.freeEndBelow
  have ht := h.topBound
  have hl := h.ibitsLeast
  have hm := h.ibitsMost
  refine ⟨by omega, by omega, by omega, ⟨L, by omega, hp⟩, ?_, by omega, by omega⟩
  rw [h1, h2, h4, Nat.pow_succ 2 (e.ibits.toNat + 1)]
  omega

/-- A detach after a doubling keeps R27 (R148). -/
theorem double_detach_mid {e : Engine} (h : EngineMid e) (hr : e.range.toNat ≤ 0x8000) : EngineMid e.double.detach := by
  obtain ⟨h1, h2, h3, h4, L, hL, hp⟩ := double_spec h hr
  have ha := h.freeEndAbove
  have hb := h.freeEndBelow
  exact detach_spec hp (by omega) (by omega) (by omega)

/-- The carry invariant through a doubling (R27(f), R147). -/
theorem double_carry {e : Engine} {c : Carry} (h : EngineMid e) (hr : e.range.toNat ≤ 0x8000) (hc : CarryInv e c) :
    CarryInv e.double c := by
  obtain ⟨h1, h2, h3, h4, -⟩ := double_spec h hr
  intro hcond
  have := hc hcond
  unfold noCarryOut at *
  rw [h1, h2, h4, Nat.pow_succ]
  omega

theorem toByte_eq_ff {b : Nat} (h : toByte b = 0xFF) : b % 256 = 255 := by
  have := congrArg BitVec.toNat h
  simpa [toByte] using this

/-- The carry buffer and the detached engine (R148, R152): a carry always has a byte to go into, and what is left cannot
carry into a pending 0xFF. -/
theorem detach_carry {e : Engine} {c : Carry} (htop : e.low.toNat + e.range.toNat ≤ 2 ^ 25) (hpos : 0 < e.range.toNat)
    (hi : e.ibits.toNat = 24) (hc : CarryInv e c) :
    (c.buf = 0 ∨ c.byte = 0xFF → e.low.toNat >>> 16 ≤ 255) ∧
      (carryAfter (e.low.toNat >>> 16) c).buf = (carryAfter (e.low.toNat >>> 16) c).buf ∧
      ((carryAfter (e.low.toNat >>> 16) c).buf ≠ 0 → CarryInv e.detach (carryAfter (e.low.toNat >>> 16) c)) := by
  have hlow := detach_low e
  have hb : e.low.toNat >>> 16 = e.low.toNat / 2 ^ 16 := Nat.shiftRight_eq_div_pow _ _
  refine ⟨fun hcond => ?_, rfl, fun hne hcond => ?_⟩
  · have := hc hcond
    unfold noCarryOut at this
    rw [hi] at this
    rw [hb]; omega
  · rcases hcond with h0 | hff
    · exact absurd h0 hne
    · unfold noCarryOut
      rw [hlow, detach_range, detach_ibits]
      change _ ≤ 2 ^ 16
      unfold carryAfter at hff
      split at hff
      · next hx =>
        have := hc (.inr hff)
        unfold noCarryOut at this
        rw [hi] at this
        rw [hb] at hx
        omega
      · next hx =>
        have hmod := toByte_eq_ff hff
        rw [hb] at hmod hx
        by_cases h0 : c.buf = 0
        · have := hc (.inl h0)
          unfold noCarryOut at this
          rw [hi] at this
          omega
        · have hne255 : e.low.toNat / 2 ^ 16 ≠ 255 := fun h => hx ⟨h0, h⟩
          omega

@[simp] theorem pendingCount_setEngine (s : State) (e : Engine) : pendingCount { s with engine := e } = pendingCount s := rfl

/-- What Detach does in the encoder to an engine with 24 resident bits (R148, R151). -/
theorem detach_enc {s : State} {L : Nat} (hp : Placed L s.engine) (hr : s.engine.range.toNat ≤ 0x10000)
    (ha : s.engine.low.toNat ≤ s.engine.nfe.toNat)
    (hb : s.engine.nfe.toNat < s.engine.low.toNat + s.engine.range.toNat)
    (htop : s.engine.low.toNat + s.engine.range.toNat ≤ 2 ^ 25) (hi : s.engine.ibits.toNat = 24)
    (hc : CarryInv s.engine s.carry) (hf : FoInv s.fo) :
    (∃ u, detach .enc s = .ok () u ∧ u.engine = s.engine.detach ∧ EngineMid u.engine ∧ CarryInv u.engine u.carry ∧
        FoInv u.fo ∧ EncFrame s u ∧ (pendingCount s + 1 < 2 ^ 32 → pendingCount u ≤ pendingCount s + 1)) ∨
    (∃ u, detach .enc s = .raised .counterOverflow u ∧ EncFrame s u ∧ ¬ pendingCount s + 1 < 2 ^ 32) := by
  obtain ⟨hsafe, -, hnew⟩ := detach_carry htop (by omega) hi hc
  have hframe := byteWithCarry_frame (s.engine.low.toNat >>> 16) s
  have hmid : EngineMid s.engine.detach := detach_spec hp hr ha hb
  unfold detach
  dsimp only
  cases hbw : byteWithCarry (s.engine.low.toNat >>> 16) s with
  | held => exact absurd hbw byteWithCarry_not_held
  | raised c u =>
    rw [hbw] at hframe
    obtain rfl := byteWithCarry_raised hbw hsafe
    refine .inr ⟨u, rfl, CarryFrame.toEnc hframe, fun hroom => ?_⟩
    obtain ⟨v, hv, -⟩ := byteWithCarry_returns hf hroom hsafe
    rw [hbw] at hv
    simp at hv
  | ok a u =>
    rw [hbw] at hframe
    obtain ⟨hcu, hfu⟩ := byteWithCarry_ok hbw
    have hpend := byteWithCarry_pending hbw
    have hue : u.engine = s.engine := by rw [CarryFrame.rest hframe]
    rw [Res.ok_andThen]
    refine .inl ⟨{ u with engine := u.engine.detach }, by rfl, by simp only [hue], by simp only [hue]; exact hmid, ?_, hfu hf,
      (CarryFrame.toEnc hframe).trans (EncFrame.setEngine u _), fun hroom => ?_⟩
    · rw [hue, hcu]; rw [hcu] at hpend; exact hnew hpend
    · obtain ⟨v, hv, hvp, -⟩ := byteWithCarry_returns hf hroom hsafe
      rw [hbw] at hv
      obtain ⟨-, rfl⟩ := Res.ok.inj hv
      rw [pendingCount_setEngine]
      exact hvp

/-- One turn of Renorm after Pull, in the encoder (R146). -/
theorem detachIf_enc {e : Engine} {s : State} (he : EngineMid e) (hr : e.range.toNat ≤ 0x8000) (hs : s.engine = e.double)
    (hc : CarryInv e s.carry) (hf : FoInv s.fo) :
    (∃ u, detachIf .enc s = .ok () u ∧ u.engine.range.toNat = 2 * e.range.toNat ∧ EngineMid u.engine ∧
        CarryInv u.engine u.carry ∧ FoInv u.fo ∧ EncFrame s u ∧
        (pendingCount s + 1 < 2 ^ 32 → pendingCount u ≤ pendingCount s + 1)) ∨
    (∃ u, detachIf .enc s = .raised .counterOverflow u ∧ EncFrame s u ∧ ¬ pendingCount s + 1 < 2 ^ 32) := by
  obtain ⟨h1, h2, h3, h4, L, hL, hp⟩ := double_spec he hr
  have hcd := double_carry he hr hc
  have ha := he.freeEndAbove
  have hb := he.freeEndBelow
  have ht := he.topBound
  unfold detachIf
  by_cases hi : s.engine.ibits.toNat = Config.ibTop
  · rw [if_pos hi]
    have hi24 : s.engine.ibits.toNat = 24 := hi
    rw [← hs] at h1 h2 h3 h4 hp hcd
    have h23 : e.ibits.toNat = 23 := by omega
    rw [h23] at ht
    rcases detach_enc hp (by omega) (by omega) (by omega) (by omega) hi24 hcd hf with
      ⟨u, k1, k2, k3, k4, k5, k6, k7⟩ | ⟨u, k1, k2, k3⟩
    · exact .inl ⟨u, k1, by rw [k2, detach_range, h2], k3, k4, k5, k6, k7⟩
    · exact .inr ⟨u, k1, k2, k3⟩
  · rw [if_neg hi]
    refine .inl ⟨s, rfl, by rw [hs, h2], ?_, ?_, hf, EncFrame.refl s, fun _ => by omega⟩
    · rw [hs]; rw [hs] at hi; exact double_mid he hr hi
    · rw [hs]; exact hcd

/-- What Renorm gives the encoder from an engine that meets R27 but for its width: R27 whole, or CounterOverflow
(R146). -/
theorem renormLoop_enc {n : Nat} {s : State} (hm : EngineMid s.engine) (hc : CarryInv s.engine s.carry)
    (hf : FoInv s.fo) (hpos : 0x8000 < 2 ^ n * s.engine.range.toNat) :
    (∃ u, renormLoop n .enc s = .ok () u ∧ EngineInv u.engine ∧ CarryInv u.engine u.carry ∧ FoInv u.fo ∧ EncFrame s u ∧
        (pendingCount s + n < 2 ^ 32 → pendingCount u ≤ pendingCount s + n)) ∨
    (∃ u, renormLoop n .enc s = .raised .counterOverflow u ∧ EncFrame s u ∧ ¬ pendingCount s + n < 2 ^ 32) := by
  induction n generalizing s with
  | zero =>
    exact .inl ⟨s, rfl, engineInv_iff.mpr ⟨hm, by simpa using hpos⟩, hc, hf, EncFrame.refl s, fun _ => by omega⟩
  | succ n ih =>
    unfold renormLoop
    by_cases hr : s.engine.range.toNat ≤ Config.maxP1
    · rw [if_pos hr]
      simp only [pullIf, Res.ok_andThen]
      have hset := EncFrame.setEngine s s.engine.double
      have hpend : pendingCount { s with engine := s.engine.double } = pendingCount s := rfl
      rcases detachIf_enc (s := { s with engine := s.engine.double }) hm hr rfl hc hf with
        ⟨u, k1, k2, k3, k4, k5, k6, k7⟩ | ⟨u, k1, k2, k3⟩
      · rw [k1, Res.ok_andThen]
        rw [hpend] at k7
        have hpos' : 0x8000 < 2 ^ n * u.engine.range.toNat := by
          rw [k2, ← Nat.mul_assoc, ← Nat.pow_succ]; exact hpos
        have hfr := hset.trans k6
        rcases ih k3 k4 k5 hpos' with ⟨v, hv, j1, j2, j3, j4, j5⟩ | ⟨v, hv, j4, j5⟩
        · refine .inl ⟨v, hv, j1, j2, j3, hfr.trans j4, fun hroom => ?_⟩
          have := k7 (by omega)
          have := j5 (by omega)
          omega
        · refine .inr ⟨v, hv, hfr.trans j4, fun hroom => j5 ?_⟩
          have := k7 (by omega)
          omega
      · rw [k1, Res.raised_andThen]
        rw [hpend] at k3
        exact .inr ⟨u, rfl, hset.trans k2, fun hroom => k3 (by omega)⟩
    · rw [if_neg hr]
      exact .inl ⟨s, rfl, engineInv_iff.mpr ⟨hm, by have : ¬ s.engine.range.toNat ≤ 0x8000 := hr; omega⟩, hc, hf,
        EncFrame.refl s, fun _ => by omega⟩

/-- Narrow inside SymbolSteps returns on a valid model range, so SymbolSteps is its last four steps on the narrowed
engine (R143, R145). -/
theorem symbolSteps_eq {lo hi p : Nat} {c : Bool} {dir : Dir} {s : State} (he : EngineInv s.engine) (hlt : lo < hi)
    (hle : hi ≤ p) (hp : p ≤ 0x8000) :
    symbolSteps lo hi p c dir s =
      (takeValueIf dir (s.engine.scale lo p)
        { s with engine := (s.engine.reserveIf c).narrowTo (s.engine.scale lo p) (s.engine.scale hi p) }).andThen
        fun _ t => (cap { t with engine := t.engine.reseat }).andThen fun _ t => renorm dir t := by
  have hsr : ∀ x, (s.engine.reserveIf c).scale x p = s.engine.scale x p := fun x => by
    unfold Engine.scale; rw [reserveIf_range]
  have := narrow_ok (s := { s with engine := s.engine.reserveIf c }) (by rw [reserveIf_range]; exact he.rangeAbove)
    (by rw [reserveIf_range]; exact he.rangeMost) hlt hle hp
  unfold symbolSteps
  rw [this]
  simp only [hsr, Res.ok_andThen]

/-- What Cap gives on the narrowed engine (R144): the free end inside the interval; or FreeEndEscape, never where the
narrowed interval is two or more wide and the level is not 0. -/
theorem cap_narrowed {lo hi p : Nat} {c : Bool} {e : Engine} {t : State} (he : EngineInv e) (hlt : lo < hi) (hle : hi ≤ p)
    (hp : p ≤ 0x8000) (ht : t.engine = narrowedEngine lo hi p c e) :
    (∃ f, cap t = .ok () { t with engine := f } ∧ f = ((narrowedEngine lo hi p c e).capLoop 32).2 ∧ EngineMid f ∧
        f.range = (narrowedEngine lo hi p c e).range ∧ f.ibits = e.ibits ∧
        f.low.toNat + f.range.toNat ≤ e.low.toNat + e.range.toNat) ∨
    (∃ f, cap t = .raised .freeEndEscape { t with engine := f } ∧ ¬ (e.feven ≠ 0 ∧ p ≤ 0x4000)) := by
  have hra := he.rangeAbove
  obtain ⟨hmid, -⟩ := engineInv_iff.mp he
  obtain ⟨L, hLi, hL23, hpl, hpre⟩ := narrowedEngine_spec (c := c) he hlt hle hp
  obtain ⟨hl, hr, hin⟩ := cap_spec hmid hLi hpre
  have hrng := narrowedEngine_range_toNat (c := c) he hlt hle hp
  have hib : ((narrowedEngine lo hi p c e).capLoop 32).2.ibits = e.ibits := by
    rw [capLoop_frame]; exact hpre.ibits
  unfold cap
  rw [ht]
  generalize narrowedEngine lo hi p c e = ne at *
  dsimp only
  cases hb : (ne.capLoop 32).1
  · rw [if_neg (by simp)]
    refine .inr ⟨_, rfl, fun hg => ?_⟩
    have h2 : 2 ≤ ne.range.toNat := by
      have hpp : 0 < p := by omega
      have e1 : (lo * e.range.toNat + 2 * p) / p = lo * e.range.toNat / p + 2 := Nat.add_mul_div_right _ _ hpp
      have e2 : lo * e.range.toNat + 2 * p ≤ hi * e.range.toNat := by
        have : 2 * p ≤ e.range.toNat := by omega
        nlinarith
      have e3 := Nat.div_le_div_right (c := p) e2
      rw [hrng]
      unfold Engine.scale
      rw [e1] at e3
      generalize lo * e.range.toNat / p = x at *
      generalize hi * e.range.toNat / p = y at *
      omega
    have hL0 : L ≠ 0 := by
      intro h0
      apply hg.1
      rw [word_eq_zero_iff, hpl.mask, h0]; rfl
    have hle2 : 2 ^ (L + 1) ≤ 2 ^ 24 := two_pow_le_of_level (by omega)
    have hbd := hmid.bounds
    have hsh := hpre.shrinks
    have := capLoop_inside (n := 32) hpre.placed (by omega) (by omega) hpre.freeEndAbove h2 (.inl hL0)
    rw [hb] at this
    simp at this
  · rw [if_pos rfl]
    exact .inl ⟨_, rfl, rfl, hin hb, hr, hib, by rw [hl, hr]; exact hpre.shrinks⟩

/-- What SymbolSteps gives the encoder from a state that meets R27, on a valid model range (R145): R27 again; or one of
the two faults the steps can raise, FreeEndEscape never where the narrowed interval is two or more wide and the level is
not 0 (R144), CounterOverflow never where the counters have room (R240). -/
theorem symbolSteps_enc {lo hi p : Nat} {c : Bool} {s : State} (he : EngineInv s.engine) (hc : CarryInv s.engine s.carry)
    (hf : FoInv s.fo) (hlt : lo < hi) (hle : hi ≤ p) (hp : p ≤ 0x8000) :
    (∃ u, symbolSteps lo hi p c .enc s = .ok () u ∧ EngineInv u.engine ∧ CarryInv u.engine u.carry ∧ FoInv u.fo ∧
        EncFrame s u ∧ (pendingCount s + 16 < 2 ^ 32 → pendingCount u ≤ pendingCount s + 16)) ∨
    (∃ u, symbolSteps lo hi p c .enc s = .raised .freeEndEscape u ∧ EncFrame s u ∧
        ¬ (s.engine.feven ≠ 0 ∧ p ≤ 0x4000)) ∨
    (∃ u, symbolSteps lo hi p c .enc s = .raised .counterOverflow u ∧ EncFrame s u ∧ ¬ pendingCount s + 16 < 2 ^ 32) := by
  rw [symbolSteps_eq he hlt hle hp]
  simp only [takeValueIf, Res.ok_andThen]
  have hrng := narrowedEngine_range_toNat (c := c) he hlt hle hp
  have hsc := Engine.scale_bounds (e := s.engine) hlt hle (by have := he.rangeAbove; omega)
  rcases cap_narrowed (c := c) (t := { s with engine := narrowedEngine lo hi p c s.engine }) he hlt hle hp rfl with
    ⟨f, h1, -, hmid, hr, hib, hsh⟩ | ⟨f, h1, hg⟩
  · have hcap := h1
    unfold narrowedEngine at hcap
    rw [hcap, Res.ok_andThen]
    have hcar : CarryInv f s.carry := by
      intro hcond
      have := hc hcond
      unfold noCarryOut at *
      rw [hib]
      omega
    have hpos : 0x8000 < 2 ^ 16 * f.range.toNat := by rw [hr, hrng]; omega
    unfold renorm
    rcases renormLoop_enc (n := 16) (s := { s with engine := f }) hmid hcar hf hpos with
      ⟨u, k1, k2, k3, k4, k5, k6⟩ | ⟨u, k1, k2, k3⟩
    · exact .inl ⟨u, k1, k2, k3, k4, (EncFrame.setEngine s f).trans k5, k6⟩
    · exact .inr (.inr ⟨u, k1, (EncFrame.setEngine s f).trans k2, k3⟩)
  · have hcap := h1
    unfold narrowedEngine at hcap
    rw [hcap, Res.raised_andThen]
    exact .inr (.inl ⟨_, rfl, EncFrame.setEngine s f, hg⟩)

end Sys2Proof.Machine
end

