-- ==== Sys2Proof/Laws/LookAhead.lean ====
section
/-!
SUPPORT. Laws/LookAhead.lean: what the decoder's look-ahead steps can do (41_coder.md R159 to R166): their frame, the
invariant of VALUE, when they hold, and that Renorm moves the interval engine in the decoder as in the encoder.
-/

namespace Sys2Proof.Machine

/-- What the decoder's reading steps may write (R110, R161, R164, R165): the look-ahead, the FI registers, and items taken
from IN. -/
structure LookFrame (s t : State) : Prop where
  rest : t = { s with look := t.look, fi := t.fi, inp := t.inp }
  takes : t.inp <:+ s.inp
  afterEof : s.fi.eof = true → t.fi.eof = true ∧ t.inp = s.inp

theorem LookFrame.refl (s : State) : LookFrame s s := ⟨rfl, List.suffix_rfl, fun h => ⟨h, rfl⟩⟩

theorem LookFrame.trans {s t u : State} (h1 : LookFrame s t) (h2 : LookFrame t u) : LookFrame s u :=
  ⟨by rw [h2.rest, h1.rest], h2.takes.trans h1.takes, fun h =>
    have h3 := h1.afterEof h
    have h4 := h2.afterEof h3.1
    ⟨h4.1, h4.2.trans h3.2⟩⟩

theorem FiFrame.toLook {s t : State} (h : FiFrame s t) : LookFrame s t := ⟨by rw [h.rest], h.takes, h.afterEof⟩

theorem LookFrame.setLook (s : State) (l : LookAhead) : LookFrame s { s with look := l } :=
  ⟨rfl, List.suffix_rfl, fun h => ⟨h, rfl⟩⟩

/-- What DEC_SYM's symbol steps may write (R162): the interval engine as well. -/
structure DecFrame (s t : State) : Prop where
  rest : t = { s with engine := t.engine, look := t.look, fi := t.fi, inp := t.inp }
  takes : t.inp <:+ s.inp
  afterEof : s.fi.eof = true → t.fi.eof = true ∧ t.inp = s.inp

theorem DecFrame.refl (s : State) : DecFrame s s := ⟨rfl, List.suffix_rfl, fun h => ⟨h, rfl⟩⟩

theorem DecFrame.trans {s t u : State} (h1 : DecFrame s t) (h2 : DecFrame t u) : DecFrame s u :=
  ⟨by rw [h2.rest, h1.rest], h2.takes.trans h1.takes, fun h =>
    have h3 := h1.afterEof h
    have h4 := h2.afterEof h3.1
    ⟨h4.1, h4.2.trans h3.2⟩⟩

theorem LookFrame.toDec {s t : State} (h : LookFrame s t) : DecFrame s t := ⟨by rw [h.rest], h.takes, h.afterEof⟩

theorem DecFrame.setEngine (s : State) (e : Engine) : DecFrame s { s with engine := e } :=
  ⟨rfl, List.suffix_rfl, fun h => ⟨h, rfl⟩⟩

/-- What a reading step keeps of the file: the end mark stays in reach, and a begun file stays begun. -/
structure FileKept (s t : State) : Prop where
  duty : inDuty s → inDuty t
  begun : s.fi.first = false → t.fi.first = false

theorem FileKept.refl (s : State) : FileKept s s := ⟨id, id⟩

theorem FileKept.trans {s t u : State} (h1 : FileKept s t) (h2 : FileKept t u) : FileKept s u :=
  ⟨fun h => h2.duty (h1.duty h), fun h => h2.begun (h1.begun h)⟩

theorem FileKept.setLook (s : State) (l : LookAhead) : FileKept s { s with look := l } := ⟨id, id⟩

theorem FileKept.setEngine (s : State) (e : Engine) : FileKept s { s with engine := e } := ⟨id, id⟩

theorem fiTail_first (f : FiSide) : (fiTail f).2.first = f.first := by unfold fiTail; split <;> rfl

theorem fiByte_first (b : Byte) (f : FiSide) : (fiByte b f).2.first = false := by
  unfold fiByte; dsimp only; split
  · rfl
  · next h => simpa using h

/-- FI_Next on a file not at its end leaves it begun (R105). -/
theorem fiNext_begins {s u : State} {r : Byte × Bool} (h : fiNext s = .ok r u) (he : s.fi.eof = false) :
    u.fi.first = false := by
  unfold fiNext at h
  rw [if_neg (by simp [he])] at h
  cases hin : s.inp with
  | nil => rw [fileIn_nil hin] at h; simp at h
  | cons item rest =>
    rw [fileIn_cons hin] at h
    cases item with
    | eof =>
      simp only [Res.ok_andThen, fiItem] at h
      split at h
      · simp at h
      · next hf =>
        obtain ⟨-, rfl⟩ := Res.ok.inj h
        exact (fiTail_first _).trans (by simpa using hf)
    | byte b =>
      simp only [Res.ok_andThen, fiItem] at h
      obtain ⟨-, rfl⟩ := Res.ok.inj h
      exact fiByte_first b s.fi

theorem fiNext_kept {s u : State} {r : Byte × Bool} (h : fiNext s = .ok r u) : FileKept s u := by
  refine ⟨fiNext_ok h, fun hf => ?_⟩
  cases he : s.fi.eof
  · exact fiNext_begins h he
  · unfold fiNext at h
    rw [if_pos he] at h
    obtain ⟨-, rfl⟩ := Res.ok.inj h
    exact (fiTail_first s.fi).trans hf

theorem nextByte_frame (s : State) : (nextByte s).All (LookFrame s) := by
  unfold nextByte
  split
  · exact LookFrame.setLook s _
  · split
    · exact LookFrame.setLook s _
    · exact ((fiNext_frame s).mono fun _ h => h.toLook).andThen (fun _ h => h) fun _ u _ h => h

theorem nextByte_kept {s u : State} {t : Byte} (h : nextByte s = .ok t u) (hf : FollowInv s.look) :
    FileKept s u ∧ FollowInv u.look ∧ u.look.value = s.look.value ∧ u.look.vshift = s.look.vshift := by
  unfold nextByte at h
  split at h
  · obtain ⟨-, rfl⟩ := Res.ok.inj h
    exact ⟨FileKept.setLook s _, hf, rfl, rfl⟩
  · split at h
    · obtain ⟨-, rfl⟩ := Res.ok.inj h
      exact ⟨FileKept.setLook s _, by simp [FollowInv], rfl, rfl⟩
    · obtain ⟨⟨r, z⟩, v, hv, h2⟩ := Res.andThen_eq_ok.mp h
      obtain ⟨-, rfl⟩ := Res.ok.inj h2
      have hfr := fiNext_frame s
      rw [hv] at hfr
      have hl : v.look = s.look := by rw [FiFrame.rest hfr]
      exact ⟨fiNext_kept hv, by rw [hl]; exact hf, by rw [hl], by rw [hl]⟩

/-- NextByte raises nothing in a file that has begun (R106, R161). -/
theorem nextByte_not_raised {s u : State} {c : Cause} (hb : s.fi.first = false) : nextByte s ≠ .raised c u := by
  intro h
  unfold nextByte at h
  split at h
  · simp at h
  · split at h
    · simp at h
    · rcases Res.andThen_eq_raised.mp h with h1 | ⟨_, v, _, h2⟩
      · have := (fiNext_raised h1).2.2.1
        rw [hb] at this; simp at this
      · simp at h2

/-- NextByte does not hold while the host keeps its IN duty (R61, R275). -/
theorem nextByte_not_held {s : State} (hd : inDuty s) : nextByte s ≠ .held := by
  intro h
  unfold nextByte at h
  split at h
  · simp at h
  · split at h
    · simp at h
    · rcases Res.andThen_eq_held.mp h with h1 | ⟨_, v, _, h2⟩
      · obtain ⟨he, hin⟩ := fiNext_held_iff.mp h1
        rcases hd with h3 | h3
        · rw [he] at h3; simp at h3
        · rw [hin] at h3; simp at h3
      · simp at h2

theorem pull_frame (s : State) : (pull s).All (LookFrame s) := by
  unfold pull
  split
  · exact (nextByte_frame s).andThen (fun _ h => h) fun _ u _ h => h.trans (LookFrame.setLook u _)
  · exact LookFrame.setLook s _

theorem shiftIn_toNat {v : Nat} {t : Byte} (h : v < 2 ^ 24) : (toWord ((v <<< 8) ||| t.toNat)).toNat = v * 256 + t.toNat := by
  have ht := t.isLt
  rw [← Nat.shiftLeft_add_eq_or_of_lt ht, Nat.shiftLeft_eq, toWord_toNat (by omega)]

/-- What Pull leaves (R164): VALUE still below the doubled width, at a scale of at most 7. -/
theorem pull_ok {s u : State} (h : pull s = .ok () u) (hf : FollowInv s.look) (hv : ValueInv s.engine s.look)
    (hr : s.engine.range.toNat ≤ 0x8000) :
    FileKept s u ∧ FollowInv u.look ∧ u.look.vshift.toNat ≤ 7 ∧
      u.look.value.toNat < (2 * s.engine.range.toNat) <<< u.look.vshift.toNat := by
  have hval := hv.valueBelow
  unfold pull at h
  split at h
  · next h0 =>
    obtain ⟨t, v, hnb, h2⟩ := Res.andThen_eq_ok.mp h
    obtain ⟨-, rfl⟩ := Res.ok.inj h2
    obtain ⟨hk, hfl, hve, hse⟩ := nextByte_kept hnb hf
    refine ⟨hk.trans (FileKept.setLook v _), hfl, by change (7 : BitVec 4).toNat ≤ 7; decide, ?_⟩
    rw [h0] at hval
    have hval' : s.look.value.toNat < s.engine.range.toNat := hval
    have ht := t.isLt
    change (toWord ((v.look.value.toNat <<< 8) ||| t.toNat)).toNat < (2 * s.engine.range.toNat) <<< 7
    rw [hve, shiftIn_toNat (by omega), Nat.shiftLeft_eq]
    omega
  · next h0 =>
    obtain ⟨-, rfl⟩ := Res.ok.inj h
    have h7 := hv.vshiftMost
    have hpos : s.look.vshift.toNat ≠ 0 := fun hc => h0 (by rw [← BitVec.toNat_inj]; exact hc)
    have hsub : (s.look.vshift - 1).toNat = s.look.vshift.toNat - 1 := by
      rw [BitVec.toNat_sub]
      change (2 ^ 4 - 1 + s.look.vshift.toNat) % 2 ^ 4 = _
      omega
    refine ⟨FileKept.setLook s _, hf, by change (s.look.vshift - 1).toNat ≤ 7; omega, ?_⟩
    change s.look.value.toNat < (2 * s.engine.range.toNat) <<< (s.look.vshift - 1).toNat
    rw [hsub, Nat.shiftLeft_eq]
    rw [Nat.shiftLeft_eq] at hval
    obtain ⟨k, hk⟩ : ∃ k, s.look.vshift.toNat = k + 1 := ⟨s.look.vshift.toNat - 1, by omega⟩
    rw [hk] at hval ⊢
    rw [Nat.pow_succ] at hval
    have : k + 1 - 1 = k := by omega
    rw [this]
    calc s.look.value.toNat < s.engine.range.toNat * (2 ^ k * 2) := hval
      _ = 2 * s.engine.range.toNat * 2 ^ k := by ring

theorem pull_not_raised {s u : State} {c : Cause} (hb : s.fi.first = false) : pull s ≠ .raised c u := by
  intro h
  unfold pull at h
  split at h
  · rcases Res.andThen_eq_raised.mp h with h1 | ⟨_, v, _, h2⟩
    · exact nextByte_not_raised hb h1
    · simp at h2
  · simp at h

theorem pull_not_held {s : State} (hd : inDuty s) : pull s ≠ .held := by
  intro h
  unfold pull at h
  split at h
  · rcases Res.andThen_eq_held.mp h with h1 | ⟨_, v, _, h2⟩
    · exact nextByte_not_held hd h1
    · simp at h2
  · simp at h

theorem detachIf_engine {dir : Dir} {s u : State} (h : detachIf dir s = .ok () u) :
    u.engine = if s.engine.ibits.toNat = Config.ibTop then s.engine.detach else s.engine := by
  unfold detachIf at h
  split at h
  · next hi =>
    rw [if_pos hi]
    cases dir with
    | enc =>
      simp only [detach] at h
      obtain ⟨_, v, hv, h2⟩ := Res.andThen_eq_ok.mp h
      obtain ⟨-, rfl⟩ := Res.ok.inj h2
      have hfr := byteWithCarry_frame (s.engine.low.toNat >>> 16) s
      rw [hv] at hfr
      have : v.engine = s.engine := by rw [CarryFrame.rest hfr]
      simp only [this]
    | dec =>
      simp only [detach] at h
      obtain ⟨-, rfl⟩ := Res.ok.inj h
      rfl
  · next hi =>
    obtain ⟨-, rfl⟩ := Res.ok.inj h
    rw [if_neg hi]

theorem pullIf_engine {dir : Dir} {s u : State} (h : pullIf dir s = .ok () u) : u.engine = s.engine := by
  cases dir with
  | enc => obtain ⟨-, rfl⟩ := Res.ok.inj h; rfl
  | dec =>
    have hfr := pull_frame s
    rw [show pull s = .ok () u from h] at hfr
    rw [LookFrame.rest hfr]

/-- Renorm moves the interval engine alike in both directions (R146, R158). -/
theorem renormLoop_engine {n : Nat} {dir : Dir} {s u : State} (h : renormLoop n dir s = .ok () u) :
    u.engine = s.engine.renormLoop n := by
  induction n generalizing s with
  | zero => obtain ⟨-, rfl⟩ := Res.ok.inj h; rfl
  | succ n ih =>
    unfold renormLoop at h
    unfold Engine.renormLoop
    split at h
    · next hr =>
      rw [if_pos hr]
      obtain ⟨_, v, hv, h2⟩ := Res.andThen_eq_ok.mp h
      obtain ⟨_, w, hw, h3⟩ := Res.andThen_eq_ok.mp h2
      have h4 := pullIf_engine hv
      have h5 := detachIf_engine hw
      rw [ih h3, h5]
      simp only [h4]
    · next hr =>
      obtain ⟨-, rfl⟩ := Res.ok.inj h
      rw [if_neg hr]

/-- One turn of Renorm after Pull, in the decoder (R146, R148). -/
theorem detachIf_dec {e : Engine} {s : State} (he : EngineMid e) (hr : e.range.toNat ≤ 0x8000) (hs : s.engine = e.double) :
    ∃ f, detachIf .dec s = .ok () { s with engine := f } ∧ f.range.toNat = 2 * e.range.toNat ∧ EngineMid f := by
  obtain ⟨h1, h2, h3, h4, L, hL, hp⟩ := double_spec he hr
  unfold detachIf
  by_cases hi : s.engine.ibits.toNat = Config.ibTop
  · rw [if_pos hi]
    exact ⟨s.engine.detach, rfl, by rw [detach_range, hs, h2], by rw [hs]; exact double_detach_mid he hr⟩
  · rw [if_neg hi]
    exact ⟨s.engine, rfl, by rw [hs, h2], by rw [hs]; rw [hs] at hi; exact double_mid he hr hi⟩

/-- What Renorm gives the decoder from an engine that meets R27 but for its width, in a file that has begun (R146): it
raises nothing, and holds only where the host fails its IN duty. -/
theorem renormLoop_dec {n : Nat} {s : State} (hm : EngineMid s.engine) (hv : ValueInv s.engine s.look)
    (hf : FollowInv s.look) (hb : s.fi.first = false) (hpos : 0x8000 < 2 ^ n * s.engine.range.toNat) :
    (∃ u, renormLoop n .dec s = .ok () u ∧ EngineInv u.engine ∧ ValueInv u.engine u.look ∧ FollowInv u.look ∧
        DecFrame s u ∧ FileKept s u) ∨
    (renormLoop n .dec s = .held ∧ ¬ inDuty s) := by
  induction n generalizing s with
  | zero =>
    exact .inl ⟨s, rfl, engineInv_iff.mpr ⟨hm, by simpa using hpos⟩, hv, hf, DecFrame.refl s, FileKept.refl s⟩
  | succ n ih =>
    unfold renormLoop
    by_cases hr : s.engine.range.toNat ≤ Config.maxP1
    · rw [if_pos hr]
      simp only [pullIf]
      cases hpl : pull s with
      | held => exact .inr ⟨rfl, fun hd => pull_not_held hd hpl⟩
      | raised c u => exact absurd hpl (pull_not_raised hb)
      | ok a v =>
        have hfr := pull_frame s
        rw [hpl] at hfr
        obtain ⟨hk, hfl, h7, hval⟩ := pull_ok hpl hf hv hr
        have hve : v.engine = s.engine := by rw [LookFrame.rest hfr]
        rw [Res.ok_andThen]
        obtain ⟨f, hd, hfr2, hfm⟩ := detachIf_dec (s := { v with engine := v.engine.double }) hm hr (by rw [hve])
        rw [hd, Res.ok_andThen]
        have hpos' : 0x8000 < 2 ^ n * f.range.toNat := by
          rw [hfr2, ← Nat.mul_assoc, ← Nat.pow_succ]; exact hpos
        have hfrm : DecFrame s { v with engine := f } := (LookFrame.toDec hfr).trans (DecFrame.setEngine v f)
        have hkm : FileKept s { v with engine := f } := hk.trans (FileKept.setEngine v f)
        rcases ih (s := { v with engine := f }) hfm ⟨by rw [hfr2]; exact hval, h7⟩ hfl (hkm.begun hb) hpos' with
          ⟨u, k1, k2, k3, k4, k5, k6⟩ | ⟨k1, k2⟩
        · exact .inl ⟨u, k1, k2, k3, k4, hfrm.trans k5, hkm.trans k6⟩
        · exact .inr ⟨k1, fun hd => k2 (hkm.duty hd)⟩
    · rw [if_neg hr]
      exact .inl ⟨s, rfl, engineInv_iff.mpr ⟨hm, by have : ¬ s.engine.range.toNat ≤ 0x8000 := hr; omega⟩, hv, hf,
        DecFrame.refl s, FileKept.refl s⟩

/-- The symbol point lies below the total, and the symbol that holds it holds the code (R166). -/
theorem symbolPoint_bounds {v r p lo hi : Nat} (hp : 0 < p) (hr : 0 < r)
    (hlo : lo ≤ (v * p + p - 1) / r) (hhi : (v * p + p - 1) / r < hi) : lo * r / p ≤ v ∧ v < hi * r / p := by
  constructor
  · have h1 : lo * r ≤ v * p + p - 1 := le_trans (Nat.mul_le_mul_right r hlo) (Nat.div_mul_le_self _ _)
    have h2 : lo * r / p ≤ (v * p + p - 1) / p := Nat.div_le_div_right h1
    have h3 : (v * p + p - 1) / p < v + 1 := by
      rw [Nat.div_lt_iff_lt_mul hp, Nat.add_mul]; omega
    omega
  · have h1 : v * p + p - 1 < hi * r := (Nat.div_lt_iff_lt_mul hr).mp hhi
    have h2 : (v + 1) * p ≤ hi * r := by rw [Nat.add_mul]; omega
    have := (Nat.le_div_iff_mul_le hp).mpr h2
    omega

theorem symbolPoint_lt {v r p : Nat} (hp : 0 < p) (hv : v < r) : (v * p + p - 1) / r < p := by
  rw [Nat.div_lt_iff_lt_mul (by omega)]
  have : (v + 1) * p ≤ r * p := Nat.mul_le_mul_right p hv
  rw [Nat.add_mul] at this
  rw [Nat.mul_comm p r]
  omega

/-- The code's bits at the interval's resolution are below its width (R162, R27(g)). -/
theorem value_shift_lt {e : Engine} {l : LookAhead} (h : ValueInv e l) : l.value.toNat >>> l.vshift.toNat < e.range.toNat := by
  have := h.valueBelow
  rw [Nat.shiftLeft_eq] at this
  rw [Nat.shiftRight_eq_div_pow]
  exact (Nat.div_lt_iff_lt_mul (Nat.two_pow_pos _)).mpr this

/-- Taking the scaled `newl` off VALUE leaves the code inside the narrowed interval (R145, R163). -/
theorem takeValue_ok {a b : Nat} {s : State} (hlo : a ≤ s.look.value.toNat >>> s.look.vshift.toNat)
    (hhi : s.look.value.toNat >>> s.look.vshift.toNat < b) :
    ∃ l, takeValue a s = .ok () { s with look := l } ∧ l.value.toNat < (b - a) <<< s.look.vshift.toNat ∧
      l = { s.look with value := l.value } := by
  have hp : 0 < 2 ^ s.look.vshift.toNat := Nat.two_pow_pos _
  rw [Nat.shiftRight_eq_div_pow] at hlo hhi
  have h1 : a * 2 ^ s.look.vshift.toNat ≤ s.look.value.toNat := (Nat.le_div_iff_mul_le hp).mp hlo
  have h2 : s.look.value.toNat < b * 2 ^ s.look.vshift.toNat := (Nat.div_lt_iff_lt_mul hp).mp hhi
  have h3 : ¬ s.look.value.toNat < a <<< s.look.vshift.toNat := by rw [Nat.shiftLeft_eq]; omega
  unfold takeValue
  rw [if_neg h3]
  refine ⟨_, rfl, ?_, rfl⟩
  rw [toWord_toNat (by have := s.look.value.isLt; omega), Nat.shiftLeft_eq, Nat.shiftLeft_eq, Nat.sub_mul]
  omega

/-- What SymbolSteps gives the decoder from a state that meets R27, in a file that has begun, on a range that holds the
code (R145, R163): R27 again; FreeEndEscape, as in the encoder; or a hold where the host fails its IN duty. -/
theorem symbolSteps_dec {lo hi p : Nat} {c : Bool} {s : State} (he : EngineInv s.engine) (hv : ValueInv s.engine s.look)
    (hf : FollowInv s.look) (hb : s.fi.first = false) (hlt : lo < hi) (hle : hi ≤ p) (hp : p ≤ 0x8000)
    (hlo : s.engine.scale lo p ≤ s.look.value.toNat >>> s.look.vshift.toNat)
    (hhi : s.look.value.toNat >>> s.look.vshift.toNat < s.engine.scale hi p) :
    (∃ u, symbolSteps lo hi p c .dec s = .ok () u ∧ EngineInv u.engine ∧ ValueInv u.engine u.look ∧ FollowInv u.look ∧
        DecFrame s u ∧ FileKept s u) ∨
    (∃ u, symbolSteps lo hi p c .dec s = .raised .freeEndEscape u ∧ DecFrame s u ∧
        ¬ (s.engine.feven ≠ 0 ∧ p ≤ 0x4000)) ∨
    (symbolSteps lo hi p c .dec s = .held ∧ ¬ inDuty s) := by
  rw [symbolSteps_eq he hlt hle hp]
  simp only [takeValueIf]
  have hrng := narrowedEngine_range_toNat (c := c) he hlt hle hp
  have hsc := Engine.scale_bounds (e := s.engine) hlt hle (by have := he.rangeAbove; omega)
  generalize hne : (s.engine.reserveIf c).narrowTo (s.engine.scale lo p) (s.engine.scale hi p) = ne
  obtain ⟨l, htv, hlv, hle2⟩ := takeValue_ok (s := { s with engine := ne }) hlo hhi
  rw [htv, Res.ok_andThen]
  have hvs : l.vshift = s.look.vshift := by rw [hle2]
  have hfl : FollowInv l := by rw [hle2]; exact hf
  have hframe : ∀ f, DecFrame s { s with engine := f, look := l } := fun f => ⟨rfl, List.suffix_rfl, fun h => ⟨h, rfl⟩⟩
  have hkept : ∀ f, FileKept s { s with engine := f, look := l } := fun f => ⟨id, id⟩
  rcases cap_narrowed (c := c) (t := { s with engine := ne.reseat, look := l }) he hlt hle hp (by rw [← hne]; rfl) with
    ⟨f, h1, -, hmid, hr, -, -⟩ | ⟨f, h1, hg⟩
  · rw [h1, Res.ok_andThen]
    have hpos : 0x8000 < 2 ^ 16 * f.range.toNat := by rw [hr, hrng]; omega
    have hval : ValueInv f l := ⟨by rw [hr, hrng, hvs]; exact hlv, by rw [hvs]; exact hv.vshiftMost⟩
    unfold renorm
    rcases renormLoop_dec (n := 16) (s := { s with engine := f, look := l }) hmid hval hfl hb hpos with
      ⟨u, k1, k2, k3, k4, k5, k6⟩ | ⟨k1, k2⟩
    · exact .inl ⟨u, k1, k2, k3, k4, (hframe f).trans k5, (hkept f).trans k6⟩
    · exact .inr (.inr ⟨k1, fun hd => k2 ((hkept f).duty hd)⟩)
  · rw [h1, Res.raised_andThen]
    exact .inr (.inl ⟨_, rfl, hframe f, hg⟩)

/-- SymbolSteps moves the interval engine alike in both directions (R145, R158). -/
theorem symbolSteps_engine {lo hi p : Nat} {c : Bool} {dir : Dir} {s u : State} (he : EngineInv s.engine) (hlt : lo < hi)
    (hle : hi ≤ p) (hp : p ≤ 0x8000) (h : symbolSteps lo hi p c dir s = .ok () u) :
    u.engine = symbolEngine lo hi p c s.engine := by
  rw [symbolSteps_eq he hlt hle hp] at h
  obtain ⟨_, v, hv, h2⟩ := Res.andThen_eq_ok.mp h
  obtain ⟨_, w, hw, h3⟩ := Res.andThen_eq_ok.mp h2
  have hve : v.engine = (s.engine.reserveIf c).narrowTo (s.engine.scale lo p) (s.engine.scale hi p) := by
    cases dir with
    | enc => obtain ⟨-, rfl⟩ := Res.ok.inj hv; rfl
    | dec =>
      simp only [takeValueIf, takeValue] at hv
      split at hv
      · simp at hv
      · obtain ⟨-, rfl⟩ := Res.ok.inj hv; rfl
  have hwe : w.engine = ((narrowedEngine lo hi p c s.engine).capLoop 32).2 := by
    unfold cap at hw
    simp only [hve] at hw
    split at hw
    · obtain ⟨-, rfl⟩ := Res.ok.inj hw; rfl
    · simp at hw
  rw [renormLoop_engine h3, hwe]
  rfl

/-- Detach does not write RANGE (R148). -/
theorem detachIf_range {dir : Dir} {s u : State} (h : detachIf dir s = .ok () u) : u.engine.range = s.engine.range := by
  rw [detachIf_engine h]; split <;> rfl

/-- A doubled RANGE is exact (R147). -/
theorem double_range_toNat {e : Engine} (h : e.range.toNat ≤ 0x8000) : e.double.range.toNat = 2 * e.range.toNat := by
  show (e.range <<< 1).toNat = _
  rw [BitVec.toNat_shiftLeft, Nat.shiftLeft_eq]; omega

/-- Turns beyond those that bring RANGE above 0x8000 change nothing (R146). -/
theorem renormLoop_more {n : Nat} {dir : Dir} {s : State} (h : 0x8000 < 2 ^ n * s.engine.range.toNat)
    (hr : s.engine.range.toNat ≤ 0x10000) : renormLoop (n + 1) dir s = renormLoop n dir s := by
  induction n generalizing s with
  | zero =>
    unfold renormLoop
    rw [if_neg (by show ¬ _ ≤ 0x8000; omega)]
  | succ n ih =>
    rw [renormLoop, renormLoop]
    split
    · next hle =>
      have hle : s.engine.range.toNat ≤ 0x8000 := hle
      refine Res.andThen_congr fun _ u hu => Res.andThen_congr fun _ v hv => ?_
      have h1 := detachIf_range hv
      have h2 : v.engine.range.toNat = 2 * s.engine.range.toNat := by
        rw [h1]; show u.engine.double.range.toNat = _
        rw [pullIf_engine hu, double_range_toNat hle]
      exact ih (by rw [h2, Nat.mul_left_comm, ← Nat.mul_assoc, Nat.mul_comm 2, ← Nat.pow_succ]; exact h) (by omega)
    · rfl

/-- What the decoder's symbol steps did when they returned (R145): the scaled `newl` came off VALUE, Cap ended inside, and
Renorm ran from there. -/
theorem symbolSteps_dec_ok {lo hi p : Nat} {c : Bool} {s u : State} (he : EngineInv s.engine) (hlt : lo < hi)
    (hle : hi ≤ p) (hp : p ≤ 0x8000) (h : symbolSteps lo hi p c .dec s = .ok () u) :
    s.engine.scale lo p <<< s.look.vshift.toNat ≤ s.look.value.toNat ∧
    ((narrowedEngine lo hi p c s.engine).capLoop 32).1 = true ∧
    renorm .dec { s with
      engine := ((narrowedEngine lo hi p c s.engine).capLoop 32).2
      look := { s.look with value := toWord (s.look.value.toNat - s.engine.scale lo p <<< s.look.vshift.toNat) } } = .ok () u := by
  rw [symbolSteps_eq he hlt hle hp] at h
  obtain ⟨_, v, hv, h2⟩ := Res.andThen_eq_ok.mp h
  obtain ⟨_, w, hw, h3⟩ := Res.andThen_eq_ok.mp h2
  simp only [takeValueIf, takeValue] at hv
  split at hv
  · simp at hv
  · next hlt =>
    obtain ⟨-, rfl⟩ := Res.ok.inj hv
    refine ⟨Nat.not_lt.mp hlt, ?_⟩
    unfold cap at hw
    dsimp only at hw
    split at hw
    · next hc => obtain ⟨-, rfl⟩ := Res.ok.inj hw; exact ⟨hc, h3⟩
    · simp at hw

end Sys2Proof.Machine
end

