-- ==== Sys2Proof/Laws/Stream.lean ====
section
/-!
SUPPORT. Laws/Stream.lean: what the ends of a stream can do: End (41_coder.md R154), DecStart (R159) and Exhausted (R165).
-/

namespace Sys2Proof.Machine

theorem coderEnd_frame (s : State) : (coderEnd s).All (CarryFrame s) := by
  unfold coderEnd
  refine (byteWithCarry_frame _ s).andThen (fun _ h => h) fun _ u _ hu => ?_
  refine ((byteWithCarry_frame _ u).mono fun _ h => hu.trans h).andThen (fun _ h => h) fun _ v _ hv => ?_
  refine ((byteWithCarry_frame _ v).mono fun _ h => hv.trans h).andThen (fun _ h => h) fun _ w _ hw => ?_
  split
  · exact (byteWithCarry_frame _ w).mono fun _ h => hw.trans h
  · exact hw

theorem coderEnd_not_held {s : State} : coderEnd s ≠ .held := by
  intro h
  rcases Res.andThen_eq_held.mp h with h | ⟨_, u, _, h⟩
  · exact byteWithCarry_not_held h
  rcases Res.andThen_eq_held.mp h with h | ⟨_, v, _, h⟩
  · exact byteWithCarry_not_held h
  rcases Res.andThen_eq_held.mp h with h | ⟨_, w, _, h⟩
  · exact byteWithCarry_not_held h
  split at h
  · exact byteWithCarry_not_held h
  · simp at h

/-- End's first value carries only where the pending byte can take a carry (R152, R154). -/
theorem endFirst_le {e : Engine} {c : Carry} (he : EngineInv e) (hc : CarryInv e c)
    (h : c.buf = 0 ∨ c.byte = 0xFF) : (e.nfe.toNat <<< (24 - e.ibits.toNat)) >>> 16 ≤ 255 := by
  have h1 : e.low.toNat + e.range.toNat ≤ 2 ^ e.ibits.toNat := hc h
  have h2 := he.freeEndBelow
  have h3 := he.ibitsMost
  have hlt : e.nfe.toNat * 2 ^ (24 - e.ibits.toNat) < 2 ^ 24 := by
    calc e.nfe.toNat * 2 ^ (24 - e.ibits.toNat) < 2 ^ e.ibits.toNat * 2 ^ (24 - e.ibits.toNat) :=
          Nat.mul_lt_mul_of_pos_right (by omega) (Nat.two_pow_pos _)
      _ = 2 ^ 24 := by rw [← Nat.pow_add]; congr 1; omega
  rw [Nat.shiftLeft_eq, Nat.shiftRight_eq_div_pow]
  omega

theorem and_ff_le (n : Nat) : n &&& 0xFF ≤ 255 := Nat.and_le_right

/-- What End does to a stream that meets its invariants (R154): the flush runs and leaves a pending zero, or a counter
overflows. -/
theorem coderEnd_spec {s : State} (he : EngineInv s.engine) (hc : CarryInv s.engine s.carry) (hf : FoInv s.fo) :
    (∃ u, coderEnd s = .ok () u ∧ CarryFrame s u ∧ u.carry = { byte := 0, buf := 1 } ∧ FoInv u.fo) ∨
    (∃ u, coderEnd s = .raised .counterOverflow u ∧ CarryFrame s u) := by
  have hframe := coderEnd_frame s
  cases hr : coderEnd s with
  | held => exact absurd hr coderEnd_not_held
  | raised c u =>
    rw [hr] at hframe
    refine .inr ⟨u, ?_, hframe⟩
    congr 1
    rcases Res.andThen_eq_raised.mp hr with h | ⟨_, u, _, h⟩
    · exact byteWithCarry_raised h (endFirst_le he hc)
    rcases Res.andThen_eq_raised.mp h with h | ⟨_, v, _, h⟩
    · exact byteWithCarry_raised h fun _ => and_ff_le _
    rcases Res.andThen_eq_raised.mp h with h | ⟨_, w, _, h⟩
    · exact byteWithCarry_raised h fun _ => and_ff_le _
    split at h
    · exact byteWithCarry_raised h fun _ => Nat.zero_le _
    · simp at h
  | ok a u =>
    rw [hr] at hframe
    refine .inl ⟨u, rfl, hframe, ?_⟩
    obtain ⟨_, v, hv, h⟩ := Res.andThen_eq_ok.mp hr
    obtain ⟨_, w, hw, h⟩ := Res.andThen_eq_ok.mp h
    obtain ⟨_, x, hx, h⟩ := Res.andThen_eq_ok.mp h
    have hfx := (byteWithCarry_ok hx).2 ((byteWithCarry_ok hw).2 ((byteWithCarry_ok hv).2 hf))
    rw [if_pos (byteWithCarry_pending hx)] at h
    obtain ⟨h1, h2⟩ := byteWithCarry_ok h
    exact ⟨by rw [h1]; simp [carryAfter, toByte], h2 hfx⟩

/-- With room in the run counters, End completes and has put a stream byte (R154). -/
theorem coderEnd_returns {s : State} (he : EngineInv s.engine) (hc : CarryInv s.engine s.carry) (hf : FoInv s.fo)
    (hroom : pendingCount s + 4 < 2 ^ 32) : ∃ u, coderEnd s = .ok () u ∧ u.fo.first = false := by
  obtain ⟨v, hv, p1, -⟩ := byteWithCarry_returns (b := (s.engine.nfe.toNat <<< (24 - s.engine.ibits.toNat)) >>> 16) hf
    (by omega) (endFirst_le he hc)
  have f1 := (byteWithCarry_ok hv).2 hf
  obtain ⟨w, hw, p2, -⟩ := byteWithCarry_returns (b := ((s.engine.nfe.toNat <<< (24 - s.engine.ibits.toNat)) >>> 8) &&& 0xFF) f1
    (by omega) (fun _ => and_ff_le _)
  have f2 := (byteWithCarry_ok hw).2 f1
  obtain ⟨x, hx, p3, -⟩ := byteWithCarry_returns (b := (s.engine.nfe.toNat <<< (24 - s.engine.ibits.toNat)) &&& 0xFF) f2
    (by omega) (fun _ => and_ff_le _)
  have f3 := (byteWithCarry_ok hx).2 f2
  have hb := byteWithCarry_pending hx
  obtain ⟨y, hy, -, hfirst⟩ := byteWithCarry_returns (b := 0) f3 (by omega) (fun _ => Nat.zero_le _)
  refine ⟨y, ?_, hfirst (.inr ⟨hb, by omega⟩)⟩
  unfold coderEnd
  dsimp only
  rw [hv, Res.ok_andThen, hw, Res.ok_andThen, hx, Res.ok_andThen, if_pos hb, hy]

theorem decStart_frame (s : State) : (decStart s).All (LookFrame s) := by
  unfold decStart
  refine (nextByte_frame s).andThen (fun _ h => h) fun _ u _ hu => ?_
  refine ((nextByte_frame _).mono fun _ h => (hu.trans (LookFrame.setLook u _)).trans h).andThen (fun _ h => h)
    fun _ v _ hv => ?_
  exact hv.trans (LookFrame.setLook v _)

theorem fiNext_item {s : State} (he : s.fi.eof = false) {item : InItem} {rest : List InItem} (hi : s.inp = item :: rest) :
    fiNext s = fiItem item { s with inp := rest } := by
  unfold fiNext
  rw [if_neg (by simp [he]), fileIn_cons hi, Res.ok_andThen]

theorem nextByte_fresh {s : State} (h1 : s.look.followBuf = 0) (h2 : s.look.fbValid = false) :
    nextByte s = (fiNext s).andThen fun t s => .ok t.1 s := by
  unfold nextByte
  rw [if_neg (by simp [h1]), if_neg (by simp [h2])]

/-- What DecStart gives a fresh look-ahead (R159). -/
theorem decStart_ok {s u : State} (h : decStart s = .ok () u) (hb : s.look.followBuf = 0) (hv : s.look.fbValid = false)
    (hf : FollowInv s.look) (he : s.fi.eof = false) :
    u.look.value.toNat < 0x10000 ∧ u.look.vshift = 0 ∧ FollowInv u.look ∧ u.fi.first = false := by
  obtain ⟨t0, v, h0, h⟩ := Res.andThen_eq_ok.mp h
  obtain ⟨t1, w, h1, h⟩ := Res.andThen_eq_ok.mp h
  obtain ⟨-, rfl⟩ := Res.ok.inj h
  obtain ⟨k0, f0, -, -⟩ := nextByte_kept h0 hf
  obtain ⟨k1, f1, v1, -⟩ := nextByte_kept h1 f0
  have hbeg : v.fi.first = false := by
    rw [nextByte_fresh hb hv] at h0
    obtain ⟨r, x, hx, h2⟩ := Res.andThen_eq_ok.mp h0
    obtain ⟨-, rfl⟩ := Res.ok.inj h2
    exact fiNext_begins hx he
  have ht0 := t0.isLt
  have ht1 := t1.isLt
  refine ⟨?_, rfl, f1, k1.begun hbeg⟩
  show (toWord (w.look.value.toNat ||| t1.toNat)).toNat < _
  rw [v1]
  have e0 : (toWord (t0.toNat <<< 8)).toNat = t0.toNat <<< 8 := toWord_toNat (by rw [Nat.shiftLeft_eq]; omega)
  show (toWord ((toWord (t0.toNat <<< 8)).toNat ||| t1.toNat)).toNat < _
  rw [e0, ← Nat.shiftLeft_add_eq_or_of_lt ht1, Nat.shiftLeft_eq, toWord_toNat (by omega)]
  omega

theorem decStart_raised {s u : State} {c : Cause} (h : decStart s = .raised c u) : c = .emptyStream := by
  have hn : ∀ {x y : State} {c : Cause}, nextByte x = .raised c y → c = .emptyStream := by
    intro x y c hx
    unfold nextByte at hx
    split at hx
    · simp at hx
    · split at hx
      · simp at hx
      · rcases Res.andThen_eq_raised.mp hx with h1 | ⟨_, v, _, h2⟩
        · exact (fiNext_raised h1).1
        · simp at h2
  rcases Res.andThen_eq_raised.mp h with h1 | ⟨_, v, _, h2⟩
  · exact hn h1
  · rcases Res.andThen_eq_raised.mp h2 with h3 | ⟨_, w, _, h4⟩
    · exact hn h3
    · simp at h4

theorem exhaustedLoop_frame (n : Nat) (s : State) : (exhaustedLoop n s).All (LookFrame s) := by
  induction n generalizing s with
  | zero => trivial
  | succ n ih =>
    unfold exhaustedLoop
    split
    · exact LookFrame.refl s
    · refine ((fiNext_frame s).mono fun _ h => h.toLook).andThen (fun _ h => h) fun t u _ hu => ?_
      split
      · exact hu
      · split
        · split
          · exact hu
          · exact (ih _).mono fun _ h => (hu.trans (LookFrame.setLook u _)).trans h
        · exact (ih _).mono fun _ h => (hu.trans (LookFrame.setLook u _)).trans h

/-- Exhausted moves bytes into the held zeros and the held byte only (R165). -/
theorem exhaustedLoop_ok {n : Nat} {s u : State} {b : Bool} (h : exhaustedLoop n s = .ok b u) (hf : FollowInv s.look) :
    FileKept s u ∧ FollowInv u.look ∧ u.look.value = s.look.value ∧ u.look.vshift = s.look.vshift := by
  induction n generalizing s with
  | zero => simp [exhaustedLoop] at h
  | succ n ih =>
    unfold exhaustedLoop at h
    split at h
    · obtain ⟨-, rfl⟩ := Res.ok.inj h; exact ⟨FileKept.refl s, hf, rfl, rfl⟩
    · next hv =>
      obtain ⟨t, v, h1, h⟩ := Res.andThen_eq_ok.mp h
      have hfr := fiNext_frame s
      rw [h1] at hfr
      have hk := fiNext_kept h1
      have hl : v.look = s.look := by rw [FiFrame.rest hfr]
      have hval : v.look.value = s.look.value := by rw [hl]
      have hvs : v.look.vshift = s.look.vshift := by rw [hl]
      split at h
      · obtain ⟨-, rfl⟩ := Res.ok.inj h; exact ⟨hk, by rw [hl]; exact hf, by rw [hl], by rw [hl]⟩
      · split at h
        · split at h
          · simp at h
          · obtain ⟨a, b, c, d⟩ := ih h (by simp only [hl]; exact hf)
            exact ⟨hk.trans ((FileKept.setLook v _).trans a), b, c.trans hval, d.trans hvs⟩
        · next hne =>
          obtain ⟨a, b, c, d⟩ := ih h (iff_of_true rfl hne)
          exact ⟨hk.trans ((FileKept.setLook v _).trans a), b, c.trans hval, d.trans hvs⟩

/-- A byte FI_Next returns as zero with more to come was a file byte (R105). -/
theorem fiNext_zero {s u : State} {t : Byte × Bool} (h : fiNext s = .ok t u) (hz : t.2 = false) (h0 : t.1 = 0) :
    u.inp.length + 1 = s.inp.length ∧ u.fi.eof = false := by
  have htail : ∀ f : FiSide, (fiTail f).1.2 = false → (fiTail f).1.1 ≠ 0 := by
    intro f; unfold fiTail; split <;> simp
  unfold fiNext at h
  split at h
  · obtain ⟨rfl, -⟩ := Res.ok.inj h; exact absurd h0 (htail _ hz)
  · next he =>
    cases hin : s.inp with
    | nil => rw [fileIn_nil hin] at h; simp at h
    | cons item rest =>
      rw [fileIn_cons hin, Res.ok_andThen] at h
      cases item with
      | eof =>
        simp only [fiItem] at h
        split at h
        · simp at h
        · obtain ⟨rfl, -⟩ := Res.ok.inj h; exact absurd h0 (htail _ hz)
      | byte b =>
        obtain ⟨-, rfl⟩ := Res.ok.inj h
        exact ⟨by simp, by rw [fiByte_eof]; simpa using he⟩

theorem exhaustedLoop_raised {n : Nat} {s u : State} {c : Cause} (h : exhaustedLoop n s = .raised c u)
    (hb : s.fi.first = false) : c = .counterOverflow ∧ ¬ s.look.followBuf.toNat + s.inp.length < 2 ^ 32 := by
  induction n generalizing s with
  | zero => simp [exhaustedLoop] at h
  | succ n ih =>
    unfold exhaustedLoop at h
    split at h
    · simp at h
    · rcases Res.andThen_eq_raised.mp h with h1 | ⟨t, v, h1, h⟩
      · have := (fiNext_raised h1).2.2.1
        rw [hb] at this; simp at this
      · have hfr := fiNext_frame s
        rw [h1] at hfr
        have hl : v.look = s.look := by rw [FiFrame.rest hfr]
        have hbv := (fiNext_kept h1).begun hb
        split at h
        · simp at h
        · next hz =>
          have hz : t.2 = false := by simpa using hz
          split at h
          · next h0 =>
            have hlen := (fiNext_zero h1 hz h0).1
            split at h
            · next hmax =>
              obtain ⟨rfl, -⟩ := Res.raised.inj h
              refine ⟨rfl, ?_⟩
              rw [← hl, hmax]
              show ¬ (4294967295 + _ < 2 ^ 32)
              omega
            · next hmax =>
              have hm : v.look.followBuf.toNat ≠ 4294967295 := fun e => hmax (BitVec.eq_of_toNat_eq e)
              have hlt := v.look.followBuf.isLt
              have := ih h hbv
              have e1 : (v.look.followBuf + 1).toNat = v.look.followBuf.toNat + 1 := by
                rw [BitVec.toNat_add]; show (_ + 1) % _ = _; omega
              refine ⟨this.1, ?_⟩
              have h2 := this.2
              simp only [e1] at h2
              rw [hl] at h2
              omega
          · cases n with
            | zero => simp [exhaustedLoop] at h
            | succ n => simp [exhaustedLoop] at h

/-- The turns `exhausted` gives are enough: it holds only for want of an IN item. -/
theorem exhaustedLoop_not_held {n : Nat} {s : State} (hd : inDuty s)
    (hn : s.inp.length + 2 ≤ n ∨ (s.look.fbValid = true ∧ 1 ≤ n)) : exhaustedLoop n s ≠ .held := by
  induction n generalizing s with
  | zero => omega
  | succ n ih =>
    intro h
    unfold exhaustedLoop at h
    split at h
    · simp at h
    · next hv =>
      have hn : s.inp.length + 2 ≤ n + 1 := by
        rcases hn with hn | hn
        · exact hn
        · exact absurd hn.1 hv
      rcases Res.andThen_eq_held.mp h with h1 | ⟨t, v, h1, h⟩
      · have := fiNext_held_iff.mp h1
        rcases hd with hd | hd
        · rw [this.1] at hd; simp at hd
        · rw [this.2] at hd; simp at hd
      · have hdv := fiNext_ok h1 hd
        split at h
        · simp at h
        · next hz =>
          have hz : t.2 = false := by simpa using hz
          split at h
          · next h0 =>
            have hlen := (fiNext_zero h1 hz h0).1
            split at h
            · simp at h
            · exact ih (s := { v with look := { v.look with followBuf := v.look.followBuf + 1 } }) hdv
                (.inl (by show v.inp.length + 2 ≤ n; omega)) h
          · exact ih (s := { v with look := { v.look with followByte := t.1, fbValid := true } }) hdv (.inr ⟨rfl, by omega⟩) h

theorem endTest_frame (c : Bool) (s : State) : (endTest c s).All (LookFrame s) := by
  unfold endTest
  split
  · exact exhaustedLoop_frame _ s
  · exact LookFrame.refl s

theorem endTest_ok {c b : Bool} {s u : State} (h : endTest c s = .ok b u) (hf : FollowInv s.look) :
    FileKept s u ∧ FollowInv u.look ∧ u.look.value = s.look.value ∧ u.look.vshift = s.look.vshift := by
  unfold endTest at h
  split at h
  · exact exhaustedLoop_ok h hf
  · obtain ⟨-, rfl⟩ := Res.ok.inj h; exact ⟨FileKept.refl s, hf, rfl, rfl⟩

theorem endTest_raised {c : Bool} {s u : State} {k : Cause} (h : endTest c s = .raised k u) (hb : s.fi.first = false) :
    k = .counterOverflow ∧ ¬ s.look.followBuf.toNat + s.inp.length < 2 ^ 32 := by
  unfold endTest at h
  split at h
  · exact exhaustedLoop_raised h hb
  · simp at h

theorem endTest_not_held {c : Bool} {s : State} (hd : inDuty s) : endTest c s ≠ .held := by
  unfold endTest
  split
  · exact exhaustedLoop_not_held hd (.inl (by omega))
  · simp

end Sys2Proof.Machine
end

