-- ==== Sys2Proof/Laws/Frames.lean ====
section
/-!
SUPPORT. Laws/Frames.lean: what a whole symbol may write, in every state: the encoder's steps, the decoder's steps, and
that only the decoder's reads can hold (41_coder.md R145, R153, R162; 40_fobit.md R110).
-/

namespace Sys2Proof.Machine

/-- A step of the interval engine alone. -/
def EngineOnly (s t : State) : Prop := t = { s with engine := t.engine }

theorem EngineOnly.toEnc {s t : State} (h : EngineOnly s t) : EncFrame s t :=
  ⟨by unfold EngineOnly at h; rw [h], by unfold EngineOnly at h; rw [h]⟩

theorem EngineOnly.toDec {s t : State} (h : EngineOnly s t) : DecFrame s t := by
  unfold EngineOnly at h; rw [h]; exact DecFrame.setEngine s _

theorem narrow_frame (lo hi p : Nat) (s : State) : (narrow lo hi p s).All (EngineOnly s) := by
  unfold narrow
  split
  · dsimp only
    split <;> exact rfl
  · exact rfl

theorem narrow_not_held {lo hi p : Nat} {s : State} : narrow lo hi p s ≠ .held := by
  unfold narrow
  split
  · dsimp only
    split <;> simp
  · simp

theorem cap_frame (s : State) : (cap s).All (EngineOnly s) := by
  unfold cap
  dsimp only
  split <;> exact rfl

theorem cap_not_held {s : State} : cap s ≠ .held := by
  unfold cap
  dsimp only
  split <;> simp

theorem detachIf_encFrame (s : State) : (detachIf .enc s).All (EncFrame s) := by
  unfold detachIf
  split
  · unfold detach
    refine ((byteWithCarry_frame _ s).mono fun _ h => CarryFrame.toEnc h).andThen (fun _ h => h) fun _ u _ hu => ?_
    exact hu.trans (EncFrame.setEngine u _)
  · exact EncFrame.refl s

theorem detachIf_decFrame (s : State) : (detachIf .dec s).All (EngineOnly s) := by
  unfold detachIf
  split <;> exact rfl

theorem detachIf_not_held {dir : Dir} {s : State} : detachIf dir s ≠ .held := by
  unfold detachIf
  split
  · cases dir with
    | enc =>
      intro h
      rcases Res.andThen_eq_held.mp h with h | ⟨_, u, _, h⟩
      · exact byteWithCarry_not_held h
      · simp at h
    | dec => simp [detach]
  · simp

theorem renormLoop_encFrame (n : Nat) (s : State) : (renormLoop n .enc s).All (EncFrame s) := by
  induction n generalizing s with
  | zero => exact EncFrame.refl s
  | succ n ih =>
    unfold renormLoop
    split
    · rw [show pullIf .enc s = .ok () s from rfl, Res.ok_andThen]
      refine ((detachIf_encFrame _).mono fun _ h => (EncFrame.setEngine s _).trans h).andThen (fun _ h => h) fun _ u _ hu => ?_
      exact (ih u).mono fun _ h => hu.trans h
    · exact EncFrame.refl s

theorem renormLoop_decFrame (n : Nat) (s : State) : (renormLoop n .dec s).All (DecFrame s) := by
  induction n generalizing s with
  | zero => exact DecFrame.refl s
  | succ n ih =>
    unfold renormLoop
    split
    · refine ((pull_frame s).mono fun _ h => h.toDec).andThen (fun _ h => h) fun _ u _ hu => ?_
      refine ((detachIf_decFrame _).mono fun _ h => (hu.trans (DecFrame.setEngine u _)).trans h.toDec).andThen (fun _ h => h)
        fun _ v _ hv => ?_
      exact (ih v).mono fun _ h => hv.trans h
    · exact DecFrame.refl s

theorem takeValue_frame (a : Nat) (s : State) : (takeValue a s).All (LookFrame s) := by
  unfold takeValue
  split
  · exact LookFrame.refl s
  · exact LookFrame.setLook s _

/-- What ENC_SYM's symbol steps may write, in every state. -/
theorem symbolSteps_encFrame (lo hi p : Nat) (c : Bool) (s : State) : (symbolSteps lo hi p c .enc s).All (EncFrame s) := by
  unfold symbolSteps
  refine ((narrow_frame _ _ _ _).mono fun _ h => (EncFrame.setEngine s _).trans h.toEnc).andThen (fun _ h => h)
    fun a u _ hu => ?_
  rw [show takeValueIf .enc a u = .ok () u from rfl, Res.ok_andThen]
  refine ((cap_frame _).mono fun _ h => (hu.trans (EncFrame.setEngine u _)).trans h.toEnc).andThen (fun _ h => h)
    fun _ v _ hv => ?_
  exact (renormLoop_encFrame 16 v).mono fun _ h => hv.trans h

/-- What DEC_SYM's symbol steps may write, in every state. -/
theorem symbolSteps_decFrame (lo hi p : Nat) (c : Bool) (s : State) : (symbolSteps lo hi p c .dec s).All (DecFrame s) := by
  unfold symbolSteps
  refine ((narrow_frame _ _ _ _).mono fun _ h => (DecFrame.setEngine s _).trans h.toDec).andThen (fun _ h => h)
    fun a u _ hu => ?_
  refine ((takeValue_frame a u).mono fun _ h => hu.trans h.toDec).andThen (fun _ h => h) fun _ w _ hw => ?_
  refine ((cap_frame _).mono fun _ h => (hw.trans (DecFrame.setEngine w _)).trans h.toDec).andThen (fun _ h => h)
    fun _ v _ hv => ?_
  exact (renormLoop_decFrame 16 v).mono fun _ h => hv.trans h

theorem renormLoop_enc_not_held {n : Nat} {s : State} : renormLoop n .enc s ≠ .held := by
  induction n generalizing s with
  | zero => simp [renormLoop]
  | succ n ih =>
    unfold renormLoop
    split
    · rw [show pullIf .enc s = .ok () s from rfl, Res.ok_andThen]
      intro h
      rcases Res.andThen_eq_held.mp h with h | ⟨_, u, _, h⟩
      · exact detachIf_not_held h
      · exact ih h
    · simp

theorem symbolSteps_enc_not_held {lo hi p : Nat} {c : Bool} {s : State} : symbolSteps lo hi p c .enc s ≠ .held := by
  intro h
  rcases Res.andThen_eq_held.mp h with h | ⟨_, u, _, h⟩
  · exact narrow_not_held h
  rcases Res.andThen_eq_held.mp h with h | ⟨_, v, _, h⟩
  · simp [takeValueIf] at h
  rcases Res.andThen_eq_held.mp h with h | ⟨_, w, _, h⟩
  · exact cap_not_held h
  · exact renormLoop_enc_not_held h

theorem encodeSymbol_frame (sym : Nat) (c : Bool) (s : State) : (encodeSymbol sym c s).All (EncFrame s) := by
  unfold encodeSymbol symRange
  split
  · exact symbolSteps_encFrame _ _ _ _ _
  · exact EncFrame.refl s

theorem encodeSymbol_not_held {sym : Nat} {c : Bool} {s : State} : encodeSymbol sym c s ≠ .held := by
  unfold encodeSymbol symRange
  split
  · exact symbolSteps_enc_not_held
  · simp

/-- What DEC_SYM may write when the stream goes on (R162). -/
theorem decodeSymbol_frame (c : Bool) (s : State) :
    (decodeSymbol c s).All fun t => DecFrame s { t with res0 := s.res0, res1 := s.res1 } := by
  unfold decodeSymbol getSymbol
  split
  · refine ((symbolSteps_decFrame _ _ _ _ _).mono (Q := fun t => DecFrame s t) fun _ h => h).andThen (fun u h => ?_)
      fun _ u _ hu => ?_
    · have e : { u with res0 := s.res0, res1 := s.res1 } = u := by rw [h.rest]
      rw [e]; exact h
    · have e : { u with res0 := s.res0, res1 := s.res1 } = u := by rw [hu.rest]
      show DecFrame s { u with res0 := s.res0, res1 := s.res1 }
      rw [e]; exact hu
  · exact DecFrame.refl s

theorem nextByte_duty {s u : State} {t : Byte} (h : nextByte s = .ok t u) (hd : inDuty s) : inDuty u := by
  unfold nextByte at h
  split at h
  · obtain ⟨-, rfl⟩ := Res.ok.inj h; exact hd
  · split at h
    · obtain ⟨-, rfl⟩ := Res.ok.inj h; exact hd
    · obtain ⟨r, v, hv, h2⟩ := Res.andThen_eq_ok.mp h
      obtain ⟨-, rfl⟩ := Res.ok.inj h2
      exact fiNext_ok hv hd

theorem pull_duty {s u : State} (h : pull s = .ok () u) (hd : inDuty s) : inDuty u := by
  unfold pull at h
  split at h
  · obtain ⟨_, v, hv, h2⟩ := Res.andThen_eq_ok.mp h
    obtain ⟨-, rfl⟩ := Res.ok.inj h2
    have hdv : inDuty v := nextByte_duty hv hd
    exact hdv
  · obtain ⟨-, rfl⟩ := Res.ok.inj h; exact hd

theorem EngineOnly.duty {s t : State} (h : EngineOnly s t) (hd : inDuty s) : inDuty t := by
  unfold EngineOnly at h; rw [h]; exact hd

theorem renormLoop_dec_not_held {n : Nat} {s : State} (hd : inDuty s) : renormLoop n .dec s ≠ .held := by
  induction n generalizing s with
  | zero => simp [renormLoop]
  | succ n ih =>
    unfold renormLoop
    split
    · intro h
      rcases Res.andThen_eq_held.mp h with h | ⟨_, u, hu, h⟩
      · exact pull_not_held hd h
      · rcases Res.andThen_eq_held.mp h with h | ⟨_, v, hv, h⟩
        · exact detachIf_not_held h
        · have hfr := detachIf_decFrame { u with engine := u.engine.double }
          rw [hv] at hfr
          have hdu : inDuty u := pull_duty hu hd
          exact ih (EngineOnly.duty hfr hdu) h
    · simp

/-- The decoder's symbol steps hold only while the host owes an IN item (20_memory.md R61). -/
theorem symbolSteps_dec_not_held {lo hi p : Nat} {c : Bool} {s : State} (hd : inDuty s) :
    symbolSteps lo hi p c .dec s ≠ .held := by
  intro h
  rcases Res.andThen_eq_held.mp h with h | ⟨a, u, hu, h⟩
  · exact narrow_not_held h
  have hfu := narrow_frame lo hi p { s with engine := s.engine.reserveIf c }
  rw [hu] at hfu
  have hdu : inDuty u := EngineOnly.duty hfu hd
  rcases Res.andThen_eq_held.mp h with h | ⟨_, v, hv, h⟩
  · unfold takeValueIf takeValue at h
    dsimp only at h
    split at h <;> simp at h
  have hdv : inDuty v := by
    unfold takeValueIf takeValue at hv
    dsimp only at hv
    split at hv
    · simp at hv
    · obtain ⟨-, rfl⟩ := Res.ok.inj hv; exact hdu
  rcases Res.andThen_eq_held.mp h with h | ⟨_, w, hw, h⟩
  · exact cap_not_held h
  · have hfw := cap_frame { v with engine := v.engine.reseat }
    rw [hw] at hfw
    exact renormLoop_dec_not_held (EngineOnly.duty hfw hdv) h

theorem decodeSymbol_not_held {c : Bool} {s : State} (hd : inDuty s) : decodeSymbol c s ≠ .held := by
  unfold decodeSymbol getSymbol
  split
  · rw [Res.ok_andThen]
    intro h
    rcases Res.andThen_eq_held.mp h with h | ⟨_, u, _, h⟩
    · exact symbolSteps_dec_not_held hd h
    · simp at h
  · simp

theorem exhaustedLoop_duty {n : Nat} {s u : State} {b : Bool} (h : exhaustedLoop n s = .ok b u) (hd : inDuty s) :
    inDuty u := by
  induction n generalizing s with
  | zero => simp [exhaustedLoop] at h
  | succ n ih =>
    unfold exhaustedLoop at h
    split at h
    · obtain ⟨-, rfl⟩ := Res.ok.inj h; exact hd
    · obtain ⟨t, v, h1, h⟩ := Res.andThen_eq_ok.mp h
      have hv := fiNext_ok h1 hd
      split at h
      · obtain ⟨-, rfl⟩ := Res.ok.inj h; exact hv
      · split at h
        · split at h
          · simp at h
          · exact ih h hv
        · exact ih h hv

theorem endTest_duty {c b : Bool} {s u : State} (h : endTest c s = .ok b u) (hd : inDuty s) : inDuty u := by
  unfold endTest at h
  split at h
  · exact exhaustedLoop_duty h hd
  · obtain ⟨-, rfl⟩ := Res.ok.inj h; exact hd

end Sys2Proof.Machine
end

