-- ==== Sys2Proof/Laws/Commands.lean ====
section
/-!
SUPPORT. Laws/Commands.lean: what the body of each coder command does from a state that meets the invariant
(41_coder.md R153, R156, R162; 43_control.md R211, R212), stated on the bodies, before the command ends.
-/

namespace Sys2Proof.Machine

theorem LiveInv.valueDec {s : State} (h : LiveInv s) (hm : s.mode = .dec) : ValueInv s.engine s.look := h.value (.inl hm)

/-- The room of `counterRoom` as the run counters' sum. -/
theorem counterRoom_pending {s : State} (h : counterRoom s) : pendingCount s + 16 < 2 ^ 32 := by
  unfold counterRoom at h; unfold pendingCount; omega

/-- EncodeSymbol from a state that meets the invariant (R153). -/
theorem encodeSymbol_spec {s : State} {sym : Nat} {c : Bool} (h : Inv s) (hf : s.fault = false) (hm : s.mode = .enc)
    (hs : sym < s.params.nsym.toNat) :
    (∃ u, encodeSymbol sym c s = .ok () u ∧ EngineInv u.engine ∧ CarryInv u.engine u.carry ∧ FoInv u.fo ∧ EncFrame s u ∧
      u.engine = symbolEngine (leafSum s.model s.params.z sym)
        (leafSum s.model s.params.z sym + s.model.count (s.params.z + sym)) s.model.total c s.engine) ∨
    (∃ u, encodeSymbol sym c s = .raised .freeEndEscape u ∧ EncFrame s u ∧
      ¬ (s.engine.feven ≠ 0 ∧ s.model.total ≤ 0x4000)) ∨
    (∃ u, encodeSymbol sym c s = .raised .counterOverflow u ∧ EncFrame s u ∧ ¬ pendingCount s + 16 < 2 ^ 32) := by
  have hl := h.live hf
  have hv := rangeOf_valid h.admitted h.model hs
  have hr := rangeOf_leaves h.admitted h.model (Nat.lt_of_lt_of_le hs (nsym_le_z s.params))
  have htot := h.model.total_most h.admitted
  have he : encodeSymbol sym c s =
      symbolSteps (s.model.rangeOf s.params.depth sym).1 (s.model.rangeOf s.params.depth sym).2 s.model.total c .enc s := by
    unfold encodeSymbol symRange
    rw [if_pos (by simpa [symbolKnown] using hs)]
    rfl
  rw [he]
  rcases symbolSteps_enc (c := c) hl.engine (hl.carry hm) (hl.fo (by rw [hm]; simp)) hv.1 hv.2.1 htot with
    ⟨u, k1, k2, k3, k4, k5, -⟩ | ⟨u, k1, k2, k3⟩ | ⟨u, k1, k2, k3⟩
  · refine .inl ⟨u, k1, k2, k3, k4, k5, ?_⟩
    have := symbolSteps_engine hl.engine hv.1 hv.2.1 htot k1
    rw [this, hr]; rfl
  · exact .inr (.inl ⟨u, k1, k2, k3⟩)
  · exact .inr (.inr ⟨u, k1, k2, k3⟩)

/-- The symbol point lies below the total, and its symbol's range holds it (R163, R166). -/
theorem decodePoint {s : State} (h : Inv s) (hf : s.fault = false) (hm : s.mode = .dec) :
    symbolPoint s < s.model.total ∧ ∃ sym, sym < s.params.nsym.toNat ∧
      s.model.symbolAt s.params.depth (symbolPoint s) = (sym, s.model.rangeOf s.params.depth sym) ∧
      (s.model.rangeOf s.params.depth sym).1 ≤ symbolPoint s ∧ symbolPoint s < (s.model.rangeOf s.params.depth sym).2 := by
  have hl := h.live hf
  have hpos := h.model.total_pos h.admitted
  have hlt : symbolPoint s < s.model.total := symbolPoint_lt hpos (value_shift_lt (hl.valueDec hm))
  exact ⟨hlt, symbolAt_spec h.admitted h.model hlt⟩

/-- DEC_SYM's decoding of a symbol from a state that meets the invariant (R162, R163). -/
theorem decodeSymbol_spec {s : State} {c : Bool} (h : Inv s) (hf : s.fault = false) (hm : s.mode = .dec) :
    (∃ sym u, sym < s.params.nsym.toNat ∧ (s.model.rangeOf s.params.depth sym).1 ≤ symbolPoint s ∧
      symbolPoint s < (s.model.rangeOf s.params.depth sym).2 ∧
      decodeSymbol c s = .ok () (u.writeResults (zext32 sym)
        (packRange (s.model.rangeOf s.params.depth sym).2 (s.model.rangeOf s.params.depth sym).1)) ∧
      EngineInv u.engine ∧ ValueInv u.engine u.look ∧ FollowInv u.look ∧ DecFrame s u ∧ FileKept s u ∧
      u.engine = symbolEngine (s.model.rangeOf s.params.depth sym).1 (s.model.rangeOf s.params.depth sym).2 s.model.total c
        s.engine ∧
      symbolSteps (s.model.rangeOf s.params.depth sym).1 (s.model.rangeOf s.params.depth sym).2 s.model.total c .dec s =
        .ok () u) ∨
    (∃ u, decodeSymbol c s = .raised .freeEndEscape u ∧ DecFrame s u ∧ ¬ (s.engine.feven ≠ 0 ∧ s.model.total ≤ 0x4000)) ∨
    (decodeSymbol c s = .held ∧ ¬ inDuty s) := by
  have hl := h.live hf
  obtain ⟨hlt, sym, hsym, hat, hlo, hhi⟩ := decodePoint h hf hm
  have hv := rangeOf_valid h.admitted h.model hsym
  have htot := h.model.total_most h.admitted
  have hpos := h.model.total_pos h.admitted
  have hrp : 0 < s.engine.range.toNat := by have := hl.engine.rangeAbove; omega
  have hb := symbolPoint_bounds hpos hrp hlo hhi
  have he : decodeSymbol c s =
      (symbolSteps (s.model.rangeOf s.params.depth sym).1 (s.model.rangeOf s.params.depth sym).2 s.model.total c .dec s).andThen
        fun _ u => .ok () (u.writeResults (zext32 sym)
          (packRange (s.model.rangeOf s.params.depth sym).2 (s.model.rangeOf s.params.depth sym).1)) := by
    unfold decodeSymbol getSymbol
    rw [if_pos hlt, hat]
    rfl
  rw [he]
  rcases symbolSteps_dec (c := c) hl.engine (hl.valueDec hm) hl.follow (hl.fileBegun (.inl hm)) hv.1 hv.2.1 htot hb.1 hb.2 with
    ⟨u, k1, k2, k3, k4, k5, k6⟩ | ⟨u, k1, k2, k3⟩ | ⟨k1, k2⟩
  · refine .inl ⟨sym, u, hsym, hlo, hhi, by rw [k1]; rfl, k2, k3, k4, k5, k6, ?_, k1⟩
    exact symbolSteps_engine hl.engine hv.1 hv.2.1 htot k1
  · exact .inr (.inl ⟨u, by rw [k1]; rfl, k2, k3⟩)
  · exact .inr (.inr ⟨by rw [k1]; rfl, k2⟩)

/-- The registers INIT_ENC and INIT_DEC leave meet R27 (R209). -/
theorem Engine.reset_inv : EngineInv Engine.reset := by
  refine ⟨by decide, by decide, by decide, by decide, ⟨16, by decide, by decide⟩, by decide, .inl rfl, by decide, by decide,
    by decide⟩

theorem Engine.reset_noCarry : noCarryOut Engine.reset := by unfold noCarryOut; decide

theorem streamReset_modelInv {s : State} (h : s.params.admitted = true) : ModelInv s.params (streamReset s).model :=
  (modelInv_iff h).mpr (Model.reset_cells _ h)

end Sys2Proof.Machine
end

