-- ==== Sys2Proof/Laws/Decode.lean ====
section
/-!
SUPPORT. Laws/Decode.lean: the four fields of a word and the word are the same data (30_encoding.md R80).
-/

namespace Sys2Proof

/-- The fields of a word built from fields are those fields. -/
theorem splitWord_joinWord (c : Cmd) : splitWord (joinWord c) = c := by
  obtain ⟨op, flag, rsv, imm⟩ := c
  simp only [splitWord, joinWord, Cmd.mk.injEq]
  refine ⟨?_, ?_, ?_, ?_⟩
  · ext i hi
    simp only [BitVec.getElem_extractLsb', BitVec.getLsbD_append]
    simp [show ¬ (28 + i < 16) by omega, show ¬ (28 + i - 16 < 11) by omega, show ¬ (28 + i - 16 - 11 < 1) by omega,
      show 28 + i - 16 - 11 - 1 = i by omega, hi]
  · simp only [BitVec.getLsbD_append]
    simp
  · ext i hi
    simp only [BitVec.getElem_extractLsb', BitVec.getLsbD_append]
    simp [show ¬ (16 + i < 16) by omega, show 16 + i - 16 = i by omega, hi]
  · ext i hi
    simp only [BitVec.getElem_extractLsb', BitVec.getLsbD_append]
    simp [hi]

/-- A word is built from its fields. -/
theorem joinWord_splitWord (w : Word) : joinWord (splitWord w) = w := by
  simp only [splitWord, joinWord]
  ext i hi
  rw [← BitVec.getLsbD_eq_getElem, ← BitVec.getLsbD_eq_getElem]
  simp only [BitVec.getLsbD_append, BitVec.getLsbD_extractLsb', BitVec.getLsbD_ofBool]
  by_cases h1 : i < 16
  · simp [h1]
  · by_cases h2 : i - 16 < 11
    · simp [h1, h2, show 16 + (i - 16) = i by omega]
    · by_cases h3 : i - 16 - 11 < 1
      · have : i = 27 := by omega
        subst this
        simp
      · simp [h1, h2, h3, show i - 16 - 11 - 1 < 4 by omega, show 28 + (i - 16 - 11 - 1) = i by omega]

/-- The checks are four facts about the fields (R83). -/
theorem Cmd.wellFormed_iff (c : Cmd) :
    c.wellFormed = true ↔ c.opcodeDefined = true ∧ c.reservedClear = true ∧ c.flagAllowed = true ∧ c.operandAllowed = true := by
  simp [Cmd.wellFormed, and_assoc]

/-- A command with an operand is well formed whatever the operand (R83). -/
theorem Cmd.wellFormed_operand {op : BitVec 4} {flag : Bool} (imm : Half) (h1 : op.toNat < 0xC)
    (h2 : flag = false ∨ op = 0x3) (h3 : op = 0x3 ∨ op = 0x6 ∨ op = 0x9 ∨ op = 0xA ∨ op = 0xB) :
    (Cmd.mk op flag 0 imm).wellFormed = true := by
  refine (Cmd.wellFormed_iff _).mpr ⟨decide_eq_true h1, rfl, ?_, ?_⟩
  · rcases h2 with rfl | rfl <;> simp [Cmd.flagAllowed]
  · rcases h3 with rfl | rfl | rfl | rfl | rfl <;> simp [Cmd.operandAllowed]

/-- Past the four checks, decoding is the opcode map (R86). -/
theorem decodeCmd_wellFormed {c : Cmd} (h : c.wellFormed = true) : decodeCmd c = commandOf c := by
  obtain ⟨h1, h2, h3, h4⟩ := c.wellFormed_iff.mp h
  simp [decodeCmd, h1, h2, h3, h4]

end Sys2Proof
end

