-- ==== Sys2Proof/Laws/Exec.lean ====
section
/-!
SUPPORT. Laws/Exec.lean: each command as the shared ending over its body, so that no proof unfolds exec.
-/

namespace Sys2Proof.Machine

theorem exec_nop (s : State) : exec .nop s = .next s.advance := rfl

theorem exec_initEnc (s : State) :
    exec .initEnc s = command .initEnc (fun s => .ok () { streamReset s with mode := .enc }) s := rfl

theorem exec_initDec (s : State) :
    exec .initDec s = command .initDec (fun s => decStart { streamReset s with mode := .dec }) s := rfl

theorem exec_encSym (c : Bool) (sym : Half) (s : State) :
    exec (.encSym c sym) s = command (.encSym c sym) (inMode .enc (encodeSymbol (operand sym) c)) s := rfl

theorem exec_encEnd (s : State) :
    exec .encEnd s =
      command .encEnd (inMode .enc fun s => (coderEnd s).andThen fun _ s => .ok () { foEnd s with mode := .encDone }) s := rfl

theorem exec_decSym (c : Bool) (s : State) :
    exec (.decSym c) s =
      command (.decSym c) (inMode .dec fun s => (endTest c s).andThen fun ended s =>
        if ended then .ok () (decodeEnd s) else decodeSymbol c s) s := rfl

theorem exec_modelUpdate (sym : Half) (s : State) : exec (.modelUpdate sym) s = command (.modelUpdate sym) (update sym) s := rfl

theorem exec_modelReset (s : State) : exec .modelReset s = command .modelReset (fun s => .ok () (modelReset s)) s := rfl

theorem exec_modelProbone (s : State) :
    exec .modelProbone s = command .modelProbone (fun s => .ok () (s.writeResults (zext32 s.model.total) 0)) s := rfl

theorem exec_modelSymrange (sym : Half) (s : State) :
    exec (.modelSymrange sym) s =
      command (.modelSymrange sym) (fun s => (symRange (operand sym) s).andThen fun r s =>
        .ok () (s.writeResults (zext32 (operand sym)) (packRange r.2 r.1))) s := rfl

theorem exec_modelGetsym (p : Half) (s : State) :
    exec (.modelGetsym p) s =
      command (.modelGetsym p) (fun s => (getSymbol (operand p) s).andThen fun r s =>
        .ok () (s.writeResults (zext32 r.1) (packRange r.2.2 r.2.1))) s := rfl

theorem exec_rdreg (a : Half) (s : State) :
    exec (.rdreg a) s = .next { s with res0 := debugRead s (operand a), pc := s.pc + 1 } := rfl

end Sys2Proof.Machine
end

