-- ==== Sys2Proof/Laws/PerInstr.lean ====
section
/-!
SUPPORT. Laws/PerInstr.lean: the family EncodesLegal, one lemma per command: the word of a command has the command's fields
and passes the four checks of 30_encoding.md R83.
-/

namespace Sys2Proof.Laws.EncodesLegal

/-- The word of `i` splits into the fields of `i`, and they pass every check. -/
def Statement (i : Instr) : Prop := splitWord (encode i) = i.fields ∧ i.fields.wellFormed = true

theorem nop : Statement .nop := ⟨splitWord_joinWord _, by decide⟩

theorem initEnc : Statement .initEnc := ⟨splitWord_joinWord _, by decide⟩

theorem initDec : Statement .initDec := ⟨splitWord_joinWord _, by decide⟩

theorem encSym (c : Bool) (sym : Half) : Statement (.encSym c sym) :=
  ⟨splitWord_joinWord _, Cmd.wellFormed_operand _ (by decide) (.inr rfl) (.inl rfl)⟩

theorem encEnd : Statement .encEnd := ⟨splitWord_joinWord _, by decide⟩

theorem decSym (c : Bool) : Statement (.decSym c) := ⟨splitWord_joinWord _, by cases c <;> rfl⟩

theorem modelUpdate (sym : Half) : Statement (.modelUpdate sym) :=
  ⟨splitWord_joinWord _, Cmd.wellFormed_operand _ (by decide) (by decide) (by decide)⟩

theorem modelReset : Statement .modelReset := ⟨splitWord_joinWord _, by decide⟩

theorem modelProbone : Statement .modelProbone := ⟨splitWord_joinWord _, by decide⟩

theorem modelSymrange (sym : Half) : Statement (.modelSymrange sym) :=
  ⟨splitWord_joinWord _, Cmd.wellFormed_operand _ (by decide) (by decide) (by decide)⟩

theorem modelGetsym (p : Half) : Statement (.modelGetsym p) :=
  ⟨splitWord_joinWord _, Cmd.wellFormed_operand _ (by decide) (by decide) (by decide)⟩

theorem rdreg (addr : Half) : Statement (.rdreg addr) :=
  ⟨splitWord_joinWord _, Cmd.wellFormed_operand _ (by decide) (by decide) (by decide)⟩

end Sys2Proof.Laws.EncodesLegal
end

