-- ==== Sys2Proof/Tests/Slice0.lean ====
section
/-!
SUPPORT. Tests/Slice0.lean: the model's own tests. Expected values are those of spec/95_test_vectors.md (V-… and P…) or of
the rule's own table, never the model's answers; and for every statement with hypotheses a witness that meets them.
-/

namespace Sys2Proof.Tests

open Sys2Proof.Machine

/-! ### Helpers -/

/-- Whether an outcome is a next state. -/
def answersNext (o : Host.Outcome State Fault Refusal) : Bool :=
  match o with
  | .next _ => true
  | .fault _ => false
  | .refused _ => false

/-- The next state of an outcome. -/
def after (o : Host.Outcome State Fault Refusal) : State :=
  match o with
  | .next t => t
  | .fault _ => State.reset
  | .refused _ => State.reset

theorem next_of {o : Host.Outcome State Fault Refusal} (h : answersNext o = true) : o = .next (after o) := by
  cases o <;> first | rfl | simp [answersNext] at h

/-- Whether a step returned. -/
def returned (r : Res Unit) : Bool :=
  match r with
  | .ok _ _ => true
  | .raised _ _ => false
  | .held => false

/-- The state a step returned. -/
def reached (r : Res Unit) : State :=
  match r with
  | .ok _ u => u
  | .raised _ _ => State.reset
  | .held => State.reset

theorem ok_of {r : Res Unit} (h : returned r = true) : r = .ok () (reached r) := by
  cases r <;> first | rfl | simp [returned] at h

/-- A test of the state one outcome leads to. -/
def leads (o : Host.Outcome State Fault Refusal) (test : State → Bool) : Bool :=
  match o with
  | .next t => test t
  | .fault _ => false
  | .refused _ => false

/-- A stream being encoded, over a fresh model. -/
def encState (e : Engine) (c : Carry) : State := { State.reset with mode := .enc, engine := e, carry := c }

/-- A file being decoded, over a fresh model. -/
def decState (l : LookAhead) (f : FiSide) (items : List InItem) : State :=
  { State.reset with mode := .dec, look := l, fi := f, inp := items }

/-- The stream INIT_ENC opens. -/
def opened : State := encState Engine.reset Carry.reset

/-- A file whose code bits are all zero, its EOF taken. -/
def zeroFile : State := decState LookAhead.reset { first := false, carry := false, eof := true } []

/-- A file with one held byte 5 still to come. -/
def heldFile : State :=
  decState { LookAhead.reset with followByte := 5, fbValid := true } { first := false, carry := false, eof := true } []

/-- A state in the fault state (V-X1). -/
def faulted : State := { State.reset with fault := true, cause := .illegalCommand, faultCmd := 0xC0000000 }

/-- A run about to take the word `w`, its file begun at byte `start` of OUT. -/
def runAt (s : State) (w : Word) (start : Nat) : Run :=
  { state := { s with cmds := [w] }, fileStart := start, results := [], fileOpen := false }

theorem byteCodec_admitted : Params.byteCodec.admitted = true := by decide

theorem reset_follow : FollowInv LookAhead.reset := iff_of_false (by decide) (by decide)

theorem encState_inv {e : Engine} {c : Carry} (he : EngineInv e) (hc : CarryInv e c) : Inv (encState e c) := by
  refine ⟨byteCodec_admitted, (modelInv_iff byteCodec_admitted).mpr (Model.reset_cells _ byteCodec_admitted), fun _ =>
    ⟨he, fun _ => hc, ?_, ?_, fun _ => rfl, reset_follow, ?_, fun _ => rfl, fun _ _ => ⟨rfl, rfl⟩, rfl,
      rfl⟩⟩
  · intro h; simp [encState] at h
  · intro h; simp [encState] at h
  · intro h; simp [encState] at h

theorem decState_inv {l : LookAhead} {f : FiSide} {items : List InItem} (hv : ValueInv Engine.reset l) (hf : FollowInv l)
    (hb : f.first = false) : Inv (decState l f items) := by
  refine ⟨byteCodec_admitted, (modelInv_iff byteCodec_admitted).mpr (Model.reset_cells _ byteCodec_admitted), fun _ =>
    ⟨Engine.reset_inv, ?_, fun _ => rfl, fun _ => hv, ?_, hf, fun _ => hb, fun _ => rfl, fun _ _ => ⟨rfl, rfl⟩, rfl, rfl⟩⟩
  · intro h; simp [decState] at h
  · intro h; simp [decState] at h

theorem opened_inv : Inv opened := encState_inv Engine.reset_inv fun _ => Engine.reset_noCarry

theorem zeroFile_inv : Inv zeroFile :=
  decState_inv ⟨by decide, by decide⟩ (iff_of_false (by decide) (by decide)) rfl

theorem heldFile_inv : Inv heldFile := decState_inv ⟨by decide, by decide⟩ (iff_of_true (by decide) (by decide)) rfl

/-- The end of a zero file is zeros for ever. -/
theorem zeroFile_stream (n : Nat) : streamTake n zeroFile = .ok (List.replicate n 0) zeroFile := by
  induction n with
  | zero => rfl
  | succ n ih =>
    show (Res.ok (0 : Byte) zeroFile).andThen _ = _
    rw [Res.ok_andThen, ih]
    rfl

/-! ### Encoding (30_encoding.md; V-W1 to V-W25) -/

/-- Each of the four checks refuses an ill-formed word (V-W16, V-W17, V-W20, V-W21; V-W18, V-W23, V-W24, V-W25; V-W19,
V-W22). -/
theorem test_ill_formed_refused :
    (splitWord 0xC0000000).opcodeDefined = false ∧ (splitWord 0xF0000000).opcodeDefined = false ∧
    (splitWord 0x10010000).reservedClear = false ∧ (splitWord 0x34000041).reservedClear = false ∧
    (splitWord 0x08000000).flagAllowed = false ∧ (splitWord 0x68000041).flagAllowed = false ∧
    (splitWord 0x48000000).flagAllowed = false ∧ (splitWord 0xB8000000).flagAllowed = false ∧
    (splitWord 0x00000001).operandAllowed = false ∧ (splitWord 0x58000001).operandAllowed = false := by decide

theorem test_ill_formed_words :
    decode 0xC0000000 = .illegal .reservedOpcode ∧ decode 0xF0000000 = .illegal .reservedOpcode ∧
    decode 0x10010000 = .illegal .reservedBits ∧ decode 0x34000041 = .illegal .reservedBits ∧
    decode 0x08000000 = .illegal .flagNotAllowed ∧ decode 0x68000041 = .illegal .flagNotAllowed ∧
    decode 0x48000000 = .illegal .flagNotAllowed ∧ decode 0xB8000000 = .illegal .flagNotAllowed ∧
    decode 0x00000001 = .illegal .operandNotAllowed ∧ decode 0x58000001 = .illegal .operandNotAllowed := by decide

theorem test_ill_formed_not_legal :
    ([0xC0000000, 0xF0000000, 0x08000000, 0x00000001, 0x10010000, 0x34000041, 0x58000001, 0x68000041, 0x48000000,
      0xB8000000] : List Word).all (fun w => !wordLegal w) = true := by decide

/-- The control words, bit by bit from R80 and R82: OP [31:28], C [27], RSV [26:16], IMM16 [15:0]. -/
theorem test_decode_control :
    decode 0b00000000000000000000000000000000 = .ok .nop ∧
    decode 0b00010000000000000000000000000000 = .ok .initEnc ∧ decode 0b00100000000000000000000000000000 = .ok .initDec ∧
    decode 0b10110000000000000010000100000000 = .ok (.rdreg 0x2100) := by decide

theorem test_decode_coder :
    decode 0b00110000000000000000000001000001 = .ok (.encSym false 0x41) ∧
    decode 0b00111000000000000000000001000001 = .ok (.encSym true 0x41) ∧
    decode 0b01000000000000000000000000000000 = .ok .encEnd ∧
    decode 0b01010000000000000000000000000000 = .ok (.decSym false) ∧
    decode 0b01011000000000000000000000000000 = .ok (.decSym true) := by decide

theorem test_decode_model :
    decode 0b01100000000000000000000001000001 = .ok (.modelUpdate 0x41) ∧
    decode 0b01110000000000000000000000000000 = .ok .modelReset ∧
    decode 0b10000000000000000000000000000000 = .ok .modelProbone ∧
    decode 0b10010000000000000000000000000101 = .ok (.modelSymrange 5) ∧
    decode 0b10100000000000000000000011111111 = .ok (.modelGetsym 0xFF) := by decide

theorem test_decode_table_word :
    decodeTableWord 32 0x3800FFFF = some (.encSym true 0xFFFF) ∧ decodeTableWord 32 0xC0000000 = none := by decide

/-! ### One instruction, one step -/

/-- V-K1. -/
theorem test_nop : leads (step (State.reset.withFetchWord 32 0)) (fun t => t.status == 0 && t.res0 == 0 && t.pc == 1) = true := by
  decide

/-- V-K2, V-E1. -/
theorem test_initEnc :
    leads (exec .initEnc State.reset) (fun t => t.status == 1 && t.engine.range == 0x10000 && t.engine.feven == 0xFFFF &&
      t.carry.buf == 0 && t.model.total == 256) = true := by decide

/-- V-K7: the pending byte of an abandoned stream is lost. -/
theorem test_initEnc_again :
    leads (exec .initEnc (encState Engine.reset { byte := 0x41, buf := 1 })) (fun t => t.carry == Carry.reset && t.out == []) =
      true := by decide

/-- V-K5. -/
theorem test_initDec :
    leads (exec .initDec (State.reset.supplyIn (fileItems [0x37, 0x48]))) (fun t => t.look.value == 0x80 &&
      t.look.vshift == 0 && !t.fi.first && !t.fi.eof && t.status == 3 && t.inp == [.eof]) = true := by decide

/-- V-X6. -/
theorem test_initDec_empty :
    leads (exec .initDec (State.reset.supplyIn [.eof])) (fun t => t.status == 0x90B && t.faultCmd == 0x20000000) = true := by
  decide

/-- V-E5. -/
theorem test_encSym :
    leads (exec (.encSym true 0x41) opened) (fun t => t.engine == Engine.reset && t.carry.byte == 0x41 && t.carry.buf == 1 &&
      t.out == [] && t.mode == .enc && t.res0 == 0) = true := by decide +kernel

/-- V-X4. -/
theorem test_encSym_bad :
    leads (exec (.encSym true 0x100) opened) (fun t => t.status == 0x309 && t.faultCmd == 0x38000100) = true := by decide +kernel

/-- V-E2: the end of the message 00. -/
theorem test_encEnd :
    leads (exec .encEnd (encState { low := 0, range := 0x10000, nfe := 0x8000, feven := 0x7FFF, ibits := 16 }
      { byte := 0, buf := 1 })) (fun t => t.out == [0x37, 0x48] && t.carry.byte == 0 && t.carry.buf == 1 && !t.fo.hold &&
        t.fo.zrun == 0 && t.status == 2) = true := by decide +kernel

/-- V-E1: the end of the empty message. -/
theorem test_encEnd_empty : leads (exec .encEnd opened) (fun t => t.out == [0x37] && t.status == 2) = true := by decide +kernel

/-- V-D2: the one symbol of the file 37 48. -/
theorem test_decSym :
    leads (exec (.decSym true) (decState { LookAhead.reset with value := 0x80 } { first := false, carry := false, eof := false }
      [.eof])) (fun t => t.res0 == 0 && t.res1 == 0x10000 && t.look.value == 0x8000 && t.look.vshift == 0 && t.fi.eof &&
        t.engine == { low := 0, range := 0x10000, nfe := 0x8000, feven := 0x7FFF, ibits := 16 }) = true := by decide +kernel

/-- V-D1: the end of the file 37. -/
theorem test_decSym_end :
    leads (exec (.decSym true) zeroFile) (fun t => t.res0 == 0xFFFFFFFF && t.res1 == 0 && t.status == 4) = true := by
  decide +kernel

/-- V-M2. -/
theorem test_modelUpdate :
    leads (exec (.modelUpdate 0x41) State.reset) (fun t => t.model.total == 262 && t.model.slot 0 == 0x41 && t.model.mhead == 0 &&
      t.model.rangeOf 8 0x41 == (65, 72) && t.model.rangeOf 8 0x42 == (72, 73) && t.model.symbolAt 8 71 == (0x41, 65, 72) &&
      t.model.symbolAt 8 64 == (0x40, 64, 65)) = true := by decide +kernel

/-- V-X11, V-M12. -/
theorem test_modelUpdate_bad :
    leads (exec (.modelUpdate 0x100) State.reset) (fun t => t.status == 0x308 && t.faultCmd == 0x60000100 &&
      t.model.mhead == 4095) = true := by decide +kernel

/-- V-M8. -/
theorem test_modelReset :
    leads (exec .modelReset { State.reset with model := { State.reset.model with mhead := 7, tree := [] } }) (fun t =>
      t.model.total == 256 && t.model.mhead == 4095 && t.model.slot 0 == 0xFFFF && t.model.slot 4095 == 0xFFFF) = true := by
  decide +kernel

/-- V-K4. -/
theorem test_modelProbone : leads (exec .modelProbone State.reset) (fun t => t.res0 == 0x100 && t.res1 == 0) = true := by decide

/-- V-M1. -/
theorem test_modelSymrange :
    leads (exec (.modelSymrange 0xFF) State.reset) (fun t => t.res0 == 0xFF && t.res1 == 0x010000FF) = true := by decide +kernel

/-- V-M10. -/
theorem test_modelGetsym :
    leads (exec (.modelGetsym 0xFF) State.reset) (fun t => t.res0 == 0xFF && t.res1 == 0x010000FF) = true := by decide +kernel

/-- V-X5, V-M9. -/
theorem test_modelGetsym_outside :
    leads (exec (.modelGetsym 0x100) State.reset) (fun t => t.status == 0x408 && t.faultCmd == 0xA0000100) = true := by
  decide +kernel

/-- V-K3. -/
theorem test_rdreg :
    ([(0x5, 0x10000), (0x7, 0xFFFF), (0x8, 0x10), (0x2100, 1), (0x2001, 0x100), (0x12, 0xFFF), (0x14, 1), (0x16, 0), (0x2200, 0)]
      : List (Half × Word)).all (fun r => leads (exec (.rdreg r.1) opened) fun t => t.res0 == r.2) = true := by decide

/-- V-X13: RDREG in the fault state, and the ends of the ranges of R64's table (RdregReadsTheDebugMap). -/
theorem test_rdreg_faulted :
    ([(0x0, 0x108), (0x1, 0xC0000000), (0x16, 0), (0xFFF, 0), (0x1000, 0xFFFF), (0x1FFF, 0xFFFF), (0x2000, 0), (0x21FF, 1), (0xFFFF, 0)]
      : List (Half × Word)).all (fun r => leads (exec (.rdreg r.1) faulted) fun t => t.res0 == r.2) = true := by decide +kernel

/-- V-X1, V-X14. -/
theorem test_illegal_word :
    leads (runWord 0xC0000000 State.reset) (fun t => t.status == 0x108 && t.faultCmd == 0xC0000000) = true ∧
    leads (runWord 0xF0000000 faulted) (fun t => t.status == 0x108 && t.faultCmd == 0xC0000000 && t.pc == 1) = true := by decide

/-- V-X3, V-X7, V-X10. -/
theorem test_mode_error :
    leads (exec (.encSym true 0x41) State.reset) (fun t => t.status == 0x208 && t.faultCmd == 0x38000041) = true ∧
    leads (exec .encEnd { opened with mode := .encDone }) (fun t => t.status == 0x20A) = true ∧
    leads (exec .encEnd zeroFile) (fun t => t.status == 0x20B) = true := by decide

/-- V-F9, V-F11, V-F13: the bijector's output side. -/
theorem test_fo_put :
    ([([0x05, 0x00, 0x01], [0x32, 0xC8]), ([0x05, 0x00, 0x00, 0x01, 0x00], [0x32, 0xC8, 0xC9]), ([0xFF, 0xFF], [0xC8, 0xC9])]
      : List (List Byte × List Byte)).all (fun r =>
        match foPutAll r.1 State.reset with
        | .ok _ u => (foEnd u).out == r.2
        | .raised _ _ => false
        | .held => false) = true := by decide

/-- V-F19, V-F22: the bijector's input side. -/
theorem test_fi_next :
    ([([0x37, 0xC8], [0x00, 0x00, 0x01, 0x00]), ([0x37, 0x48], [0x00, 0x80, 0x00, 0x00])] : List (List Byte × List Byte)).all
      (fun r =>
        match fiTake 4 (State.reset.supplyIn (fileItems r.1)) with
        | .ok t _ => t == r.2
        | .raised _ _ => false
        | .held => false) = true := by decide

/-- V-E2 after V-E1 on one OUT (R279, 43_control.md R214): the file is the bytes since the last INIT_ENC. -/
theorem test_run_file :
    (match Run.next (runAt { encState { low := 0, range := 0x10000, nfe := 0x8000, feven := 0x7FFF, ibits := 16 }
        { byte := 0, buf := 1 } with out := [0x37] } 0x40000000 1) with
      | .next r => r.state.out == [0x37, 0x37, 0x48] && r.file == [0x37, 0x48] && r.state.mode == .encDone && !r.state.fault
      | .fault _ => false
      | .refused _ => false) = true := by decide +kernel

/-- V-D2 and V-D1: a symbol joins the message, the sentinel does not, and the emitted bytes keep their order (R277, R279). -/
theorem test_run_message :
    (match Run.next { runAt zeroFile 0x58000000 0 with results := [7] } with
      | .next r => r.message == [7] && r.results == [7, 0xFFFFFFFF]
      | .fault _ => false
      | .refused _ => false) = true ∧
    (match decLoop 1 [0x41] (decState { LookAhead.reset with value := 0x80 }
        { first := false, carry := false, eof := false } [.eof]) with
      | .next r => r.1 == [0x41, 0x00]
      | .fault _ => false
      | .refused _ => false) = true := by decide +kernel

/-- R214, R275: an abandoned file's rest leaves IN before the next decode opens. -/
theorem test_run_withdraws :
    (Run.withdrawAbandoned
      { runAt (State.reset.supplyIn [.byte 0x43, .eof, .byte 0x37, .eof]) 0x20000000 0 with fileOpen := true }).state.inp =
      [.byte 0x37, .eof] := by decide

/-- The launch premises of R280 can be met, by a run that decodes one file. -/
theorem test_launched : launched (Run.launch Params.byteCodec [0x20000000, 0x58000000] (fileItems [0x37])) :=
  ⟨_, _, _, by decide, ⟨[[0x37]], by decide, rfl, by decide⟩, rfl⟩

/-- V-C3, V-C5: a carry over a run, and a carry value above 256. -/
theorem test_byte_with_carry :
    (match byteWithCarry 0x180 (encState Engine.reset { byte := 0xF8, buf := 2 }) with
      | .ok _ u => u.carry == { byte := 0x80, buf := 1 } && u.out == [0xF9 ^^^ 0x37]
      | .raised _ _ => false
      | .held => false) = true := by decide

/-! ### Witnesses: what the statements assume can be met -/

theorem test_witness_EncodeDecode : decode 0x3800FFFF = .ok (.encSym true 0xFFFF) := by decide

theorem test_witness_IllegalWordsFault :
    wordLegal 0xC0000000 = false ∧ wordLegal 0xB8000000 = false ∧ wordLegal 0x34000041 = false ∧ wordLegal 0x58000001 = false ∧
    State.reset.fault = false := by decide

theorem test_witness_RowGivesCommand :
    (⟨"ENC_SYM", 0x30000000, 0xF7FF0000⟩ : OpcodeRow) ∈ opcodeTable ∧
    (⟨"ENC_SYM", 0x30000000, 0xF7FF0000⟩ : OpcodeRow).accepts 0x38000041 = true := by decide

/-- The word a step fetches, legal, and illegal in and outside the fault state. -/
theorem test_witness_StepRunsDecodedWord :
    let s := State.reset.withFetchWord 32 0x30000041
    let x := State.reset.withFetchWord 32 0xC0000000
    let y := faulted.withFetchWord 32 0xC0000000
    (s.params.admitted = true ∧ s.nextWord = some 0x30000041 ∧ decode 0x30000041 = .ok (.encSym false 0x41)) ∧
    (x.params.admitted = true ∧ x.nextWord = some 0xC0000000 ∧ x.fault = false ∧
      y.params.admitted = true ∧ y.nextWord = some 0xC0000000 ∧ y.fault = true) ∧
    decode 0xC0000000 = .illegal .reservedOpcode := by decide

/-- The three cases: no further command, BLOCKSIZE 2, and the parameters just outside R6. -/
theorem test_witness_StepWithoutCommand :
    (State.reset.params.admitted = true ∧ State.reset.nextWord = none) ∧
    (State.powerOn { nsym := 256, blockSize := 2, leafBase := 1 }).params.blockSize ≠ 1 ∧
    ([⟨1, 1, 1⟩, ⟨4097, 1, 1⟩, ⟨256, 1, 0⟩, ⟨256, 1, 65⟩, ⟨4096, 1, 5⟩] : List Params).all (fun p =>
      p.blockSize == 1 && !p.admitted) = true := by
  refine ⟨by decide, by decide, by decide⟩

theorem test_witness_PcAdvancesByOne : ∃ t, exec .nop State.reset = .next t ∧ t.pc = 1 :=
  ⟨_, next_of (by decide), by decide⟩

/-- Parameters R6 admits, at the ends of its ranges (ResetRegisterValues, PowerOnMeetsInv). -/
theorem test_witness_PowerOnMeetsInv :
    ([Params.byteCodec, ⟨2, 1, 1⟩, ⟨2, 1, 64⟩, ⟨4096, 1, 1⟩, ⟨4096, 1, 4⟩, ⟨272, 1, 64⟩] : List Params).all Params.admitted = true := by
  decide

theorem test_witness_ResetRegisterValues : faulted.fault = true ∧ ∃ t, exec .initEnc faulted = .next t :=
  ⟨rfl, _, next_of (by decide)⟩

theorem withFetchWord_inv {s : State} {n w : Nat} (h : Inv s) : Inv (s.withFetchWord n w) :=
  ⟨h.admitted, h.model, fun hf => by
    have l := h.live hf
    exact ⟨l.engine, l.carry, l.carryUnused, l.value, l.lookUnused, l.follow, l.fileBegun, l.foRun, l.fo, l.noCause,
      l.noFaultCmd⟩⟩

theorem test_witness_StepKeepsInv :
    Inv (opened.withFetchWord 32 0x38000041) ∧ ∃ t, step (opened.withFetchWord 32 0x38000041) = .next t ∧ t.fault = false :=
  ⟨withFetchWord_inv opened_inv, _, next_of (by decide +kernel), by decide +kernel⟩

theorem test_witness_RegisterFilesKeepTheirSize :
    State.reset.model.tree.length = 2 * State.reset.params.z ∧ State.reset.model.win.length = Config.winSize ∧
    ∃ t, exec (.modelUpdate 0xFF) State.reset = .next t := by
  refine ⟨by decide +kernel, by decide +kernel, _, next_of (by decide +kernel)⟩

/-- An engine whose free end cannot be refined (R241): FEVEN is 0. -/
def spentEngine : Engine := { low := 0, range := 0x8001, nfe := 0x7FFF, feven := 0, ibits := 16 }

/-- A full run of 0xFF (R240) and an engine whose next byte is 0xFF. -/
def fullRunState : State :=
  encState { low := 0x7F8000, range := 0x8001, nfe := 0x7F8000, feven := 0x7FFF, ibits := 23 } { byte := 1, buf := 0xFFFFFFFF }

theorem spentEngine_inv : EngineInv spentEngine :=
  ⟨by decide, by decide, by decide, by decide, ⟨0, by decide, by decide⟩, by decide, .inr (by decide), by decide, by decide,
    by decide⟩

theorem spent_inv : Inv (encState spentEngine Carry.reset) := encState_inv spentEngine_inv fun _ => by unfold noCarryOut; decide

theorem fullRunState_inv : Inv fullRunState :=
  encState_inv ⟨by decide, by decide, by decide, by decide, ⟨15, by decide, by decide⟩, by decide, .inr (by decide), by decide,
    by decide, by decide⟩ fun h => absurd h (by decide)

/-- A command that raises each cause the statement leaves possible. -/
theorem test_witness_CausesComeFromTheirCommands :
    (Inv opened ∧ leads (exec (.modelGetsym 0x100) opened) (fun t => t.fault && t.cause == .modelRange) = true) ∧
    (Inv (opened.supplyIn [.eof]) ∧
      leads (exec .initDec (opened.supplyIn [.eof])) (fun t => t.fault && t.cause == .emptyStream) = true) ∧
    (Inv zeroFile ∧ leads (exec .encEnd zeroFile) (fun t => t.fault && t.cause == .modeError) = true) ∧
    (Inv opened ∧ leads (exec (.encSym false 0x100) opened) (fun t => t.fault && t.cause == .badSymbol) = true) ∧
    (Inv (encState spentEngine Carry.reset) ∧
      leads (exec (.encSym true 0) (encState spentEngine Carry.reset)) (fun t => t.fault && t.cause == .freeEndEscape) = true) ∧
    (Inv fullRunState ∧ leads (exec (.encSym false 0) fullRunState) (fun t => t.fault && t.cause == .counterOverflow) = true) := by
  refine ⟨⟨opened_inv, by decide +kernel⟩, ⟨?_, by decide +kernel⟩, ⟨zeroFile_inv, by decide +kernel⟩,
    ⟨opened_inv, by decide +kernel⟩, ⟨spent_inv, by decide +kernel⟩, ⟨fullRunState_inv, by decide +kernel⟩⟩
  have l := opened_inv.live rfl
  exact ⟨opened_inv.admitted, opened_inv.model, fun _ => ⟨l.engine, l.carry, l.carryUnused, l.value, l.lookUnused, l.follow,
    l.fileBegun, l.foRun, l.fo, l.noCause, l.noFaultCmd⟩⟩

theorem test_witness_FaultStateIgnoresCommands :
    faulted.fault = true ∧ Instr.initEnc ≠ .nop ∧ (∀ a, Instr.initEnc ≠ .rdreg a) ∧ wordLegal 0xF0000000 = false := by
  refine ⟨rfl, by decide, by simp, by decide⟩

/-- The three clauses: in the fault state, entering it, and without a fault. -/
theorem test_witness_FirstFaultIsRecorded :
    (faulted.fault = true ∧ ∃ t, exec .encEnd faulted = .next t) ∧
    (State.reset.fault = false ∧ ∃ t, exec .encEnd State.reset = .next t ∧ t.fault = true) ∧
    ∃ t, exec .initEnc State.reset = .next t ∧ t.fault = false :=
  ⟨⟨rfl, _, next_of (by decide)⟩, ⟨rfl, _, next_of (by decide), by decide⟩, _, next_of (by decide), by decide⟩

/-- Each command with a mode, outside and inside it, and one without. -/
theorem test_witness_ModeErrorTable :
    (opened.fault = false ∧ opened.mode ≠ .dec) ∧ (zeroFile.fault = false ∧ zeroFile.mode ≠ .enc) ∧
    leads (exec (.encSym true 0x100) opened) (fun t => t.fault) = true ∧
    leads (exec (.modelGetsym 0x100) zeroFile) (fun t => t.fault) = true := by
  refine ⟨⟨rfl, by decide⟩, ⟨rfl, by decide⟩, by decide +kernel, by decide +kernel⟩

theorem test_witness_BadSymbolOperands :
    opened.fault = false ∧ opened.mode = .enc ∧ opened.params.nsym.toNat ≤ (0x100 : Half).toNat ∧
    opened.params.nsym.toNat ≤ (0xFFFF : Half).toNat ∧ opened = { State.reset with mode := .enc } :=
  ⟨rfl, rfl, by decide, by decide, rfl⟩

theorem test_witness_PointOutsideTotalFaults :
    State.reset.fault = false ∧ (State.reset.model.tree.getD 1 0).toNat ≤ (0x100 : Half).toNat ∧
    (State.reset.model.tree.getD 1 0).toNat ≤ (0xFFFF : Half).toNat := by decide

theorem test_witness_EmptyFileFaults :
    let s := State.reset.supplyIn [.eof, .byte 1]
    s.fi.eof = false ∧ s.fi.first = true ∧ s.inp = .eof :: [.byte 1] ∧ s.fault = false := by decide

theorem test_witness_ParametersAreReadOnly : State.reset.params.admitted = true ∧ ∃ t, exec .initEnc State.reset = .next t :=
  ⟨by decide, _, next_of (by decide)⟩

/-- A command that writes OUT. -/
theorem test_witness_OutIsAppendOnlyAndUnread : ∃ t, exec .encEnd opened = .next t ∧ t.out = [0x37] :=
  ⟨_, next_of (by decide +kernel), by decide +kernel⟩

/-- A command that takes items, one that takes none, and one after the file's EOF (also LaterItemsChangeNothing). -/
theorem test_witness_InputItemsAreTakenInOrder :
    (∃ t, exec .initDec (State.reset.supplyIn (fileItems [0x37])) = .next t ∧ t.inp = []) ∧
    (∃ t, exec .initEnc State.reset = .next t) ∧ zeroFile.fi.eof = true ∧ ∃ t, exec (.decSym true) zeroFile = .next t :=
  ⟨⟨_, next_of (by decide), by decide⟩, ⟨_, next_of (by decide)⟩, rfl, _, next_of (by decide +kernel)⟩

/-- Both commands that take items hold when the host has supplied none (93_implementation_defined.md I10). -/
theorem test_witness_CommandsHoldOnlyForInput :
    exec .initDec (State.reset.supplyIn [.byte 0x37]) = .fault .heldOnIn ∧
    exec (.decSym true) { zeroFile with fi := { first := false, carry := false, eof := false } } = .fault .heldOnIn := by
  constructor <;> rfl

theorem test_witness_EveryCommandEndsUnderInputDuty :
    .eof ∈ (State.reset.supplyIn (fileItems [0x37])).inp ∧ inDuty zeroFile ∧ inDuty (State.reset.supplyIn [.eof]) := by
  refine ⟨by decide, .inl rfl, .inr (by decide)⟩

theorem test_witness_NopChangesOnlyPc : Instr.rdreg 3 ≠ .nop ∧ Instr.rdreg 3 ≠ .rdreg 2 ∧
    (0x08000000 : Word).extractLsb' 28 4 = 0 ∧ (0x00000001 : Word).extractLsb' 28 4 = 0 ∧ (0x00000001 : Word) ≠ 0 := by decide

/-- The two files INIT_DEC completes on, and the two it holds on. -/
theorem test_witness_InitDecReadsTwoBytes :
    (State.reset.supplyIn (fileItems [0x37, 0xC8])).inp = .byte 0x37 :: .byte 0xC8 :: [.eof] ∧
    (State.reset.supplyIn (fileItems [0x37])).inp = .byte 0x37 :: .eof :: [] ∧ State.reset.inp = [] ∧
    (State.reset.supplyIn [.byte 0x37]).inp = [.byte 0x37] ∧ State.reset.fault = false := by decide

theorem test_witness_InitCommandsFrame :
    (∃ t, exec .initEnc zeroFile = .next t) ∧ ∃ t, exec .initDec (zeroFile.supplyIn [.eof]) = .next t :=
  ⟨⟨_, next_of (by decide)⟩, _, next_of (by decide)⟩

/-- Models of the smallest and the largest parameter sets, and of the byte codec. -/
theorem test_witness_ModelBounds :
    (Params.byteCodec.admitted = true ∧ ModelInv Params.byteCodec (Model.reset Params.byteCodec)) ∧
    (Params.admitted ⟨2, 1, 1⟩ = true ∧ ModelInv ⟨2, 1, 1⟩ (Model.reset ⟨2, 1, 1⟩)) ∧
    (Params.admitted ⟨4096, 1, 4⟩ = true ∧ ModelInv ⟨4096, 1, 4⟩ (Model.reset ⟨4096, 1, 4⟩)) :=
  have key : ∀ p : Params, p.admitted = true → p.admitted = true ∧ ModelInv p (Model.reset p) := fun p h =>
    ⟨h, (modelInv_iff h).mpr (Model.reset_cells p h)⟩
  ⟨key _ (by decide), key _ (by decide), key _ (by decide)⟩

/-- The first and the last symbol, and the last point, of a state that meets the invariant (InitEncOpensStream,
ModelUpdateMovesWeights, ModelResetContents, ModelProboneReturnsTotal, ModelSymrangeReturnsRange, ModelGetsymFindsSymbol). -/
theorem test_witness_ModelCommandsComplete :
    Inv opened ∧ opened.fault = false ∧ (0 : Half).toNat < opened.params.nsym.toNat ∧
    (0xFF : Half).toNat < opened.params.nsym.toNat ∧ (0xFF : Half).toNat + 1 = opened.params.nsym.toNat ∧
    (0xFF : Half).toNat < opened.model.total ∧ opened.params.admitted = true :=
  ⟨opened_inv, rfl, by decide, by decide, by decide, by decide, by decide⟩

theorem test_witness_ModelCommandsFrame :
    (∃ t, exec (.modelUpdate 0xFF) opened = .next t ∧ t.fault = false) ∧ (∃ t, exec .modelReset opened = .next t) ∧
    (∃ t, exec .modelProbone opened = .next t) ∧ (∃ t, exec (.modelSymrange 0) opened = .next t ∧ t.fault = false) ∧
    ∃ t, exec (.modelGetsym 0) opened = .next t ∧ t.fault = false :=
  ⟨⟨_, next_of (by decide +kernel), by decide +kernel⟩, ⟨_, next_of (by decide +kernel)⟩, ⟨_, next_of (by decide +kernel)⟩,
    ⟨_, next_of (by decide +kernel), by decide +kernel⟩, _, next_of (by decide +kernel), by decide +kernel⟩

/-- The coarsest mask, R141's own worked example, the finest mask, and the two sides of the re-seat's test. -/
theorem test_witness_SeatIsLeastCandidate :
    (Engine.reset.feven.toNat = 2 ^ 16 - 1 ∧ Engine.reset.low.toNat + 2 ^ (16 + 1) < 2 ^ 32) ∧
    ({ Engine.reset with low := 0x5900 } : Engine).seat = 0x10000 ∧
    (spentEngine.feven.toNat = 2 ^ 0 - 1 ∧ spentEngine.low.toNat + 2 ^ (0 + 1) < 2 ^ 32) ∧
    (spentEngine.low.toNat ≤ spentEngine.nfe.toNat ∧ Engine.reset.low.toNat ≤ Engine.reset.nfe.toNat) ∧
    ({ Engine.reset with low := 1 } : Engine).nfe.toNat < ({ Engine.reset with low := 1 } : Engine).low.toNat := by decide

/-- The two cases of Reserve. -/
theorem test_witness_ReserveTakesNextCandidate :
    (EngineInv Engine.reset ∧ Engine.reset.nfe = 0) ∧ (EngineInv spentEngine ∧ spentEngine.nfe ≠ 0) :=
  ⟨⟨Engine.reset_inv, rfl⟩, spentEngine_inv, by decide⟩

/-- Narrow's check at its ends: the smallest range of the largest total, and each way to fail it. -/
theorem test_witness_NarrowScalesTheInterval :
    EngineInv State.reset.engine ∧ (0 < 1 ∧ 1 ≤ 0x8000 ∧ 0x8000 ≤ 0x8000) ∧ (0x7FFF < 0x8000 ∧ 0x8000 ≤ 0x8000) ∧
    ¬ (5 < 5 ∧ 5 ≤ 9 ∧ 9 ≤ 0x8000) ∧ ¬ (5 < 6 ∧ 6 ≤ 5 ∧ 5 ≤ 0x8000) ∧ ¬ (0 < 1 ∧ 1 ≤ 0x8001 ∧ 0x8001 ≤ 0x8000) := by
  refine ⟨Engine.reset_inv, ?_⟩; decide

/-- The smallest and the largest RANGE Narrow can leave, in both directions, and the threshold R146 turns at. -/
theorem test_witness_RenormRestoresRange :
    (0x8000 < Engine.reset.range.toNat ∧ ({ Engine.reset with range := 0x8000 } : Engine).range.toNat ≤ 0x8000 ∧
      0x8000 < ({ Engine.reset with range := 0x8001 } : Engine).range.toNat ∧
      1 ≤ ({ Engine.reset with range := 1 } : Engine).range.toNat) ∧
    (∃ u, renorm .enc (encState { Engine.reset with range := 1 } Carry.reset) = .ok () u ∧ u.engine.range = 0x10000) ∧
    ∃ u, renorm .dec State.reset = .ok () u ∧ State.reset.engine.range.toNat ≤ 0x10000 :=
  ⟨by decide, ⟨_, ok_of (by decide +kernel), by decide +kernel⟩, _, ok_of (by decide +kernel), by decide⟩

/-- The premises of the doubling and of the detach. -/
theorem test_witness_DoubleAndDetachRegisters :
    spentEngine.low.toNat < 2 ^ 31 ∧ spentEngine.range.toNat < 2 ^ 31 ∧ spentEngine.nfe.toNat < 2 ^ 31 ∧
    spentEngine.feven.toNat < 2 ^ 31 ∧ spentEngine.ibits.toNat < 31 ∧
    (encState { low := 0x410000, range := 0x10000, nfe := 0x418000, feven := 0x7FFF, ibits := 24 } Carry.reset).engine.low.toNat ≤
      0x418000 := by decide

/-- Each case of R151, at the values where the cases meet: 254, 255, 256 and 511. -/
theorem test_witness_ByteWithCarryCases :
    (match byteWithCarry 256 opened with
      | .raised c _ => c == .carryNoPending
      | .ok _ _ => false
      | .held => false) = true ∧
    (match byteWithCarry 511 (encState Engine.reset { byte := 0xFF, buf := 1 }) with
      | .raised c _ => c == .carryOverflow
      | .ok _ _ => false
      | .held => false) = true ∧
    (match byteWithCarry 255 fullRunState with
      | .raised c _ => c == .counterOverflow
      | .ok _ _ => false
      | .held => false) = true ∧
    (match byteWithCarry 255 (encState Engine.reset { byte := 0xFF, buf := 1 }) with
      | .ok _ u => u.carry == { byte := 0xFF, buf := 2 }
      | .raised _ _ => false
      | .held => false) = true ∧
    (match byteWithCarry 254 (encState Engine.reset { byte := 0x41, buf := 1 }) with
      | .ok _ u => u.carry == { byte := 254, buf := 1 } && u.out == [0x41 ^^^ 0x37]
      | .raised _ _ => false
      | .held => false) = true := by decide

theorem opened_room : counterRoom opened := by unfold counterRoom; decide

/-- ENC_SYM's first and last symbol, and ENC_END. -/
theorem test_witness_EncSymCompletes :
    Inv opened ∧ opened.fault = false ∧ opened.mode = .enc ∧ (0 : Half).toNat < opened.params.nsym.toNat ∧
    (0xFF : Half).toNat < opened.params.nsym.toNat ∧ counterRoom opened ∧ opened.engine.feven ≠ 0 ∧
    opened.model.total ≤ 0x4000 :=
  ⟨opened_inv, rfl, rfl, by decide, by decide, opened_room, by decide, by decide⟩

theorem test_witness_EncEndCompletes : Inv opened ∧ opened.fault = false ∧ opened.mode = .enc ∧ counterRoom opened :=
  ⟨opened_inv, rfl, rfl, opened_room⟩

theorem test_witness_EncoderCommandsFrame :
    (∃ t, exec (.encSym true 0x41) opened = .next t ∧ t.fault = false) ∧ ∃ t, exec .encEnd opened = .next t ∧ t.fault = false :=
  ⟨⟨_, next_of (by decide +kernel), by decide +kernel⟩, _, next_of (by decide +kernel), by decide +kernel⟩

/-- The four sources of the next byte or bit: held zeros, the held byte, the file, and a spare bit. -/
theorem test_witness_NextByteAndPull :
    ({ zeroFile with look := { LookAhead.reset with followBuf := 1 } } : State).look.followBuf ≠ 0 ∧
    (heldFile.look.followBuf = 0 ∧ heldFile.look.fbValid = true) ∧
    (zeroFile.look.followBuf = 0 ∧ zeroFile.look.fbValid = false ∧ fiNext zeroFile = .ok (0, true) zeroFile) ∧
    ({ zeroFile with look := { LookAhead.reset with vshift := 7 } } : State).look.vshift ≠ 0 ∧
    (zeroFile.look.vshift = 0 ∧ zeroFile.look.value.toNat < 2 ^ 24 ∧ nextByte zeroFile = .ok 0 zeroFile) := by
  refine ⟨by decide, ⟨by decide, by decide⟩, ⟨by decide, by decide, rfl⟩, by decide, by decide, by decide, rfl⟩

/-- A stream that is exhausted and one that is not. -/
theorem test_witness_ExhaustedTellsIfOnlyZerosRemain :
    (FollowInv zeroFile.look ∧ exhausted zeroFile = .ok true zeroFile) ∧
    (FollowInv heldFile.look ∧ exhausted heldFile = .ok false heldFile) :=
  ⟨⟨reset_follow, rfl⟩, iff_of_true (by decide) (by decide), rfl⟩

theorem test_witness_DecSymReturnsEnd :
    Inv zeroFile ∧ zeroFile.fault = false ∧ zeroFile.mode = .dec ∧ inDuty zeroFile ∧
    zeroFile.look.followBuf.toNat + zeroFile.inp.length < 2 ^ 32 ∧
    zeroFile.look.value.toNat = (zeroFile.engine.nfe.toNat - zeroFile.engine.low.toNat) * 2 ^ zeroFile.look.vshift.toNat ∧
    ∀ n bytes v, streamTake n zeroFile = .ok bytes v → ∀ t ∈ bytes, t = 0 := by
  refine ⟨zeroFile_inv, rfl, rfl, .inl rfl, by decide, by decide, fun n bytes v h t ht => ?_⟩
  rw [zeroFile_stream] at h
  obtain ⟨rfl, -⟩ := Res.ok.inj h
  exact (List.mem_replicate.mp ht).2

/-- The three ways the stream does not end: no end permitted, another VALUE, and a byte still to come. -/
theorem test_witness_DecSymReturnsSymbol :
    (Inv zeroFile ∧ zeroFile.fault = false ∧ zeroFile.mode = .dec ∧ inDuty zeroFile ∧
      zeroFile.look.followBuf.toNat + zeroFile.inp.length < 2 ^ 32 ∧ zeroFile.engine.feven ≠ 0 ∧
      zeroFile.model.total ≤ 0x4000) ∧
    (Inv heldFile ∧ inDuty heldFile ∧ ∃ n bytes v, streamTake n heldFile = .ok bytes v ∧ ∃ t ∈ bytes, t ≠ 0) ∧
    (let s := decState { LookAhead.reset with value := 0xFFFF } { first := false, carry := false, eof := true } []
     Inv s ∧ s.look.value.toNat ≠ (s.engine.nfe.toNat - s.engine.low.toNat) * 2 ^ s.look.vshift.toNat) := by
  refine ⟨⟨zeroFile_inv, rfl, rfl, .inl rfl, by decide, by decide, by decide⟩, ⟨heldFile_inv, .inl rfl, 1, [5], _, rfl, 5, ?_, ?_⟩,
    decState_inv ⟨by decide, by decide⟩ reset_follow rfl, by decide⟩
  · decide
  · decide

theorem test_witness_DecSymFrame :
    (∃ t, exec (.decSym false) zeroFile = .next t ∧ t.mode = .dec) ∧
    ∃ t, exec (.decSym true) zeroFile = .next t ∧ t.mode ≠ zeroFile.mode :=
  ⟨⟨_, next_of (by decide +kernel), by decide +kernel⟩, _, next_of (by decide +kernel), by decide +kernel⟩

theorem test_witness_DecoderMirrorsEncoder :
    Inv opened ∧ Inv zeroFile ∧ opened.engine = zeroFile.engine ∧ opened.model = zeroFile.model ∧
    opened.params = zeroFile.params ∧
    ∃ e' d', exec (.encSym false 0) opened = .next e' ∧ exec (.decSym false) zeroFile = .next d' ∧ e'.fault = false ∧
      d'.fault = false ∧ d'.res0 = (0 : Half).setWidth 32 :=
  ⟨opened_inv, zeroFile_inv, rfl, rfl, rfl, _, _, next_of (by decide +kernel), next_of (by decide +kernel), by decide +kernel,
    by decide +kernel, by decide +kernel⟩

/-- FoPutWritesThePairedFile, FiNextReadsThePairedStream, FiNextInvertsFoPut: a fresh output side with a short stream, and a fresh input side with a file on IN (V-F11). -/
theorem test_witness_FoPutAndFiNext :
    State.reset.fo = FoSide.reset ∧ State.reset.fi = FiSide.reset ∧ ([5, 0, 0, 1, 0] : List Byte).length < 2 ^ 32 ∧
    ([0x32, 0xC8, 0xC9] : List Byte) ≠ [] ∧
    (State.reset.supplyIn (fileItems [0x32, 0xC8, 0xC9])).inp = fileItems [0x32, 0xC8, 0xC9] ++ [] ∧
    ∃ u, foPutAll [5, 0, 0, 1, 0] State.reset = .ok () u ∧ (foEnd u).out = State.reset.out ++ [0x32, 0xC8, 0xC9] := by
  exact ⟨rfl, rfl, by decide, by decide, by decide, _, ok_of (by decide +kernel), by decide +kernel⟩

/-- A run's command that begins a file, one that begins a message, one that adds to it, and one that does neither. -/
theorem test_witness_RunNotesFileAndMessage :
    ([runAt State.reset 0x10000000 0, runAt (State.reset.supplyIn (fileItems [0x37])) 0x20000000 0,
      runAt zeroFile 0x58000000 0, runAt opened 0x40000000 0] : List Run).all (fun r =>
        r.state.params.admitted && r.state.nextCommand.isSome && decide (r.fileStart ≤ r.state.out.length) &&
        match r.next with
        | .next r' => !r'.state.fault
        | .fault _ => false
        | .refused _ => false) = true := by decide +kernel

/-- V-F14: a file and its number. -/
theorem test_witness_FileNumberIsBijective :
    ([0x37] : List Byte) ≠ [] ∧ fileNumber [0x37] = fileNumber [0x37] ∧ fileNumber [0x37] = some 0 ∧
    fileNumber [0x37, 0xC8] = some 65536 := by decide

end Sys2Proof.Tests
end

/-!
PROOFS. The statements of 00_scope.md: what the parameters of R6 decide of a step (R254, R279; log entries 1 and 4), and the
bounds of the model's counts (R180).
-/

namespace Sys2Proof.Machine

/-! ### The step by its parameters -/

/-- A build whose BLOCKSIZE R6 does not admit is refused before anything else is looked at. -/
theorem step_of_blockSize_ne_one {s : State} (h : s.params.blockSize ≠ 1) : step s = .refused .blockSizeNotOne := by
  have hb : s.params.blockSizeAdmitted = false := beq_eq_false_iff_ne.mpr h
  simp [step, hb]

/-- A build with BLOCKSIZE 1 that R6 does not admit is refused for NSYM or LEAFBASE. -/
theorem step_of_not_admitted {s : State} (hb : s.params.blockSize = 1) (h : s.params.admitted = false) :
    step s = .refused .parametersNotAdmitted := by
  have hb' : s.params.blockSizeAdmitted = true := beq_iff_eq.mpr hb
  have hm : s.params.modelAdmitted = false := by simpa [Params.admitted, hb'] using h
  simp [step, hb', hm]

/-- An admitted build runs the host's next word, and holds its state while there is none. -/
theorem step_of_admitted {s : State} (h : s.params.admitted = true) :
    step s = s.nextWord.elim (.next s) fun w => runWord w s := by
  obtain ⟨hb, hm⟩ : s.params.blockSizeAdmitted = true ∧ s.params.modelAdmitted = true := by
    simpa [Params.admitted] using h
  cases hw : s.nextWord <;> simp [step, hb, hm, hw]

/-- Settles O7: the three parameter cases of a step, the admitted one with no word to run. -/
theorem stepWithoutCommand : Obligations.StepWithoutCommand := by
  refine ⟨fun s hp hw => ?_, fun s => step_of_blockSize_ne_one, fun s => step_of_not_admitted⟩
  rw [step_of_admitted hp, hw, Option.elim_none]

/-! ### The model's bounds -/

/-- A symbol's count is its initial count and what the window adds (R189). -/
theorem ModelInv.leafBase_le_count {p : Params} {m : Model} (h : ModelInv p m) {sym : Nat} (hs : sym < p.nsym.toNat) :
    p.leafBase.toNat ≤ m.count (p.z + sym) := by
  rw [h.leafCount sym hs]
  exact Nat.le_add_right _ _

/-- The total is never below the symbols' initial counts. -/
theorem ModelInv.initial_le_total {p : Params} {m : Model} (hp : p.admitted = true) (h : ModelInv p m) :
    p.nsym.toNat * p.leafBase.toNat ≤ m.total := by
  rw [h.total_sum hp]
  exact Nat.le_add_right _ _

/-- The window adds at most the weight of 4096 full slots, 15360, to the symbols' initial counts. -/
theorem ModelInv.total_le_initial_add_window {p : Params} {m : Model} (hp : p.admitted = true) (h : ModelInv p m) :
    m.total ≤ p.nsym.toNat * p.leafBase.toNat + Config.windowTotal := by
  rw [h.total_sum hp]
  exact Nat.add_le_add_left (recentWeight_total m _) _

/-- Settles O33: the total lies between the symbols' initial counts and these with a full window, and a symbol's range
holds its count. -/
theorem modelBounds : Obligations.ModelBounds := by
  intro p m hp h
  have hlow := h.initial_le_total hp
  have hhigh := h.total_le_initial_add_window hp
  refine ⟨h.total_pos hp, hhigh, h.total_most hp, ?_, fun sym hs => ?_⟩
  · rintro rfl
    exact ⟨hlow, hhigh⟩
  · obtain ⟨hne, hle, -⟩ := rangeOf_valid hp h hs
    exact ⟨h.leafBase_le_count hs, hne, hle⟩

end Sys2Proof.Machine

/-!
PROOFS. The statements of 10_state.md: what a step runs and how far it moves pc (R28), the parameter registers and STATUS
(R38, R41), and the invariant, which holds at power-on reset and which every step keeps (R20, R27, R35, R36).
-/

namespace Sys2Proof.Machine

/-! ### What a step leaves, returned or raised -/

section
variable {α : Type} {P : State → Prop} {r : Res α} {u : State}

theorem Res.All.of_ok {a : α} (h : r.All P) (e : r = .ok a u) : P u := by rwa [e] at h

theorem Res.All.of_raised {c : Cause} (h : r.All P) (e : r = .raised c u) : P u := by rwa [e] at h

end

/-- A mode check leaves the state alone, or runs the body (R234). -/
theorem inMode_all {P : State → Prop} {m : Mode} {body : State → Res Unit} {s : State} (h : P s) (hb : (body s).All P) :
    (inMode m body s).All P := by
  unfold inMode
  split
  · exact hb
  · exact h

theorem inMode_eq_ok {m : Mode} {body : State → Res Unit} {s u : State} :
    inMode m body s = .ok () u ↔ s.mode = m ∧ body s = .ok () u := by
  unfold inMode
  split <;> simp [*]

/-! ### The body of a command, and what it never writes -/

/-- What a command does between the fault-state gate and its end: its own meaning without `command` or `commandAlways`. -/
def bodyOf : Instr → State → Res Unit
  | .nop => fun s => .ok () s
  | .initEnc => fun s => .ok () { streamReset s with mode := .enc }
  | .initDec => fun s => decStart { streamReset s with mode := .dec }
  | .encSym c sym => inMode .enc (encodeSymbol (operand sym) c)
  | .encEnd => inMode .enc fun s => (coderEnd s).andThen fun _ s => .ok () { foEnd s with mode := .encDone }
  | .decSym c => inMode .dec fun s => (endTest c s).andThen fun ended s =>
      if ended then .ok () (decodeEnd s) else decodeSymbol c s
  | .modelUpdate sym => update sym
  | .modelReset => fun s => .ok () (modelReset s)
  | .modelProbone => fun s => .ok () (s.writeResults (zext32 s.model.total) 0)
  | .modelSymrange sym => fun s => (symRange (operand sym) s).andThen fun r s =>
      .ok () (s.writeResults (zext32 (operand sym)) (packRange r.2 r.1))
  | .modelGetsym p => fun s => (getSymbol (operand p) s).andThen fun r s =>
      .ok () (s.writeResults (zext32 r.1) (packRange r.2.2 r.2.1))
  | .rdreg addr => fun s => .ok () { s with res0 := debugRead s (operand addr) }

/-- Every command but NOP and RDREG stands behind the fault-state gate (R231). -/
theorem exec_eq_command {i : Instr} (h : runsInFault i = false) (s : State) : exec i s = command i (bodyOf i) s := by
  cases i with
  | nop => cases h
  | rdreg addr => cases h
  | _ => rfl

/-- Every way a command can reach a next state: it is ignored, it completes, or it faults (R231). -/
theorem exec_eq_next {i : Instr} {s t : State} (h : exec i s = .next t) :
    (s.fault = true ∧ t = s.advance) ∨
    (∃ u, bodyOf i s = .ok () u ∧ t = u.advance) ∨
    (s.fault = false ∧ ∃ c u, bodyOf i s = .raised c u ∧ t = u.faultEntry c (encode i)) := by
  by_cases hr : runsInFault i = false
  · rw [exec_eq_command hr] at h
    rcases command_eq_next.mp h with hi | ⟨-, hok⟩ | hraised
    · exact .inl hi
    · exact .inr (.inl hok)
    · exact .inr (.inr hraised)
  · cases i with
    | nop => exact .inr (.inl ⟨_, rfl, (Host.Outcome.next.inj h).symm⟩)
    | rdreg addr => exact .inr (.inl ⟨_, rfl, (Host.Outcome.next.inj h).symm⟩)
    | _ => exact absurd rfl hr

/-- What a command's body may do to the model: nothing, ModelReset (R185), or Update of a symbol (R183). -/
def ModelChange (p : Params) (m m' : Model) : Prop :=
  m' = m ∨ m' = Model.reset p ∨ ∃ sym : Half, sym.toNat < p.nsym.toNat ∧ m' = m.record p.z sym

/-- What no command's body writes: the parameters (R41), the host's list and its index (R28), and the fault registers, which
only fault entry writes (R231); and how the model may change. -/
structure BodyFrame (s t : State) : Prop where
  params : t.params = s.params
  cmds : t.cmds = s.cmds
  pc : t.pc = s.pc
  fault : t.fault = s.fault
  cause : t.cause = s.cause
  faultCmd : t.faultCmd = s.faultCmd
  model : ModelChange s.params s.model t.model

theorem BodyFrame.refl (s : State) : BodyFrame s s := ⟨rfl, rfl, rfl, rfl, rfl, rfl, .inl rfl⟩

/-- What the bodies of the model commands, NOP and RDREG may write: the model and the results. -/
structure ModelFrame (s t : State) : Prop where
  rest : t = { s with model := t.model, res0 := t.res0, res1 := t.res1 }
  change : ModelChange s.params s.model t.model

theorem ModelFrame.refl (s : State) : ModelFrame s s := ⟨rfl, .inl rfl⟩

theorem ModelFrame.writeResults (s : State) (r0 r1 : Word) : ModelFrame s (s.writeResults r0 r1) := ⟨rfl, .inl rfl⟩

theorem ModelFrame.toBody {s t : State} (h : ModelFrame s t) : BodyFrame s t := by
  have hm := h.change
  rw [h.rest]; exact ⟨rfl, rfl, rfl, rfl, rfl, rfl, hm⟩

theorem EncFrame.toBody {s t : State} (h : EncFrame s t) : BodyFrame s t := by
  rw [h.rest]; exact ⟨rfl, rfl, rfl, rfl, rfl, rfl, .inl rfl⟩

theorem DecFrame.toBody {s t : State} (h : DecFrame s t) : BodyFrame s t := by
  rw [h.rest]; exact ⟨rfl, rfl, rfl, rfl, rfl, rfl, .inl rfl⟩

/-- The results and MODE are no part of the frame. -/
theorem BodyFrame.results_iff {s t : State} {r0 r1 : Word} {m : Mode} :
    BodyFrame s { t with res0 := r0, res1 := r1, mode := m } ↔ BodyFrame s t :=
  ⟨fun h => ⟨h.params, h.cmds, h.pc, h.fault, h.cause, h.faultCmd, h.model⟩,
   fun h => ⟨h.params, h.cmds, h.pc, h.fault, h.cause, h.faultCmd, h.model⟩⟩

theorem BodyFrame.writeResults {s t : State} (h : BodyFrame s t) (r0 r1 : Word) : BodyFrame s (t.writeResults r0 r1) :=
  results_iff.mpr h

theorem BodyFrame.setMode {s t : State} (h : BodyFrame s t) (m : Mode) : BodyFrame s { t with mode := m } :=
  results_iff.mpr h

/-- StreamReset resets the model and writes nothing else of the frame (R209). -/
theorem streamReset_frame (s : State) : BodyFrame s (streamReset s) :=
  ⟨rfl, rfl, rfl, rfl, rfl, rfl, .inr (.inl rfl)⟩

/-- SymRange writes nothing (R181). -/
theorem symRange_all (sym : Nat) (s : State) : (symRange sym s).All (· = s) := by
  unfold symRange
  split <;> rfl

/-- GetSymbol writes nothing (R182). -/
theorem getSymbol_all (p : Nat) (s : State) : (getSymbol p s).All (· = s) := by
  unfold getSymbol
  split <;> rfl

/-- After StreamReset, INIT_DEC writes no more than the decoder's reads do (R159, R212). -/
theorem initDec_frame (s : State) :
    (bodyOf .initDec s).All (LookFrame { streamReset s with mode := .dec }) := decStart_frame _

/-- Update's writes, also where it raises ModelRange after them (R183). -/
theorem update_frame (sym : Half) (s : State) : (update sym s).All (ModelFrame s) := by
  unfold update
  split
  · next hs =>
    have hrec : ModelFrame s { s with model := s.model.record s.params.z sym } :=
      ⟨rfl, .inr (.inr ⟨sym, of_decide_eq_true hs, rfl⟩)⟩
    dsimp only
    split <;> exact hrec
  · exact ModelFrame.refl s

theorem modelReset_frame (s : State) : (bodyOf .modelReset s).All (ModelFrame s) := ⟨rfl, .inr (.inl rfl)⟩

theorem probone_frame (s : State) : (bodyOf .modelProbone s).All (ModelFrame s) := ModelFrame.writeResults s _ _

theorem symrange_frame (sym : Half) (s : State) : (bodyOf (.modelSymrange sym) s).All (ModelFrame s) := by
  refine (symRange_all _ s).andThen (fun _ h => h ▸ ModelFrame.refl s) fun _ u _ hu => ?_
  rw [hu]
  exact ModelFrame.writeResults s _ _

theorem getsym_frame (p : Half) (s : State) : (bodyOf (.modelGetsym p) s).All (ModelFrame s) := by
  refine (getSymbol_all _ s).andThen (fun _ h => h ▸ ModelFrame.refl s) fun _ u _ hu => ?_
  rw [hu]
  exact ModelFrame.writeResults s _ _

theorem rdreg_frame (addr : Half) (s : State) : (bodyOf (.rdreg addr) s).All (ModelFrame s) := ⟨rfl, .inl rfl⟩

theorem encEnd_frame (s : State) : (bodyOf .encEnd s).All (BodyFrame s) := by
  unfold bodyOf
  refine inMode_all (BodyFrame.refl s) ?_
  refine ((coderEnd_frame s).mono fun _ h => h.toEnc).andThen (fun _ h => h.toBody) fun _ u _ hu => ?_
  exact (hu.trans (foEnd_frame u).toCarry.toEnc).toBody.setMode .encDone

theorem decSym_frame (c : Bool) (s : State) : (bodyOf (.decSym c) s).All (BodyFrame s) := by
  unfold bodyOf
  refine inMode_all (BodyFrame.refl s) ?_
  refine ((endTest_frame c s).mono fun _ h => h.toDec).andThen (fun _ h => h.toBody) fun ended u _ hu => ?_
  cases ended with
  | true => exact (hu.toBody.writeResults 0xFFFFFFFF 0).setMode .decDone
  | false => exact (decodeSymbol_frame c u).mono fun _ h => BodyFrame.results_iff.mp (hu.trans h).toBody

/-- The frame of every command's body, in every state, whether it returns or raises. -/
theorem bodyOf_frame (i : Instr) (s : State) : (bodyOf i s).All (BodyFrame s) := by
  cases i with
  | nop => exact BodyFrame.refl s
  | initEnc => exact (streamReset_frame s).setMode .enc
  | initDec => exact (initDec_frame s).mono fun u h => by rw [h.rest]; exact ⟨rfl, rfl, rfl, rfl, rfl, rfl, .inr (.inl rfl)⟩
  | encSym c sym => exact inMode_all (BodyFrame.refl s) ((encodeSymbol_frame _ c s).mono fun _ h => h.toBody)
  | encEnd => exact encEnd_frame s
  | decSym c => exact decSym_frame c s
  | modelUpdate sym => exact (update_frame sym s).mono fun _ h => h.toBody
  | modelReset => exact (modelReset_frame s).mono fun _ h => h.toBody
  | modelProbone => exact (probone_frame s).mono fun _ h => h.toBody
  | modelSymrange sym => exact (symrange_frame sym s).mono fun _ h => h.toBody
  | modelGetsym p => exact (getsym_frame p s).mono fun _ h => h.toBody
  | rdreg addr => exact (rdreg_frame addr s).mono fun _ h => h.toBody

/-- What a command that answers a next state never writes, and how it moves pc (R28, R41). -/
theorem exec_frame {i : Instr} {s t : State} (h : exec i s = .next t) :
    t.params = s.params ∧ t.cmds = s.cmds ∧ t.pc = s.pc + 1 := by
  rcases exec_eq_next h with ⟨-, rfl⟩ | ⟨u, hu, rfl⟩ | ⟨-, c, u, hu, rfl⟩
  · exact ⟨rfl, rfl, rfl⟩
  · have hfr := (bodyOf_frame i s).of_ok hu
    simp [hfr.params, hfr.cmds, hfr.pc]
  · have hfr := (bodyOf_frame i s).of_raised hu
    simp [hfr.params, hfr.cmds, hfr.pc]

/-- Settles O8, by the frame of the commands' bodies: only the command's end moves pc, in each of the three endings. -/
theorem pcAdvancesByOne : Obligations.PcAdvancesByOne := by
  intro i s t h
  obtain ⟨-, hcmds, hpc⟩ := exec_frame h
  exact ⟨hpc, hcmds⟩

/-- How ENC_END completes (R156). -/
theorem encEnd_eq_ok {s u : State} : bodyOf .encEnd s = .ok () u ↔
    s.mode = .enc ∧ ∃ v, coderEnd s = .ok () v ∧ u = { foEnd v with mode := .encDone } := by
  rw [bodyOf, inMode_eq_ok]
  simp [Res.andThen_eq_ok, Unique.exists_iff, eq_comm (a := u)]

/-- How DEC_SYM completes: at the end of the stream, or with a symbol (R162). -/
theorem decSym_eq_ok {c : Bool} {s u : State} : bodyOf (.decSym c) s = .ok () u ↔
    s.mode = .dec ∧ ((∃ v, endTest c s = .ok true v ∧ u = decodeEnd v) ∨
      ∃ v, endTest c s = .ok false v ∧ decodeSymbol c v = .ok () u) := by
  rw [bodyOf, inMode_eq_ok]
  simp [Res.andThen_eq_ok, eq_comm (a := u), or_comm]

/-! ### The model's half of the invariant -/

/-- ModelReset and Update keep the model's counts those of its window (R185, R189). -/
theorem ModelChange.keeps_modelInv {p : Params} {m m' : Model} (hp : p.admitted = true) (h : ModelInv p m)
    (hc : ModelChange p m m') : ModelInv p m' := by
  rcases hc with rfl | rfl | ⟨sym, hs, rfl⟩
  · exact h
  · exact (modelInv_iff hp).mpr (Model.reset_cells p hp)
  · exact (modelInv_iff hp).mpr (Model.record_cells hp ((modelInv_iff hp).mp h) hs)

theorem BodyFrame.keeps_modelInv {s t : State} (hfr : BodyFrame s t) (h : Inv s) : ModelInv t.params t.model := by
  rw [hfr.params]
  exact hfr.model.keeps_modelInv h.admitted h.model

/-! ### The registers' half of the invariant, by mode -/

/-- The registers' invariant reads neither the model nor the results nor pc. -/
theorem LiveInv.congr {s t : State} (h : LiveInv s)
    (e : t = { s with model := t.model, res0 := t.res0, res1 := t.res1, pc := t.pc }) : LiveInv t := by
  rw [e]
  exact ⟨h.engine, h.carry, h.carryUnused, h.value, h.lookUnused, h.follow, h.fileBegun, h.foRun, h.fo, h.noCause, h.noFaultCmd⟩

theorem LiveInv.of_modelFrame {s t : State} (h : LiveInv s) (hfr : ModelFrame s t) : LiveInv t :=
  h.congr (by rw [hfr.rest])

theorem followInv_reset : FollowInv LookAhead.reset := iff_of_false (by decide) (by decide)

theorem foInv_reset : FoInv FoSide.reset := fun _ => ⟨rfl, rfl⟩

/-- The registers' invariant while a stream is being encoded, where only the engine, the carry buffer and the output side
have moved (R27, R29, R33, R152). -/
theorem LiveInv.of_enc {s : State} (hm : s.mode = .enc) (he : EngineInv s.engine) (hc : CarryInv s.engine s.carry)
    (hl : s.look = LookAhead.reset) (hfo : FoInv s.fo) (hcause : s.cause = .noFault) (hcmd : s.faultCmd = 0) : LiveInv s where
  engine := he
  carry _ := hc
  carryUnused h := absurd h (by rw [hm]; decide)
  value h := absurd h (by rw [hm]; decide)
  lookUnused _ := hl
  follow := hl ▸ followInv_reset
  fileBegun h := absurd h (by rw [hm]; decide)
  foRun h := (hfo h).1
  fo _ := hfo
  noCause := hcause
  noFaultCmd := hcmd

/-- The registers' invariant while a file is being decoded, where the carry buffer and the output side are unused (R24, R27,
R32, R167). -/
theorem LiveInv.of_dec {s : State} (hm : s.mode = .dec) (he : EngineInv s.engine) (hc : s.carry = Carry.reset)
    (hv : ValueInv s.engine s.look) (hf : FollowInv s.look) (hb : s.fi.first = false) (hfo : FoInv s.fo)
    (hcause : s.cause = .noFault) (hcmd : s.faultCmd = 0) : LiveInv s where
  engine := he
  carry h := absurd h (by rw [hm]; decide)
  carryUnused _ := hc
  value _ := hv
  lookUnused h := absurd h (by rw [hm]; decide)
  follow := hf
  fileBegun _ := hb
  foRun h := (hfo h).1
  fo _ := hfo
  noCause := hcause
  noFaultCmd := hcmd

/-- The decoder's steps keep the registers' invariant when they keep R27 and R32. -/
theorem LiveInv.of_decFrame {s t : State} (h : LiveInv s) (hm : s.mode = .dec) (hfr : DecFrame s t) (he : EngineInv t.engine)
    (hv : ValueInv t.engine t.look) (hf : FollowInv t.look) (hb : t.fi.first = false) : LiveInv t := by
  have hmode : t.mode = s.mode := by rw [hfr.rest]
  have hcarry : t.carry = s.carry := by rw [hfr.rest]
  have hfo : t.fo = s.fo := by rw [hfr.rest]
  have hctl := hfr.toBody
  exact .of_dec (hmode.trans hm) he (hcarry.trans (h.carryUnused (.inr (.inl hm)))) hv hf hb
    (hfo ▸ h.fo (by rw [hm]; decide)) (hctl.cause.trans h.noCause) (hctl.faultCmd.trans h.noFaultCmd)

/-- MODE = DEC_DONE asks no more of the registers than DEC does, and the END result writes nothing else but the results
(R162). -/
theorem LiveInv.decodeEnd {s : State} (h : LiveInv s) (hm : s.mode = .dec) : LiveInv (decodeEnd s) where
  engine := h.engine
  carry hc := by simp at hc
  carryUnused _ := h.carryUnused (.inr (.inl hm))
  value _ := h.value (.inl hm)
  lookUnused hc := by simp at hc
  follow := h.follow
  fileBegun _ := h.fileBegun (.inl hm)
  foRun := h.foRun
  fo _ := h.fo (by rw [hm]; decide)
  noCause := h.noCause
  noFaultCmd := h.noFaultCmd

/-! ### Each coder command keeps the registers' invariant -/

/-- INIT_ENC opens a stream (R209, R211). -/
theorem initEnc_live {s : State} (h : LiveInv s) : LiveInv { streamReset s with mode := .enc } :=
  .of_enc rfl Engine.reset_inv (fun _ => Engine.reset_noCarry) rfl foInv_reset h.noCause h.noFaultCmd

/-- The two stream bytes INIT_DEC reads are below RANGE = 0x10000 (R159, R212). -/
theorem initDec_live {s u : State} (h : LiveInv s) (hu : bodyOf .initDec s = .ok () u) : LiveInv u := by
  obtain ⟨hval, hshift, hfollow, hbegun⟩ := decStart_ok hu rfl rfl followInv_reset rfl
  have hfr := (initDec_frame s).of_ok hu
  have hengine : u.engine = Engine.reset := by rw [hfr.rest]; rfl
  have hv : ValueInv u.engine u.look := by
    rw [hengine]
    exact ⟨by rw [hshift]; exact hval, by rw [hshift]; decide⟩
  exact .of_dec (by rw [hfr.rest]) (hengine ▸ Engine.reset_inv) (by rw [hfr.rest]; rfl) hv hfollow hbegun
    (by rw [hfr.rest]; exact foInv_reset) (by rw [hfr.rest]; exact h.noCause) (by rw [hfr.rest]; exact h.noFaultCmd)

/-- A symbol the encoder takes leaves R27 and R152 (R153). -/
theorem encSym_live {s u : State} {c : Bool} {sym : Half} (h : Inv s) (hf : s.fault = false)
    (hu : bodyOf (.encSym c sym) s = .ok () u) : LiveInv u := by
  obtain ⟨hm, hu⟩ := inMode_eq_ok.mp hu
  have hl := h.live hf
  have hs : operand sym < s.params.nsym.toNat := by
    by_contra hs
    simp [encodeSymbol, symRange, symbolKnown, hs] at hu
  rcases encodeSymbol_spec (c := c) h hf hm hs with ⟨v, hv, he, hc, hfo, hfr, -⟩ | ⟨v, hv, -⟩ | ⟨v, hv, -⟩
  · obtain rfl : v = u := by simpa [hv] using hu
    have hctl := hfr.toBody
    exact .of_enc (by rw [hfr.rest]; exact hm) he hc (by rw [hfr.rest]; exact hl.lookUnused (.inr (.inl hm))) hfo
      (hctl.cause.trans hl.noCause) (hctl.faultCmd.trans hl.noFaultCmd)
  · simp [hv] at hu
  · simp [hv] at hu

theorem foEnd_zrun (s : State) : (foEnd s).fo.zrun = 0 := by
  unfold foEnd
  split <;> rfl

/-- ENC_END leaves the interval engine as it was; after FO_End only R33's own implication holds of the output side (R104,
R154, R156). -/
theorem encEnd_live {s u : State} (h : LiveInv s) (hu : bodyOf .encEnd s = .ok () u) : LiveInv u := by
  obtain ⟨hm, v, hv, rfl⟩ := encEnd_eq_ok.mp hu
  have hfr := ((coderEnd_frame s).of_ok hv).toEnc.trans (foEnd_frame v).toCarry.toEnc
  have hctl := hfr.toBody
  have hengine : (foEnd v).engine = s.engine := by
    rw [(foEnd_frame v).rest, ((coderEnd_frame s).of_ok hv).rest]
  have hlook : (foEnd v).look = s.look := by rw [hfr.rest]
  exact {
    engine := hengine ▸ h.engine
    carry := fun hc => by simp at hc
    carryUnused := fun hc => by simp at hc
    value := fun hc => by simp at hc
    lookUnused := fun _ => hlook.trans (h.lookUnused (.inr (.inl hm)))
    follow := hlook ▸ h.follow
    fileBegun := fun hc => by simp at hc
    foRun := fun _ => foEnd_zrun v
    fo := fun hc => absurd rfl hc
    noCause := hctl.cause.trans h.noCause
    noFaultCmd := hctl.faultCmd.trans h.noFaultCmd }

/-- The end test leaves the whole invariant, whatever it answers (R160, R165). -/
theorem endTest_inv {s u : State} {c b : Bool} (h : Inv s) (hf : s.fault = false) (hm : s.mode = .dec)
    (hu : endTest c s = .ok b u) : Inv u := by
  have hl := h.live hf
  obtain ⟨hkept, hfollow, hvalue, hshift⟩ := endTest_ok hu hl.follow
  have hfr := (endTest_frame c s).of_ok hu
  have hengine : u.engine = s.engine := by rw [hfr.rest]
  have hv : ValueInv u.engine u.look :=
    ⟨by rw [hengine, hvalue, hshift]; exact (hl.valueDec hm).valueBelow, by rw [hshift]; exact (hl.valueDec hm).vshiftMost⟩
  have hctl := hfr.toDec.toBody
  exact ⟨hctl.params ▸ h.admitted, hctl.keeps_modelInv h, fun _ =>
    hl.of_decFrame hm hfr.toDec (hengine ▸ hl.engine) hv hfollow (hkept.begun (hl.fileBegun (.inl hm)))⟩

/-- A decoded symbol leaves R27 and R32 (R162). -/
theorem decodeSymbol_live {s u : State} {c : Bool} (h : Inv s) (hf : s.fault = false) (hm : s.mode = .dec)
    (hu : decodeSymbol c s = .ok () u) : LiveInv u := by
  have hl := h.live hf
  rcases decodeSymbol_spec (c := c) h hf hm with
    ⟨sym, v, -, -, -, hv, he, hval, hfollow, hfr, hkept, -⟩ | ⟨v, hv, -⟩ | ⟨hv, -⟩
  · have hlive := hl.of_decFrame hm hfr he hval hfollow (hkept.begun (hl.fileBegun (.inl hm)))
    rw [hv] at hu
    obtain ⟨-, rfl⟩ := Res.ok.inj hu
    exact hlive.congr rfl
  · simp [hv] at hu
  · simp [hv] at hu

/-- DEC_SYM keeps the registers' invariant, at the end of the stream and on a symbol (R162). -/
theorem decSym_live {s u : State} {c : Bool} (h : Inv s) (hf : s.fault = false) (hu : bodyOf (.decSym c) s = .ok () u) :
    LiveInv u := by
  obtain ⟨hm, hend⟩ := decSym_eq_ok.mp hu
  have hkeep : ∀ {b v}, endTest c s = .ok b v → Inv v ∧ v.fault = false ∧ v.mode = .dec := fun hv => by
    have hfr := (endTest_frame c s).of_ok hv
    exact ⟨endTest_inv h hf hm hv, by rw [hfr.rest]; exact hf, by rw [hfr.rest]; exact hm⟩
  rcases hend with ⟨v, hv, rfl⟩ | ⟨v, hv, hu⟩
  · obtain ⟨hinv, hfv, hmv⟩ := hkeep hv
    exact (hinv.live hfv).decodeEnd hmv
  · obtain ⟨hinv, hfv, hmv⟩ := hkeep hv
    exact decodeSymbol_live hinv hfv hmv hu

/-! ### The step -/

/-- A command that completes keeps the registers' invariant. -/
theorem bodyOf_live {i : Instr} {s u : State} (h : Inv s) (hf : s.fault = false) (hu : bodyOf i s = .ok () u) : LiveInv u := by
  have hl := h.live hf
  cases i with
  | nop => obtain ⟨-, rfl⟩ := Res.ok.inj hu; exact hl
  | initEnc => obtain ⟨-, rfl⟩ := Res.ok.inj hu; exact initEnc_live hl
  | initDec => exact initDec_live hl hu
  | encSym c sym => exact encSym_live h hf hu
  | encEnd => exact encEnd_live hl hu
  | decSym c => exact decSym_live h hf hu
  | modelUpdate sym => exact hl.of_modelFrame ((update_frame sym s).of_ok hu)
  | modelReset => exact hl.of_modelFrame ((modelReset_frame s).of_ok hu)
  | modelProbone => exact hl.of_modelFrame ((probone_frame s).of_ok hu)
  | modelSymrange sym => exact hl.of_modelFrame ((symrange_frame sym s).of_ok hu)
  | modelGetsym p => exact hl.of_modelFrame ((getsym_frame p s).of_ok hu)
  | rdreg addr => exact hl.of_modelFrame ((rdreg_frame addr s).of_ok hu)

/-- The end of a command moves pc alone. -/
theorem Inv.advance {s : State} (h : Inv s) : Inv s.advance :=
  ⟨h.admitted, h.model, fun hf => (h.live hf).congr rfl⟩

/-- In the fault state the invariant asks nothing of the registers. -/
theorem Inv.faultEntry {s : State} (hp : s.params.admitted = true) (hm : ModelInv s.params s.model) (c : Cause) (w : Word) :
    Inv (s.faultEntry c w) :=
  ⟨by simpa using hp, by simpa using hm, fun hf => by simp at hf⟩

/-- Every command keeps the invariant: ignored, completed or faulted. -/
theorem exec_keeps_inv {i : Instr} {s t : State} (h : Inv s) (ht : exec i s = .next t) : Inv t := by
  rcases exec_eq_next ht with ⟨-, rfl⟩ | ⟨u, hu, rfl⟩ | ⟨-, c, u, hu, rfl⟩
  · exact h.advance
  · have hfr := (bodyOf_frame i s).of_ok hu
    have hinv : Inv u := ⟨hfr.params ▸ h.admitted, hfr.keeps_modelInv h, fun hf => bodyOf_live h (hfr.fault ▸ hf) hu⟩
    exact hinv.advance
  · have hfr := (bodyOf_frame i s).of_raised hu
    exact .faultEntry (hfr.params ▸ h.admitted) (hfr.keeps_modelInv h) c _

/-- An illegal word is ignored in the fault state and raises a fault outside it (R232). -/
theorem illegalWord_inv {s : State} (h : Inv s) (w : Word) : Inv (illegalWord w s) := by
  unfold illegalWord
  split
  · exact h.advance
  · exact .faultEntry h.admitted h.model _ _

/-- Settles O12: an idle step keeps the state, a legal word is a command, and an illegal one a fault. -/
theorem stepKeepsInv : Obligations.StepKeepsInv := by
  intro s t h ht
  rw [step_of_admitted h.admitted] at ht
  cases hw : s.nextWord with
  | none =>
    rw [hw, Option.elim_none] at ht
    exact Host.Outcome.next.inj ht ▸ h
  | some w =>
    rw [hw, Option.elim_some, runWord] at ht
    split at ht
    · exact exec_keeps_inv h ht
    · exact Host.Outcome.next.inj ht ▸ illegalWord_inv h w

/-! ### Reset -/

/-- Settles O10: power-on reset gives the reset model and the engine that INIT_ENC opens a stream with, and an empty carry
buffer and look-ahead. -/
theorem powerOnMeetsInv : Obligations.PowerOnMeetsInv := by
  intro p hp
  refine ⟨hp, (modelInv_iff hp).mpr (Model.reset_cells p hp), fun _ => ?_⟩
  exact {
    engine := Engine.reset_inv
    carry := fun h => nomatch h
    carryUnused := fun _ => rfl
    value := fun h => by simp at h
    lookUnused := fun _ => rfl
    follow := followInv_reset
    fileBegun := fun h => by simp at h
    foRun := fun _ => rfl
    fo := fun _ => foInv_reset
    noCause := rfl
    noFaultCmd := rfl }

/-- Settles O11: the byte codec's parameters are admitted. -/
theorem resetMeetsInv : Obligations.ResetMeetsInv := powerOnMeetsInv Params.byteCodec (by decide)

/-! ### The word a step runs -/

/-- The word of a command decodes to it (R80, R82, R86). -/
theorem decode_encode (i : Instr) : decode (encode i) = .ok i := by
  obtain ⟨hsplit, hlegal⟩ : Laws.EncodesLegal.Statement i := by
    cases i with
    | nop => exact Laws.EncodesLegal.nop
    | initEnc => exact Laws.EncodesLegal.initEnc
    | initDec => exact Laws.EncodesLegal.initDec
    | encSym c sym => exact Laws.EncodesLegal.encSym c sym
    | encEnd => exact Laws.EncodesLegal.encEnd
    | decSym c => exact Laws.EncodesLegal.decSym c
    | modelUpdate sym => exact Laws.EncodesLegal.modelUpdate sym
    | modelReset => exact Laws.EncodesLegal.modelReset
    | modelProbone => exact Laws.EncodesLegal.modelProbone
    | modelSymrange sym => exact Laws.EncodesLegal.modelSymrange sym
    | modelGetsym p => exact Laws.EncodesLegal.modelGetsym p
    | rdreg addr => exact Laws.EncodesLegal.rdreg addr
  rw [decode, hsplit, decodeCmd_wellFormed hlegal]
  cases i <;> rfl

/-- A row's word of 32 bits is the word (R80). -/
theorem tableWord_toNat (w : Word) : tableWord 32 w.toNat = w := by
  rw [tableWord, Nat.mod_eq_of_lt w.isLt, toWord, BitVec.ofNat_toNat, BitVec.setWidth_eq]

theorem step_of_legal {s : State} {w : Word} {i : Instr} (hp : s.params.admitted = true) (hw : s.nextWord = some w)
    (hi : decode w = .ok i) : step s = exec i s := by
  rw [step_of_admitted hp, hw, Option.elim_some, runWord, hi]

theorem step_of_illegal {s : State} {w : Word} {why : Illegal} (hp : s.params.admitted = true) (hw : s.nextWord = some w)
    (hi : decode w = .illegal why) : step s = .next (illegalWord w s) := by
  rw [step_of_admitted hp, hw, Option.elim_some, runWord, hi]

/-- Settles O6: the word at the host's index, legal or not, and the word withFetchWord places there. -/
theorem stepRunsDecodedWord : Obligations.StepRunsDecodedWord := by
  refine ⟨fun s w i => step_of_legal, fun s i hp => ?_, fun s w why hp hw hi => ⟨step_of_illegal hp hw hi, ?_⟩⟩
  · rw [State.withFetchWord, tableWord_toNat]
    exact step_of_legal hp (State.nextWord_placeWord s _) (decode_encode i)
  · split
    · next hf => exact illegalWord_of_faulted hf w
    · next hf => exact illegalWord_of_clear (by simpa using hf) w

/-! ### The control registers -/

/-- Settles O22: RDREG's debug map, BLOCKSIZE of R6, and the frame of the commands. -/
theorem parametersAreReadOnly : Obligations.ParametersAreReadOnly := by
  refine ⟨fun s => ⟨rfl, rfl, rfl, fun hp => ?_⟩, fun i s t h => (exec_frame h).1⟩
  have hb : s.params.blockSize = 1 := ((admitted_iff _).mp hp).1
  show s.params.blockSize.setWidth 32 = 1
  rw [hb]
  rfl

/-- Settles O21: each field of STATUS is one of the five parts it is put together from. -/
theorem statusLayout : Obligations.StatusLayout := by
  refine ⟨fun s => ⟨?_, ?_, ?_, ?_, ?_, rfl⟩, by decide⟩
  · rw [State.status, BitVec.extractLsb'_append_eq_right]
    cases s.mode <;> rfl
  · rw [State.status, BitVec.getLsbD_append, BitVec.getLsbD_append]
    simp
  · rw [State.status, BitVec.extractLsb'_append_eq_of_le (by decide), BitVec.extractLsb'_append_eq_of_le (by decide)]
    exact BitVec.extractLsb'_append_eq_right
  · rw [State.status, BitVec.extractLsb'_append_eq_of_le (by decide), BitVec.extractLsb'_append_eq_of_le (by decide),
      BitVec.extractLsb'_append_eq_of_le (by decide)]
    refine BitVec.extractLsb'_append_eq_right.trans ?_
    cases s.cause <;> rfl
  · rw [State.status, BitVec.extractLsb'_append_eq_of_le (by decide), BitVec.extractLsb'_append_eq_of_le (by decide),
      BitVec.extractLsb'_append_eq_of_le (by decide)]
    exact BitVec.extractLsb'_append_eq_left

end Sys2Proof.Machine

/-!
PROOFS. The statements of 20_memory.md: the ports OUT and IN (R60, R61, R70), the sizes of TREE and WIN (R65), and the two
commands whose meaning is a port's or the debug space's: INIT_DEC's reads (R212) and RDREG's debug map (R64, R213).
-/

namespace Sys2Proof.Machine

/-! ### Steps in sequence, and steps and outcomes under a change of the state -/

section
variable {α β : Type} {g : State → State}

/-- What follows a step that does not hold is what holds. -/
theorem Res.andThen_eq_held_of_ne {r : Res α} {f : α → State → Res β} (hr : r ≠ .held) :
    r.andThen f = .held ↔ ∃ a u, r = .ok a u ∧ f a u = .held := by
  rw [Res.andThen_eq_held, or_iff_right hr]

/-- A step's answer with `g` applied to the state it leaves. -/
def Res.mapState (g : State → State) : Res α → Res α
  | .ok a s => .ok a (g s)
  | .raised c s => .raised c (g s)
  | .held => .held

theorem Res.mapState_andThen {r r' : Res α} {f f' : α → State → Res β} (hr : r' = r.mapState g)
    (hf : ∀ a u, f' a (g u) = (f a u).mapState g) : r'.andThen f' = (r.andThen f).mapState g := by
  subst hr
  cases r with
  | ok a u => exact hf a u
  | raised c u => rfl
  | held => rfl

theorem Res.mapState_ite {c : Prop} [Decidable c] {r r' q q' : Res α} (hr : r' = r.mapState g) (hq : q' = q.mapState g) :
    (if c then r' else q') = (if c then r else q).mapState g := by
  rw [hr, hq, apply_ite (Res.mapState g)]

end

/-- A command's outcome with `g` applied to its next state. -/
def outcomeMap (g : State → State) : Host.Outcome State Fault Refusal → Host.Outcome State Fault Refusal
  | .next t => .next (g t)
  | .fault f => .fault f
  | .refused r => .refused r

/-! ### How a command ends -/

/-- Every command is its body behind the fault-state gate, which NOP and RDREG pass (R231). -/
theorem exec_eq_gate (i : Instr) (s : State) :
    exec i s = if s.fault = true ∧ runsInFault i = false then .next s.advance else finish (encode i) (bodyOf i s) := by
  by_cases hr : runsInFault i = false
  · rw [exec_eq_command hr, command]
    simp only [hr, and_true]
  · rw [if_neg fun h => hr h.2]
    cases i with
    | nop => rfl
    | rdreg addr => rfl
    | _ => exact absurd rfl hr

/-- Only a body that holds stops a command, and a gated one only outside the fault state (R61, R231, log entry 2). -/
theorem exec_eq_fault {i : Instr} {s : State} {f : Fault} (h : exec i s = .fault f) :
    f = .heldOnIn ∧ bodyOf i s = .held ∧ (runsInFault i = false → s.fault = false) := by
  rw [exec_eq_gate] at h
  split at h
  · cases h
  · next hg =>
    obtain ⟨hheld, hf⟩ := finish_eq_fault.mp h
    exact ⟨hf, hheld, fun hr => by simpa [hr] using hg⟩

theorem exec_not_refused (i : Instr) (s : State) (r : Refusal) : exec i s ≠ .refused r := by
  rw [exec_eq_gate]
  split
  · simp
  · exact finish_not_refused

/-- What holds of the state and of whatever the body leaves, and what the command's end keeps, holds of the next state. -/
theorem exec_next_all {P : State → Prop} {i : Instr} {s t : State} (h : exec i s = .next t) (hs : P s)
    (hbody : (bodyOf i s).All P) (hadvance : ∀ u, P u → P u.advance)
    (hfault : ∀ u c, P u → P (u.faultEntry c (encode i))) : P t := by
  rcases exec_eq_next h with ⟨-, rfl⟩ | ⟨u, hu, rfl⟩ | ⟨-, c, u, hu, rfl⟩
  · exact hadvance s hs
  · exact hadvance u (hbody.of_ok hu)
  · exact hfault u c (hbody.of_raised hu)

/-! ### Nothing reads OUT (R60) -/

/-- The state with the bytes `before` standing on OUT before those it has. -/
def State.prependOut (before : List Byte) (s : State) : State := { s with out := before ++ s.out }

/-- The step `f` reads nothing of OUT: bytes put before those on OUT stay there and change nothing else. -/
def OutUnread {α : Type} (f : State → Res α) : Prop :=
  ∀ before s, f (s.prependOut before) = (f s).mapState (State.prependOut before)

theorem OutUnread.inMode {m : Mode} {body : State → Res Unit} (h : OutUnread body) : OutUnread (inMode m body) :=
  fun before s => Res.mapState_ite (h before s) rfl

theorem fileOut_prependOut (b : Byte) (before : List Byte) (s : State) :
    fileOut b (s.prependOut before) = (fileOut b s).prependOut before := by
  simp [fileOut, State.prependOut]

theorem fileOutRun_prependOut (n : Nat) (b : Byte) (before : List Byte) (s : State) :
    fileOutRun n b (s.prependOut before) = (fileOutRun n b s).prependOut before := by
  simp [fileOutRun, State.prependOut]

/-! The bijector's output side appends to OUT and reads only the FO registers (R103, R104). -/

theorem foFlush_prependOut (before : List Byte) (s : State) :
    foFlush (s.prependOut before) = (foFlush s).prependOut before := by
  unfold foFlush
  rw [fileOut_prependOut, fileOutRun_prependOut]
  rfl

theorem foDigit_prependOut (t : Byte) (before : List Byte) (s : State) :
    foDigit t (s.prependOut before) = (foDigit t s).prependOut before := by
  unfold foDigit
  rw [apply_ite (State.prependOut before), fileOut_prependOut]
  rfl

theorem foEnd_prependOut (before : List Byte) (s : State) : foEnd (s.prependOut before) = (foEnd s).prependOut before := by
  unfold foEnd
  rw [apply_ite (State.prependOut before), fileOut_prependOut]
  rfl

theorem foPut_unread (t : Byte) : OutUnread (foPut t) := by
  intro before s
  unfold foPut
  rw [fileOut_prependOut, foFlush_prependOut, foDigit_prependOut, foDigit_prependOut]
  exact Res.mapState_ite rfl (Res.mapState_ite (Res.mapState_ite (Res.mapState_ite rfl rfl) rfl) rfl)

theorem foPutRun_unread (n : Nat) (t : Byte) : OutUnread (foPutRun n t) := by
  induction n with
  | zero => exact fun _ _ => rfl
  | succ n ih => exact fun before s => Res.mapState_andThen (foPut_unread t before s) fun _ u => ih before u

/-! So do the encoder's steps (R151, R154). -/

theorem resolveCarry_unread (t fill : Byte) (b : Nat) : OutUnread (resolveCarry t fill b) := fun before s =>
  Res.mapState_andThen (foPut_unread t before s) fun _ u =>
    Res.mapState_andThen (foPutRun_unread _ fill before u) fun _ _ => rfl

theorem byteWithCarry_unread (b : Nat) : OutUnread (byteWithCarry b) := by
  intro before s
  unfold byteWithCarry
  refine Res.mapState_ite (Res.mapState_ite rfl rfl) (Res.mapState_ite (Res.mapState_ite rfl ?_) (Res.mapState_ite ?_
    (Res.mapState_ite rfl rfl)))
  · exact resolveCarry_unread _ _ _ before s
  · exact resolveCarry_unread _ _ _ before s

theorem coderEnd_unread : OutUnread coderEnd := fun before s =>
  Res.mapState_andThen (byteWithCarry_unread _ before s) fun _ u =>
    Res.mapState_andThen (byteWithCarry_unread _ before u) fun _ v =>
      Res.mapState_andThen (byteWithCarry_unread _ before v) fun _ w =>
        Res.mapState_ite (byteWithCarry_unread 0 before w) rfl

/-! The decoder's reads take their bytes from IN (R105, R159, R161, R164, R165). -/

theorem fileIn_unread : OutUnread fileIn := by
  intro before s
  unfold fileIn
  cases h : s.inp <;> simp [State.prependOut, h, Res.mapState]

theorem fiItem_unread (item : InItem) : OutUnread (fiItem item) := by
  intro before s
  cases item with
  | eof => exact Res.mapState_ite rfl rfl
  | byte b => rfl

theorem fiNext_unread : OutUnread fiNext := fun before s =>
  Res.mapState_ite rfl (Res.mapState_andThen (fileIn_unread before s) fun item u => fiItem_unread item before u)

theorem nextByte_unread : OutUnread nextByte := fun before s =>
  Res.mapState_ite rfl (Res.mapState_ite rfl (Res.mapState_andThen (fiNext_unread before s) fun _ _ => rfl))

theorem pull_unread : OutUnread pull := fun before s =>
  Res.mapState_ite (Res.mapState_andThen (nextByte_unread before s) fun _ _ => rfl) rfl

theorem decStart_unread : OutUnread decStart := fun before s =>
  Res.mapState_andThen (nextByte_unread before s) fun t u =>
    have hread := nextByte_unread before { u with look := { u.look with value := toWord (t.toNat <<< 8) } }
    Res.mapState_andThen hread fun _ _ => rfl

theorem exhaustedLoop_unread (n : Nat) : OutUnread (exhaustedLoop n) := by
  induction n with
  | zero => exact fun _ _ => rfl
  | succ n ih =>
    refine fun before s => Res.mapState_ite rfl (Res.mapState_andThen (fiNext_unread before s) fun t u => ?_)
    refine Res.mapState_ite rfl (Res.mapState_ite (Res.mapState_ite rfl ?_) ?_)
    · exact ih before { u with look := { u.look with followBuf := u.look.followBuf + 1 } }
    · exact ih before { u with look := { u.look with followByte := t.1, fbValid := true } }

theorem endTest_unread (c : Bool) : OutUnread (endTest c) := fun before s =>
  Res.mapState_ite (exhaustedLoop_unread _ before s) rfl

/-! The interval engine's steps read their own registers (R143 to R148). -/

theorem narrow_unread (lo hi p : Nat) : OutUnread (narrow lo hi p) := fun _ _ =>
  Res.mapState_ite (Res.mapState_ite rfl rfl) rfl

theorem cap_unread : OutUnread cap := fun _ _ => Res.mapState_ite rfl rfl

theorem detachIf_unread (dir : Dir) : OutUnread (detachIf dir) := by
  refine fun before s => Res.mapState_ite ?_ rfl
  cases dir with
  | enc => exact Res.mapState_andThen (byteWithCarry_unread _ before s) fun _ _ => rfl
  | dec => rfl

theorem pullIf_unread (dir : Dir) : OutUnread (pullIf dir) := by
  cases dir with
  | enc => exact fun _ _ => rfl
  | dec => exact pull_unread

theorem takeValueIf_unread (dir : Dir) (newl : Nat) : OutUnread (takeValueIf dir newl) := by
  cases dir with
  | enc => exact fun _ _ => rfl
  | dec => exact fun _ _ => Res.mapState_ite rfl rfl

theorem renormLoop_unread (n : Nat) (dir : Dir) : OutUnread (renormLoop n dir) := by
  induction n with
  | zero => exact fun _ _ => rfl
  | succ n ih =>
    refine fun before s => Res.mapState_ite (Res.mapState_andThen (pullIf_unread dir before s) fun _ u => ?_) rfl
    exact Res.mapState_andThen (detachIf_unread dir before { u with engine := u.engine.double }) fun _ v => ih before v

theorem symbolSteps_unread (lo hi p : Nat) (c : Bool) (dir : Dir) : OutUnread (symbolSteps lo hi p c dir) := fun before s =>
  Res.mapState_andThen (narrow_unread lo hi p before { s with engine := s.engine.reserveIf c }) fun newl u =>
    Res.mapState_andThen (takeValueIf_unread dir newl before u) fun _ v =>
      Res.mapState_andThen (cap_unread before { v with engine := v.engine.reseat }) fun _ w =>
        renormLoop_unread 16 dir before w

/-! So do the model's steps (R181 to R183), and with them the commands. -/

theorem symRange_unread (sym : Nat) : OutUnread (symRange sym) := fun _ _ => Res.mapState_ite rfl rfl

theorem getSymbol_unread (p : Nat) : OutUnread (getSymbol p) := fun _ _ => Res.mapState_ite rfl rfl

theorem update_unread (sym : Half) : OutUnread (update sym) := fun _ _ =>
  Res.mapState_ite (Res.mapState_ite rfl rfl) rfl

theorem encodeSymbol_unread (sym : Nat) (c : Bool) : OutUnread (encodeSymbol sym c) := fun before s =>
  Res.mapState_andThen (symRange_unread sym before s) fun r u => symbolSteps_unread r.1 r.2 u.model.total c .enc before u

theorem decodeSymbol_unread (c : Bool) : OutUnread (decodeSymbol c) := fun before s =>
  Res.mapState_andThen (getSymbol_unread (symbolPoint s) before s) fun r u =>
    Res.mapState_andThen (symbolSteps_unread r.2.1 r.2.2 u.model.total c .dec before u) fun _ _ => rfl

theorem bodyOf_unread (i : Instr) : OutUnread (bodyOf i) := by
  cases i with
  | nop => exact fun _ _ => rfl
  | initEnc => exact fun _ _ => rfl
  | initDec => exact fun before s => decStart_unread before { streamReset s with mode := .dec }
  | encSym c sym => exact (encodeSymbol_unread (operand sym) c).inMode
  | encEnd =>
    refine OutUnread.inMode fun before s => Res.mapState_andThen (coderEnd_unread before s) fun _ u => ?_
    rw [foEnd_prependOut]
    rfl
  | decSym c =>
    exact OutUnread.inMode fun before s => Res.mapState_andThen (endTest_unread c before s) fun ended u =>
      Res.mapState_ite rfl (decodeSymbol_unread c before u)
  | modelUpdate sym => exact update_unread sym
  | modelReset => exact fun _ _ => rfl
  | modelProbone => exact fun _ _ => rfl
  | modelSymrange sym => exact fun before s => Res.mapState_andThen (symRange_unread _ before s) fun _ _ => rfl
  | modelGetsym p => exact fun before s => Res.mapState_andThen (getSymbol_unread _ before s) fun _ _ => rfl
  | rdreg addr => exact fun _ _ => rfl

theorem faultEntry_prependOut (before : List Byte) (s : State) (c : Cause) (w : Word) :
    (s.prependOut before).faultEntry c w = (s.faultEntry c w).prependOut before := by
  unfold State.faultEntry
  rw [apply_ite (State.prependOut before)]
  rfl

/-- A command's end moves pc and the fault registers alone. -/
theorem finish_prependOut (w : Word) (before : List Byte) (r : Res Unit) :
    finish w (r.mapState (State.prependOut before)) = outcomeMap (State.prependOut before) (finish w r) := by
  cases r with
  | ok a u => rfl
  | raised c u => exact congrArg Host.Outcome.next (faultEntry_prependOut before u c w)
  | held => rfl

theorem exec_prependOut (i : Instr) (before : List Byte) (s : State) :
    exec i (s.prependOut before) = outcomeMap (State.prependOut before) (exec i s) := by
  rw [exec_eq_gate, exec_eq_gate, bodyOf_unread, finish_prependOut, apply_ite (outcomeMap (State.prependOut before))]
  rfl

/-! ### What a command does to the ports -/

/-- What the command `i` may do to the ports: append to OUT, and take items from IN, in order, only in INIT_DEC, or in DEC_SYM
before the file's EOF (R60, R61). -/
structure PortFrame (i : Instr) (s t : State) : Prop where
  appends : s.out <+: t.out
  takes : t.inp <:+ s.inp
  takesNone : i ≠ .initDec → (∀ c, i = .decSym c → s.fi.eof = true) → t.inp = s.inp

/-- A command that leaves IN alone. -/
theorem PortFrame.of_inp_eq {i : Instr} {s t : State} (hout : s.out <+: t.out) (hin : t.inp = s.inp) : PortFrame i s t :=
  ⟨hout, hin ▸ List.suffix_rfl, fun _ _ => hin⟩

theorem EncFrame.toPort {i : Instr} {s t : State} (h : EncFrame s t) : PortFrame i s t :=
  .of_inp_eq h.appends (by rw [h.rest])

theorem ModelFrame.toPort {i : Instr} {s t : State} (h : ModelFrame s t) : PortFrame i s t :=
  .of_inp_eq (by rw [h.rest]) (by rw [h.rest])

theorem DecFrame.toPort {c : Bool} {s t : State} (h : DecFrame s t) : PortFrame (.decSym c) s t :=
  ⟨by rw [h.rest], h.takes, fun _ heof => (h.afterEof (heof c rfl)).2⟩

/-- The results and MODE are no part of the ports. -/
theorem PortFrame.results_iff {i : Instr} {s t : State} {r0 r1 : Word} {m : Mode} :
    PortFrame i s { t with res0 := r0, res1 := r1, mode := m } ↔ PortFrame i s t :=
  ⟨fun h => ⟨h.appends, h.takes, h.takesNone⟩, fun h => ⟨h.appends, h.takes, h.takesNone⟩⟩

theorem encEnd_ports (s : State) : (bodyOf .encEnd s).All (PortFrame .encEnd s) := by
  unfold bodyOf
  refine inMode_all (EncFrame.refl s).toPort ?_
  refine ((coderEnd_frame s).mono fun _ h => h.toEnc).andThen (fun _ h => h.toPort) fun _ u _ hu => ?_
  exact PortFrame.results_iff.mpr (hu.trans (foEnd_frame u).toCarry.toEnc).toPort

theorem decSym_ports (c : Bool) (s : State) : (bodyOf (.decSym c) s).All (PortFrame (.decSym c) s) := by
  unfold bodyOf
  refine inMode_all (DecFrame.refl s).toPort ?_
  refine ((endTest_frame c s).mono fun _ h => h.toDec).andThen (fun _ h => h.toPort) fun ended u _ hu => ?_
  cases ended with
  | true => exact (PortFrame.results_iff (t := u)).mpr hu.toPort
  | false => exact (decodeSymbol_frame c u).mono fun _ h => PortFrame.results_iff.mp (hu.trans h).toPort

/-- What every command's body does to the ports, in every state, whether it returns or raises. -/
theorem bodyOf_ports (i : Instr) (s : State) : (bodyOf i s).All (PortFrame i s) := by
  cases i with
  | nop => exact (ModelFrame.refl s).toPort
  | initEnc => exact .of_inp_eq List.prefix_rfl rfl
  | initDec =>
    exact (initDec_frame s).mono fun u h => ⟨by rw [h.rest]; exact List.prefix_rfl, h.takes, fun hne => absurd rfl hne⟩
  | encSym c sym => exact inMode_all (EncFrame.refl s).toPort ((encodeSymbol_frame _ c s).mono fun _ h => h.toPort)
  | encEnd => exact encEnd_ports s
  | decSym c => exact decSym_ports c s
  | modelUpdate sym => exact (update_frame sym s).mono fun _ h => h.toPort
  | modelReset => exact (modelReset_frame s).mono fun _ h => h.toPort
  | modelProbone => exact (probone_frame s).mono fun _ h => h.toPort
  | modelSymrange sym => exact (symrange_frame sym s).mono fun _ h => h.toPort
  | modelGetsym p => exact (getsym_frame p s).mono fun _ h => h.toPort
  | rdreg addr => exact (rdreg_frame addr s).mono fun _ h => h.toPort

/-- A command's end moves nothing of the ports. -/
theorem exec_ports {i : Instr} {s t : State} (h : exec i s = .next t) : PortFrame i s t :=
  exec_next_all h (ModelFrame.refl s).toPort (bodyOf_ports i s)
    (fun _ hu => ⟨hu.appends, hu.takes, hu.takesNone⟩)
    fun _ _ hu => ⟨by simpa using hu.appends, by simpa using hu.takes, by simpa using hu.takesNone⟩

/-- Settles O23: the ports' frame, and every step of every command commuting with bytes put before those on OUT. -/
theorem outIsAppendOnlyAndUnread : Obligations.OutIsAppendOnlyAndUnread := by
  refine ⟨State.powerOn_out, fun _ _ => rfl, fun i s t h => (exec_ports h).appends, fun i s before => ?_⟩
  refine (exec_prependOut i before s).trans ?_
  cases exec i s <;> rfl

/-- Settles O24: the ports' frame, read for the commands that take no item. -/
theorem inputItemsAreTakenInOrder : Obligations.InputItemsAreTakenInOrder := by
  intro i s t h
  have hfr := exec_ports h
  exact ⟨hfr.takes, fun hi => hfr.takesNone hi.1 fun c hc => absurd hc (hi.2 c),
    fun heof hi => hfr.takesNone hi fun _ _ => heof⟩

/-! ### When a command holds (R61) -/

theorem not_inDuty_iff {s : State} : ¬ inDuty s ↔ s.fi.eof = false ∧ .eof ∉ s.inp := by
  simp [inDuty]

/-- DecStart's reads hold only while the host owes an item (R159). -/
theorem decStart_not_held {s : State} (hd : inDuty s) : decStart s ≠ .held := by
  intro h
  rcases Res.andThen_eq_held.mp h with h | ⟨t, u, hu, h⟩
  · exact nextByte_not_held hd h
  have hdu : inDuty u := nextByte_duty hu hd
  rcases Res.andThen_eq_held.mp h with h | ⟨_, v, _, h⟩
  · exact nextByte_not_held (s := { u with look := { u.look with value := toWord (t.toNat <<< 8) } }) hdu h
  · cases h

theorem update_not_held {sym : Half} {s : State} : update sym s ≠ .held := by
  unfold update
  dsimp only
  split
  · split <;> simp
  · simp

theorem symRange_not_held {sym : Nat} {s : State} : symRange sym s ≠ .held := by
  unfold symRange
  split <;> simp

theorem getSymbol_not_held {p : Nat} {s : State} : getSymbol p s ≠ .held := by
  unfold getSymbol
  split <;> simp

theorem inMode_eq_held {m : Mode} {body : State → Res Unit} {s : State} :
    inMode m body s = .held ↔ s.mode = m ∧ body s = .held := by
  unfold inMode
  split <;> simp [*]

/-- DEC_SYM holds only while the host owes an item, in the end test or in the symbol's steps (R162). -/
theorem decSym_held {c : Bool} {s : State} (h : bodyOf (.decSym c) s = .held) : s.mode = .dec ∧ ¬ inDuty s := by
  rw [bodyOf, inMode_eq_held] at h
  obtain ⟨hm, h⟩ := h
  refine ⟨hm, fun hd => ?_⟩
  rw [Res.andThen_eq_held_of_ne (endTest_not_held hd)] at h
  obtain ⟨ended, u, hu, h⟩ := h
  cases ended with
  | true => cases h
  | false => exact decodeSymbol_not_held (endTest_duty hu hd) h

/-- The two bodies that can hold, and what they wait for: INIT_DEC has begun its file anew, so for the file's EOF it needs
one on IN. -/
theorem bodyOf_held {i : Instr} {s : State} (h : bodyOf i s = .held) :
    .eof ∉ s.inp ∧ (i = .initDec ∨ (∃ c, i = .decSym c) ∧ s.mode = .dec ∧ s.fi.eof = false) := by
  cases i with
  | initDec =>
    have hd : .eof ∈ s.inp → inDuty { streamReset s with mode := .dec } := .inr
    exact ⟨fun he => decStart_not_held (hd he) h, .inl rfl⟩
  | decSym c =>
    obtain ⟨hm, hd⟩ := decSym_held h
    obtain ⟨heof, hin⟩ := not_inDuty_iff.mp hd
    exact ⟨hin, .inr ⟨⟨c, rfl⟩, hm, heof⟩⟩
  | encSym c sym => exact absurd (inMode_eq_held.mp h).2 encodeSymbol_not_held
  | encEnd =>
    rw [bodyOf, inMode_eq_held, Res.andThen_eq_held_of_ne coderEnd_not_held] at h
    obtain ⟨-, _, _, -, h⟩ := h
    cases h
  | modelUpdate sym => exact absurd h update_not_held
  | modelSymrange sym =>
    rw [bodyOf, Res.andThen_eq_held_of_ne symRange_not_held] at h
    obtain ⟨_, _, -, h⟩ := h
    cases h
  | modelGetsym p =>
    rw [bodyOf, Res.andThen_eq_held_of_ne getSymbol_not_held] at h
    obtain ⟨_, _, -, h⟩ := h
    cases h
  | nop => cases h
  | initEnc => cases h
  | modelReset => cases h
  | modelProbone => cases h
  | rdreg addr => cases h

/-- Settles O26: a stop comes from a body that holds, and only the reading commands' bodies do. -/
theorem commandsHoldOnlyForInput : Obligations.CommandsHoldOnlyForInput := by
  refine ⟨fun i s f h => ?_, exec_not_refused⟩
  obtain ⟨hf, hheld, hclear⟩ := exec_eq_fault h
  obtain ⟨hin, hi⟩ := bodyOf_held hheld
  refine ⟨hf, hclear ?_, hin, hi⟩
  rcases hi with rfl | ⟨⟨c, rfl⟩, -⟩ <;> rfl

/-! ### The register files (R65) -/

/-- The ways a command may change the model keep the sizes of TREE and WIN. -/
theorem ModelChange.keeps_shape {p : Params} {m m' : Model} (hc : ModelChange p m m') (h : ModelShape p m) :
    ModelShape p m' := by
  rcases hc with rfl | rfl | ⟨sym, -, rfl⟩
  · exact h
  · exact Model.reset_shape p
  · exact Model.record_shape _ sym h

theorem exec_modelChange {i : Instr} {s t : State} (h : exec i s = .next t) : ModelChange s.params s.model t.model :=
  exec_next_all (P := fun t => ModelChange s.params s.model t.model) h (.inl rfl)
    ((bodyOf_frame i s).mono fun _ hu => hu.model) (fun _ hu => hu) fun _ _ hu => by simpa using hu

/-- Settles O13: every command leaves the model, resets it or records a symbol in it, and each keeps the sizes. -/
theorem registerFilesKeepTheirSize : Obligations.RegisterFilesKeepTheirSize := by
  intro i s t htree hwin h
  obtain ⟨htree', hwin'⟩ := (exec_modelChange h).keeps_shape ⟨htree, hwin⟩
  exact ⟨(exec_frame h).1.symm ▸ htree', hwin'⟩

/-! ### INIT_DEC's two stream bytes (R105, R159, R212) -/

/-- Two stream bytes in VALUE, the first the more significant (R159). -/
theorem twoBytes_value (t0 t1 : Byte) :
    toWord ((toWord (t0.toNat <<< 8)).toNat ||| t1.toNat) = toWord (t0.toNat * 256 + t1.toNat) := by
  have h0 := t0.isLt
  rw [toWord_toNat (by rw [Nat.shiftLeft_eq]; omega), ← Nat.shiftLeft_add_eq_or_of_lt t1.isLt, Nat.shiftLeft_eq]

/-- The FI registers after the file's first byte (R105). -/
def FiSide.begun : FiSide := { FiSide.reset with first := false }

/-- DecStart after the file's first byte: it is the first stream byte, in VALUE's upper half (R105, R159). -/
def firstByteTaken (b0 : Byte) (rest : List InItem) (s : State) : State :=
  { s with
    inp := rest, fi := FiSide.begun, look := { s.look with value := toWord ((b0 ^^^ Config.foMask).toNat <<< 8) } }

/-- DecStart's end: the second stream byte goes into VALUE below the first (R159). -/
def secondByteTaken (t : Byte) (s : State) : State :=
  { s with look := { s.look with value := toWord (s.look.value.toNat ||| t.toNat), vshift := 0 } }

/-- FI_Next gives the first byte of a file unchanged but for the mask (R102, R105). -/
theorem fiNext_firstByte {s : State} {b0 : Byte} {rest : List InItem} (hfi : s.fi = FiSide.reset)
    (hin : s.inp = .byte b0 :: rest) :
    fiNext s = .ok (b0 ^^^ Config.foMask, false) { s with inp := rest, fi := FiSide.begun } := by
  rw [fiNext_item (by rw [hfi]; rfl) hin]
  simp only [fiItem, hfi]
  rfl

/-- The second byte of a file carries the digit's 1 (R105). -/
theorem fiNext_secondByte {s : State} {b1 : Byte} {rest : List InItem} (hfi : s.fi = FiSide.begun)
    (hin : s.inp = .byte b1 :: rest) :
    fiNext s = .ok (toByte ((b1 ^^^ Config.foMask).toNat + 1), false)
      { s with
        inp := rest, fi := { FiSide.begun with carry := decide (256 ≤ (b1 ^^^ Config.foMask).toNat + 1) } } := by
  rw [fiNext_item (by rw [hfi]; rfl) hin]
  simp only [fiItem, hfi]
  rfl

/-- The end mark after one byte begins the supply of zeros (R105). -/
theorem fiNext_endOfFirst {s : State} {rest : List InItem} (hfi : s.fi = FiSide.begun) (hin : s.inp = .eof :: rest) :
    fiNext s = .ok (0, true) { s with inp := rest, fi := { FiSide.begun with eof := true } } := by
  rw [fiNext_item (by rw [hfi]; rfl) hin]
  simp only [fiItem, hfi]
  rfl

/-- DecStart on a file that begins with a byte: the second stream byte is FI_Next's (R159, R161). -/
theorem decStart_of_byte {s : State} {b0 : Byte} {rest : List InItem} (hl : s.look = LookAhead.reset)
    (hfi : s.fi = FiSide.reset) (hin : s.inp = .byte b0 :: rest) :
    decStart s = (fiNext (firstByteTaken b0 rest s)).andThen fun t u => .ok () (secondByteTaken t.1 u) := by
  have hfresh : s.look.followBuf = 0 ∧ s.look.fbValid = false := by rw [hl]; exact ⟨rfl, rfl⟩
  have hnext : nextByte (firstByteTaken b0 rest s) = (fiNext (firstByteTaken b0 rest s)).andThen fun t u => .ok t.1 u :=
    nextByte_fresh hfresh.1 hfresh.2
  unfold decStart
  rw [nextByte_fresh hfresh.1 hfresh.2, fiNext_firstByte hfi hin, Res.ok_andThen, Res.ok_andThen]
  refine (congrArg (Res.andThen · _) hnext).trans ?_
  cases fiNext (firstByteTaken b0 rest s) <;> rfl

/-- DecStart holds when the host has supplied nothing. -/
theorem decStart_of_nil {s : State} (hl : s.look = LookAhead.reset) (hfi : s.fi = FiSide.reset) (hin : s.inp = []) :
    decStart s = .held := by
  have hnext : fiNext s = .held := fiNext_held_iff.mpr ⟨by rw [hfi]; rfl, hin⟩
  unfold decStart
  rw [nextByte_fresh (by rw [hl]; rfl) (by rw [hl]; rfl), hnext]
  rfl

/-- What INIT_DEC's reads start from (R212). -/
def decodeOpened (s : State) : State := { streamReset s with mode := .dec }

/-- Outside the fault state INIT_DEC is DecStart on the reset stream. -/
theorem initDec_of_clear {s : State} (hf : s.fault = false) :
    exec .initDec s = finish (encode .initDec) (decStart (decodeOpened s)) := by
  rw [exec_initDec, command_of_clear hf]
  rfl

/-- INIT_DEC on a file that begins with a byte, up to the second read. -/
theorem initDec_of_byte {s : State} {b0 : Byte} {rest : List InItem} (hf : s.fault = false)
    (hin : s.inp = .byte b0 :: rest) :
    exec .initDec s = finish (encode .initDec)
      ((fiNext (firstByteTaken b0 rest (decodeOpened s))).andThen fun t u => .ok () (secondByteTaken t.1 u)) := by
  rw [initDec_of_clear hf, decStart_of_byte (s := decodeOpened s) rfl rfl hin]

/-- Settles O30: the file's first item is a byte or missing, and after a byte comes a byte, EOF, or nothing. -/
theorem initDecReadsTwoBytes : Obligations.InitDecReadsTwoBytes := by
  intro s hf
  refine ⟨fun b0 b1 rest hin => ?_, fun b0 rest hin => ?_, ?_⟩
  · rw [initDec_of_byte hf hin, fiNext_secondByte rfl rfl, Res.ok_andThen, secondByteTaken]
    dsimp only [firstByteTaken]
    rw [twoBytes_value, toByte, BitVec.toNat_ofNat]
    rfl
  · rw [initDec_of_byte hf hin, fiNext_endOfFirst rfl rfl, Res.ok_andThen, secondByteTaken]
    dsimp only [firstByteTaken]
    rw [twoBytes_value, show (0 : Byte).toNat = 0 from rfl, Nat.add_zero]
    rfl
  · rintro (hin | ⟨b0, hin⟩)
    · rw [initDec_of_clear hf, decStart_of_nil (s := decodeOpened s) rfl rfl hin]
      rfl
    · rw [initDec_of_byte hf hin, fiNext_held_iff.mpr ⟨rfl, rfl⟩]
      rfl

/-! ### RDREG and the debug map (R64, R213) -/

/-- The word of RDREG is its match bits with the address in IMM16 (R80, R82). -/
theorem encode_rdreg (a : Half) : encode (.rdreg a) = 0xB0000000 ||| a.setWidth 32 := by
  have hop : ((0xB#4 ++ BitVec.ofBool false) ++ 0#11 : BitVec 16) = 0xB000 := by decide
  have happ : encode (.rdreg a) = 0xB000#16 ++ a := congrArg (· ++ a) hop
  apply BitVec.eq_of_toNat_eq
  rw [happ, BitVec.toNat_append, BitVec.toNat_or, BitVec.toNat_setWidth, Nat.mod_eq_of_lt (by have := a.isLt; omega)]
  rfl

/-- Every address past the registers and below WIN is reserved. -/
theorem debugRegister_reserved {s : State} {a : Nat} (h : 0x16 ≤ a) : debugRegister s a = 0 := by
  obtain ⟨k, rfl⟩ := Nat.exists_eq_add_of_le' h
  rfl

theorem debugRead_win (s : State) (h : BitVec 12) : debugRead s (0x1000 + h.toNat) = (s.model.slot h).setWidth 32 := by
  have := h.isLt
  unfold debugRead
  rw [if_neg (by omega), if_pos (by omega), Nat.add_sub_cancel_left, BitVec.ofNat_toNat, BitVec.setWidth_eq]

theorem debugRead_tree {s : State} {n : Nat} (h : n < 2 * s.params.z) :
    debugRead s (0x2000 + n) = (s.model.tree.getD n 0).setWidth 32 := by
  unfold debugRead
  rw [if_neg (by omega), if_neg (by omega), if_pos (by omega), Nat.add_sub_cancel_left, toWord, Model.count, BitVec.ofNat_toNat]

theorem debugRead_above {s : State} {a : Nat} (h : 0x2000 + 2 * s.params.z ≤ a) : debugRead s a = 0 := by
  unfold debugRead
  rw [if_neg (by omega), if_neg (by omega), if_neg (by omega)]

/-- Flag bits stand at 0, 1 and 2 of a debug word, and the rest of it is 0. -/
theorem flagWord_bits (b0 b1 b2 : Bool) :
    (flagWord b0 b1 b2).getLsbD 0 = b0 ∧ (flagWord b0 b1 b2).getLsbD 1 = b1 ∧ (flagWord b0 b1 b2).getLsbD 2 = b2 ∧
      (flagWord b0 b1 b2).extractLsb' 3 29 = 0 := by
  revert b0 b1 b2
  decide

/-- The FOLLOWBYTE word: the byte in bits 7 to 0, FBVALID in bit 8, and the rest 0. -/
theorem followWord_fields (v : Bool) (b : Byte) :
    let w : Word := (0#23 ++ BitVec.ofBool v) ++ b
    w.extractLsb' 0 8 = b ∧ w.getLsbD 8 = v ∧ w.extractLsb' 9 23 = 0 := by
  refine ⟨BitVec.extractLsb'_append_eq_right, ?_, ?_⟩
  · rw [BitVec.getLsbD_append, BitVec.getLsbD_append]
    simp
  · rw [BitVec.extractLsb'_append_eq_of_le (by decide)]
    exact BitVec.extractLsb'_append_eq_left

/-- Settles O31: RDREG as exec gives it, its word, and R64's table row by row. -/
theorem rdregReadsTheDebugMap : Obligations.RdregReadsTheDebugMap := by
  refine ⟨fun s a => exec_rdreg a s, encode_rdreg, fun s => ⟨⟨rfl, rfl, rfl, rfl, rfl, rfl, rfl, rfl, rfl⟩, ⟨rfl, rfl, rfl, rfl, rfl⟩,
    ?_, ?_, ?_, ?_, fun a hlo hhi => ?_, debugRead_win s, fun n hn => debugRead_tree hn, fun a hlo _ => debugRead_above hlo⟩⟩
  · exact followWord_fields s.look.fbValid s.look.followByte
  · obtain ⟨h0, h1, h2, hrest⟩ := flagWord_bits s.fo.first s.fo.borrow s.fo.hold
    exact ⟨h0, h1, h2, hrest, rfl⟩
  · exact flagWord_bits s.fi.first s.fi.carry s.fi.eof
  · obtain ⟨hnsym, hblock, hleaf, hone⟩ := parametersAreReadOnly.1 s
    exact ⟨rfl, hnsym, hblock, hone, hleaf⟩
  · rw [debugRead, if_pos (by omega), debugRegister_reserved hlo]

end Sys2Proof.Machine

/-!
PROOFS. The statements of 30_encoding.md: decoding and encoding are inverse on the legal words (R80, R82, R86), the checks
on the fields and the match and mask table agree (R82, R83), and what an illegal word does (R232).
-/

namespace Sys2Proof

/-! ### The legal words are the commands' words (R80, R82, R86) -/

/-- Settles O1, by the fields of each command's word, which pass the four checks. -/
theorem decodeEncode : Obligations.DecodeEncode := Machine.decode_encode

/-- The opcodes whose commands read `C` (R83). -/
def readsFlag (op : BitVec 4) : Bool := op == 0x3 || op == 0x5

/-- The opcodes whose commands have an operand (R83). -/
def readsOperand (op : BitVec 4) : Bool := op == 0x3 || op == 0x6 || op == 0x9 || op == 0xA || op == 0xB

/-- The four checks, as facts about the fields (R83). -/
theorem Cmd.wellFormed_iff_fields (c : Cmd) :
    c.wellFormed = true ↔ c.op.toNat < 0xC ∧ c.rsv = 0 ∧ (c.flag = true → readsFlag c.op = true) ∧
      (c.imm ≠ 0 → readsOperand c.op = true) := by
  simp [Cmd.wellFormed_iff, Cmd.opcodeDefined, Cmd.reservedClear, Cmd.flagAllowed, Cmd.operandAllowed, readsFlag,
    readsOperand, Classical.or_iff_not_imp_left]

/-- A well-formed word has nothing outside its opcode, and the flag and the operand where its command reads them. -/
theorem Cmd.eq_of_wellFormed {c : Cmd} (h : c.wellFormed = true) :
    c = ⟨c.op, readsFlag c.op && c.flag, 0, if readsOperand c.op then c.imm else 0⟩ := by
  obtain ⟨-, hrsv, hflag, himm⟩ := (Cmd.wellFormed_iff_fields c).mp h
  have hc : (readsFlag c.op && c.flag) = c.flag := Bool.and_eq_right_iff_imp.mpr hflag
  have hi : (if readsOperand c.op then c.imm else 0) = c.imm := by
    split
    · rfl
    · next hop => exact (not_not.mp (mt himm hop)).symm
  rw [hc, hi, ← hrsv]

/-- The opcodes that have a row (R82). -/
theorem opcode_cases : ∀ op : BitVec 4, op.toNat < 0xC →
    op = 0x0 ∨ op = 0x1 ∨ op = 0x2 ∨ op = 0x3 ∨ op = 0x4 ∨ op = 0x5 ∨ op = 0x6 ∨ op = 0x7 ∨ op = 0x8 ∨ op = 0x9 ∨
      op = 0xA ∨ op = 0xB := by decide

/-- The opcode map loses no field of a well-formed word. -/
theorem commandOf_wellFormed {c : Cmd} (h : c.wellFormed = true) : ∃ i, commandOf c = .ok i ∧ i.fields = c := by
  obtain ⟨hop, -⟩ := (Cmd.wellFormed_iff_fields c).mp h
  rw [Cmd.eq_of_wellFormed h]
  rcases opcode_cases c.op hop with e | e | e | e | e | e | e | e | e | e | e | e <;> rw [e] <;> exact ⟨_, rfl, rfl⟩

/-- Only a word that passes the four checks decodes to a command (R86). -/
theorem wellFormed_of_decodeCmd {c : Cmd} {i : Instr} (h : decodeCmd c = .ok i) : c.wellFormed = true := by
  simp only [decodeCmd, ite_eq_iff, reduceCtorEq, and_false, false_or, Bool.not_eq_true', Bool.not_eq_false] at h
  obtain ⟨hop, hrsv, hflag, himm, -⟩ := h
  exact c.wellFormed_iff.mpr ⟨hop, hrsv, hflag, himm⟩

theorem decode_iff_wellFormed (w : Word) : (∃ i, decode w = .ok i) ↔ (splitWord w).wellFormed = true := by
  refine ⟨fun ⟨i, h⟩ => wellFormed_of_decodeCmd h, fun h => ?_⟩
  obtain ⟨i, hi, -⟩ := commandOf_wellFormed h
  exact ⟨i, (decodeCmd_wellFormed h).trans hi⟩

/-- The command of a legal word has the word's fields. -/
theorem fields_of_decode {w : Word} {i : Instr} (h : decode w = .ok i) : i.fields = splitWord w := by
  have hw := wellFormed_of_decodeCmd h
  obtain ⟨j, hj, hf⟩ := commandOf_wellFormed hw
  rw [decode, decodeCmd_wellFormed hw, hj] at h
  rw [← Decoded.ok.inj h, hf]

/-- Settles O2: the fields of a legal word are its command's, and a word is built from its fields. -/
theorem encodeDecode : Obligations.EncodeDecode := by
  intro w i h
  rw [encode, fields_of_decode h, joinWord_splitWord]

/-- Settles O5: each is the word R80 and R82 give its command. -/
theorem decodesWrittenOutWords : Obligations.DecodesWrittenOutWords := by
  unfold Obligations.DecodesWrittenOutWords
  decide

/-! ### The match and mask table (R82, R83) -/

theorem splitWord_injective : Function.Injective splitWord := Function.LeftInverse.injective joinWord_splitWord

theorem splitWord_and (w m : Word) :
    splitWord (w &&& m) = ⟨(splitWord w).op &&& (splitWord m).op, (splitWord w).flag && (splitWord m).flag,
      (splitWord w).rsv &&& (splitWord m).rsv, (splitWord w).imm &&& (splitWord m).imm⟩ := by
  simp [splitWord, BitVec.extractLsb'_and]

/-- The table's rows stand in the order of their opcodes; a row fixes the opcode, clears the reserved bits, and clears the
flag and the operand where its command does not read them. -/
theorem opcodeTable_row : ∀ op : BitVec 4, ∀ r ∈ opcodeTable[op.toNat]?, op.toNat < 0xC ∧
    splitWord r.matchBits = ⟨op, false, 0, 0⟩ ∧
    splitWord r.maskBits = ⟨.allOnes 4, !readsFlag op, .allOnes 11, if readsOperand op then 0 else .allOnes 16⟩ := by
  decide

theorem mem_opcodeTable_iff {r : OpcodeRow} : r ∈ opcodeTable ↔ ∃ op : BitVec 4, opcodeTable[op.toNat]? = some r := by
  rw [List.mem_iff_getElem?]
  refine ⟨fun ⟨k, hk⟩ => ⟨BitVec.ofNat 4 k, ?_⟩, fun ⟨op, hop⟩ => ⟨op.toNat, hop⟩⟩
  have hlt : k < 12 := (List.getElem?_eq_some_iff.mp hk).1
  rwa [BitVec.toNat_ofNat, Nat.mod_eq_of_lt (by omega)]

/-- The operand's part of a row's mask refuses an operand where the command has none. -/
theorem and_operandMask_eq_zero (x : Half) (b : Bool) :
    x &&& (if b then 0 else .allOnes 16) = 0 ↔ (x ≠ 0 → b = true) := by
  cases b with
  | false => rw [if_neg Bool.false_ne_true, BitVec.and_allOnes]; simp
  | true => simp

/-- A row accepts the well-formed words with its opcode. -/
theorem OpcodeRow.accepts_iff {op : BitVec 4} {r : OpcodeRow} (hr : opcodeTable[op.toNat]? = some r) (w : Word) :
    r.accepts w = true ↔ (splitWord w).op = op ∧ (splitWord w).wellFormed = true := by
  obtain ⟨hop, hmatch, hmask⟩ := opcodeTable_row op r hr
  rw [OpcodeRow.accepts, beq_iff_eq, ← splitWord_injective.eq_iff, splitWord_and, hmatch, hmask,
    Cmd.wellFormed_iff_fields, Cmd.mk.injEq, BitVec.and_allOnes, BitVec.and_allOnes,
    and_operandMask_eq_zero, Bool.and_eq_false_imp]
  constructor
  · rintro ⟨rfl, hflag, hrsv, hi⟩
    exact ⟨rfl, hop, hrsv, by simpa using hflag, hi⟩
  · rintro ⟨rfl, -, hrsv, hflag, hi⟩
    exact ⟨rfl, by simpa using hflag, hrsv, hi⟩

/-- The table and the checks on the fields agree (R83). -/
theorem wordLegal_iff (w : Word) : wordLegal w = true ↔ (splitWord w).wellFormed = true := by
  rw [wordLegal, List.any_eq_true]
  constructor
  · rintro ⟨r, hr, hw⟩
    obtain ⟨op, hop⟩ := mem_opcodeTable_iff.mp hr
    exact ((OpcodeRow.accepts_iff hop w).mp hw).2
  · intro h
    have hlt : (splitWord w).op.toNat < opcodeTable.length := ((Cmd.wellFormed_iff_fields _).mp h).1
    exact ⟨_, List.getElem_mem hlt, (OpcodeRow.accepts_iff (List.getElem?_eq_getElem hlt) w).mpr ⟨rfl, h⟩⟩

/-- A command's row stands at its opcode. -/
theorem opcodeTable_mnemonic (i : Instr) : opcodeTable[i.fields.op.toNat]?.map OpcodeRow.mnemonic = some i.mnemonic := by
  cases i <;> rfl

/-- Settles O4: a row accepts by its opcode, so no two rows accept one word, and the command's own row stands there. -/
theorem rowGivesCommand : Obligations.RowGivesCommand := by
  intro w r hr hw
  obtain ⟨op, hop⟩ := mem_opcodeTable_iff.mp hr
  obtain ⟨rfl, hlegal⟩ := (OpcodeRow.accepts_iff hop w).mp hw
  refine ⟨fun r' hr' hw' => ?_, ?_⟩
  · obtain ⟨op', hop'⟩ := mem_opcodeTable_iff.mp hr'
    obtain ⟨rfl, -⟩ := (OpcodeRow.accepts_iff hop' w).mp hw'
    exact Option.some.inj (hop'.symm.trans hop)
  · obtain ⟨i, hi⟩ := (decode_iff_wellFormed w).mpr hlegal
    have hf := fields_of_decode hi
    have hm := opcodeTable_mnemonic i
    rw [hf, hop] at hm
    exact ⟨i, hi, (Option.some.inj hm).symm, hf⟩

theorem wordLegal_eq_false_iff (w : Word) :
    wordLegal w = false ↔
      0xC ≤ (splitWord w).op.toNat ∨ (splitWord w).rsv ≠ 0 ∨ ((splitWord w).flag = true ∧ readsFlag (splitWord w).op = false) ∨
        ((splitWord w).imm ≠ 0 ∧ readsOperand (splitWord w).op = false) := by
  rw [← Bool.not_eq_true, wordLegal_iff, Cmd.wellFormed_iff_fields]
  simp only [not_and_or, not_lt, Classical.not_imp, Bool.not_eq_true, ne_eq]

end Sys2Proof

namespace Sys2Proof.Machine

/-! ### Illegal words (R83, R232) -/

theorem runWord_of_illegal {w : Word} {s : State} (h : wordLegal w = false) : runWord w s = .next (illegalWord w s) := by
  cases hd : decode w with
  | ok i =>
    have hlegal : wordLegal w = true := (wordLegal_iff w).mpr ((decode_iff_wellFormed w).mp ⟨i, hd⟩)
    exact absurd hlegal (Bool.eq_false_iff.mp h)
  | illegal why => rw [runWord, hd]

/-- Settles O3: R83's conditions on the fields, the table against the decoder, and R232's fault. -/
theorem illegalWordsFault : Obligations.IllegalWordsFault := by
  intro w
  refine ⟨?_, (decode_iff_wellFormed w).trans (wordLegal_iff w).symm, fun s hw hf => ?_⟩
  · rw [wordLegal_eq_false_iff]
    simp only [readsFlag, readsOperand, Bool.or_eq_false_iff, beq_eq_false_iff_ne, and_assoc, splitWord]
  · have hrun := runWord_of_illegal (s := s) hw
    rw [illegalWord_of_clear hf] at hrun
    refine ⟨hrun, ?_⟩
    rintro rfl rfl
    exact ⟨_, hrun, rfl, rfl⟩

end Sys2Proof.Machine

/-!
PROOFS. The statements of 40_fobit.md: the numeration pairs non-empty files and numbers one to one (R100, R101), the output
side writes the file paired with the stream put (R103, R104), the input side reads it back (R105), and ENC_END, which ends
the stream, completes (R154, R156).
-/

namespace Sys2Proof.Machine

/-! ### The numbers of streams and files (R101) -/

/-- `V(T)` in Mathlib's base-256 digits. -/
theorem streamNumber_eq_ofDigits (stream : List Byte) :
    streamNumber stream = Nat.ofDigits 256 (stream.map BitVec.toNat) := by
  induction stream with
  | nil => rfl
  | cons t rest ih => rw [streamNumber, ih, List.map_cons, Nat.ofDigits_cons]

theorem streamNumber_append (head tail : List Byte) :
    streamNumber (head ++ tail) = streamNumber head + 256 ^ head.length * streamNumber tail := by
  simp only [streamNumber_eq_ofDigits, List.map_append, Nat.ofDigits_append, List.length_map]

theorem streamNumber_concat (head : List Byte) (t : Byte) :
    streamNumber (head ++ [t]) = streamNumber head + 256 ^ head.length * t.toNat :=
  streamNumber_append head [t]

/-- Trailing zeros do not change a stream's number (R100). -/
theorem streamNumber_append_zeros (head : List Byte) (n : Nat) :
    streamNumber (head ++ List.replicate n 0) = streamNumber head := by
  rw [streamNumber_eq_ofDigits, streamNumber_eq_ofDigits, List.map_append, List.map_replicate]
  exact Nat.ofDigits_append_replicate_zero _

theorem mem_map_toNat_lt {stream : List Byte} {d : Nat} (h : d ∈ stream.map BitVec.toNat) : d < 256 := by
  obtain ⟨t, -, rfl⟩ := List.mem_map.mp h
  exact t.isLt

theorem streamNumber_lt (stream : List Byte) : streamNumber stream < 256 ^ stream.length := by
  rw [streamNumber_eq_ofDigits, ← List.length_map (f := BitVec.toNat)]
  exact Nat.ofDigits_lt_base_pow_length (by decide) fun _ => mem_map_toNat_lt

/-- A number has one digit sequence of each length. -/
theorem eq_of_streamNumber_eq {stream stream' : List Byte} (hl : stream.length = stream'.length)
    (h : streamNumber stream = streamNumber stream') : stream = stream' := by
  rw [streamNumber_eq_ofDigits, streamNumber_eq_ofDigits] at h
  exact List.map_injective_iff.mpr (fun _ _ => BitVec.eq_of_toNat_eq)
    (Nat.ofDigits_inj_of_len_eq (by decide) (by simpa using hl) (fun _ => mem_map_toNat_lt) (fun _ => mem_map_toNat_lt) h)

/-- The mask is its own inverse (R102). -/
theorem xor_foMask_xor_foMask (b : Byte) : b ^^^ Config.foMask ^^^ Config.foMask = b := by
  rw [BitVec.xor_assoc, BitVec.xor_self, BitVec.xor_zero]

/-- Every digit is the digit of a file byte. -/
theorem exists_xor_foMask_toNat {d : Nat} (h : d < 256) : ∃ f : Byte, (f ^^^ Config.foMask).toNat = d :=
  ⟨toByte d ^^^ Config.foMask, by rw [xor_foMask_xor_foMask, toByte, BitVec.toNat_ofNat, Nat.mod_eq_of_lt h]⟩

/-- Bijective base 256 writes every number: a number above 0 has a digit 1 to 256 in the last place. -/
theorem exists_fileTailNumber (m : Nat) : ∃ file, fileTailNumber file = m := by
  induction m using Nat.strong_induction_on with
  | h m ih =>
    rcases m with _ | k
    · exact ⟨[], rfl⟩
    · obtain ⟨rest, hrest⟩ := ih (k / 256) (by omega)
      obtain ⟨f, hf⟩ := exists_xor_foMask_toNat (Nat.mod_lt k (by decide : 0 < 256))
      exact ⟨f :: rest, by rw [fileTailNumber, hf, hrest]; omega⟩

/-- A file byte and the number of what follows it are the remainder and the quotient by 256. -/
theorem file_digits_inj {f f' : Byte} {m m' : Nat}
    (h : (f ^^^ Config.foMask).toNat + 256 * m = (f' ^^^ Config.foMask).toNat + 256 * m') : f = f' ∧ m = m' := by
  have hd := (f ^^^ Config.foMask).isLt
  have hd' := (f' ^^^ Config.foMask).isLt
  have hxor : f ^^^ Config.foMask = f' ^^^ Config.foMask := BitVec.eq_of_toNat_eq (by omega)
  refine ⟨?_, by omega⟩
  rw [← xor_foMask_xor_foMask f, hxor, xor_foMask_xor_foMask]

theorem fileTailNumber_injective : Function.Injective fileTailNumber := by
  intro file
  induction file with
  | nil =>
    rintro (_ | ⟨f', rest'⟩) h
    · rfl
    · simp only [fileTailNumber] at h; omega
  | cons f rest ih =>
    rintro (_ | ⟨f', rest'⟩) h
    · simp only [fileTailNumber] at h; omega
    · simp only [fileTailNumber, Nat.add_right_comm _ 1, Nat.add_right_cancel_iff] at h
      obtain ⟨rfl, hrest⟩ := file_digits_inj h
      rw [ih hrest]

/-- Settles O59: the first byte is the number's remainder by 256, the others write its quotient in bijective base 256. -/
theorem fileNumberIsBijective : Obligations.FileNumberIsBijective := by
  refine ⟨rfl, fun n => ?_, ?_⟩
  · obtain ⟨rest, hrest⟩ := exists_fileTailNumber (n / 256)
    obtain ⟨f, hf⟩ := exists_xor_foMask_toNat (Nat.mod_lt n (by decide : 0 < 256))
    exact ⟨f :: rest, by rw [fileNumber, hf, hrest, Nat.mod_add_div]⟩
  · rintro (_ | ⟨f, rest⟩) (_ | ⟨f', rest'⟩) hne h
    · rfl
    · exact absurd rfl hne
    · simp [fileNumber] at h
    · obtain ⟨rfl, hrest⟩ := file_digits_inj (Option.some.inj h)
      rw [fileTailNumber_injective hrest]

/-! ### The input side (R105) -/

/-- What the input side is about to give, by its registers and the items on IN: the number whose base-256 digits are the
stream bytes still to come (R101, R105). -/
inductive StillToCome : FiSide → List InItem → Nat → Prop where
  /-- Nothing of the file is taken. -/
  | fresh {file : List Byte} {rest : List InItem} {n : Nat} (h : fileNumber file = some n) :
    StillToCome FiSide.reset (fileItems file ++ rest) n
  /-- The file's first byte is taken, and `file` is what is left of it. -/
  | begun (carry : Bool) (file : List Byte) (rest : List InItem) :
    StillToCome { first := false, carry, eof := false } (fileItems file ++ rest)
      (fileTailNumber file + (bitByte carry).toNat)
  /-- The end mark is taken. -/
  | ended (carry : Bool) (inp : List InItem) : StillToCome { first := false, carry, eof := true } inp (bitByte carry).toNat

theorem fiTail_eq (f : FiSide) : fiTail f = ((bitByte f.carry, !f.carry), { f with carry := false }) := by
  obtain ⟨first, carry, eof⟩ := f
  cases carry <;> rfl

/-- FI_Next past the file returns the final carry and leaves nothing. -/
theorem stillToCome_fiTail (carry : Bool) (inp : List InItem) :
    (fiTail ⟨false, carry, true⟩).1.1.toNat = (bitByte carry).toNat % 256 ∧
    StillToCome (fiTail ⟨false, carry, true⟩).2 inp ((bitByte carry).toNat / 256) := by
  have hlt := (bitByte carry).isLt
  rw [fiTail_eq, Nat.mod_eq_of_lt hlt, Nat.div_eq_of_lt hlt]
  exact ⟨rfl, .ended false inp⟩

theorem bitByte_toNat (b : Bool) : (bitByte b).toNat = b.toNat := by cases b <;> rfl

/-- The carry out of a sum of a digit, 1 and a carry is its quotient by 256. -/
theorem bitByte_carry_toNat {n : Nat} (h : n < 512) : (bitByte (decide (256 ≤ n))).toNat = n / 256 := by
  by_cases hn : 256 ≤ n
  · rw [bitByte_toNat, decide_eq_true hn, Bool.toNat_true]; omega
  · rw [bitByte_toNat, decide_eq_false hn, Bool.toNat_false]; omega

/-- FI_Next on a file byte that is not the first returns the lowest digit of the sum of the digit, 1 and the carry, and
leaves the sum's own carry. -/
theorem stillToCome_fiByte (b : Byte) (carry : Bool) (file : List Byte) (rest : List InItem) :
    (fiByte b ⟨false, carry, false⟩).1.toNat = (fileTailNumber (b :: file) + (bitByte carry).toNat) % 256 ∧
    StillToCome (fiByte b ⟨false, carry, false⟩).2 (fileItems file ++ rest)
      ((fileTailNumber (b :: file) + (bitByte carry).toNat) / 256) := by
  obtain ⟨n, hn⟩ : ∃ n, n = (b ^^^ Config.foMask).toNat + 1 + (bitByte carry).toNat := ⟨_, rfl⟩
  have hbyte : fiByte b ⟨false, carry, false⟩ = (toByte n, ⟨false, decide (256 ≤ n), false⟩) := by rw [hn]; rfl
  have htotal : fileTailNumber (b :: file) + (bitByte carry).toNat = n + 256 * fileTailNumber file := by
    rw [fileTailNumber, hn]; omega
  have hlt : n < 512 := by
    have hd := (b ^^^ Config.foMask).isLt
    have hc := (bitByte carry).isLt
    omega
  rw [hbyte, htotal, Nat.add_mul_mod_self_left, Nat.add_mul_div_left _ _ (by decide), ← bitByte_carry_toNat hlt,
    Nat.add_comm]
  exact ⟨BitVec.toNat_ofNat n 8, .begun _ file rest⟩

/-- FI_Next returns the lowest digit of the number still to come and leaves the others. -/
theorem fiNext_stillToCome {s : State} {n : Nat} (h : StillToCome s.fi s.inp n) :
    ∃ t u, fiNext s = .ok t u ∧ t.1.toNat = n % 256 ∧ StillToCome u.fi u.inp (n / 256) := by
  generalize hfi : s.fi = fi, hin : s.inp = inp at h
  cases h with
  | @fresh file rest n hn =>
    cases file with
    | nil => cases hn
    | cons b file =>
      obtain rfl := Option.some.inj hn
      have hd := (b ^^^ Config.foMask).isLt
      refine ⟨_, _, fiNext_firstByte hfi hin, ?_, ?_⟩
      · rw [Nat.add_mul_mod_self_left, Nat.mod_eq_of_lt hd]
      · rw [Nat.add_mul_div_left _ _ (by decide), Nat.div_eq_of_lt hd, Nat.zero_add]
        exact .begun false file rest
  | begun carry file rest =>
    have heof : s.fi.eof = false := by rw [hfi]
    cases file with
    | nil =>
      have hend : fiNext s =
          .ok (fiTail ⟨false, carry, true⟩).1 { s with inp := rest, fi := (fiTail ⟨false, carry, true⟩).2 } := by
        rw [fiNext_item heof hin]
        simp [fiItem, hfi]
      refine ⟨_, _, hend, ?_⟩
      rw [show fileTailNumber [] = 0 from rfl, Nat.zero_add]
      exact stillToCome_fiTail carry rest
    | cons b file =>
      refine ⟨_, _, fiNext_item heof hin, ?_⟩
      dsimp only
      rw [hfi]
      exact stillToCome_fiByte b carry file rest
  | ended carry inp =>
    have hend : fiNext s = .ok (fiTail s.fi).1 { s with fi := (fiTail s.fi).2 } := by simp [fiNext, hfi]
    refine ⟨_, _, hend, ?_⟩
    rw [hfi, hin]
    exact stillToCome_fiTail carry inp

/-- Taking `k` stream bytes gives the lowest `k` digits of the number still to come. -/
theorem fiTake_stillToCome {s : State} {n : Nat} (k : Nat) (h : StillToCome s.fi s.inp n) :
    ∃ stream u, fiTake k s = .ok stream u ∧ stream.length = k ∧ streamNumber stream = n % 256 ^ k := by
  induction k generalizing s n with
  | zero => exact ⟨[], s, rfl, rfl, by rw [Nat.pow_zero, Nat.mod_one]; rfl⟩
  | succ k ih =>
    obtain ⟨t, u, hnext, ht, hleft⟩ := fiNext_stillToCome h
    obtain ⟨stream, v, htake, hlen, hnum⟩ := ih hleft
    refine ⟨t.1 :: stream, v, by simp [fiTake, hnext, htake], by rw [List.length_cons, hlen], ?_⟩
    rw [streamNumber, ht, hnum, Nat.pow_succ', Nat.mod_mul]

/-- FI_Next over a file with a number gives the number's digits. -/
theorem fiTake_of_fileNumber {file : List Byte} {rest : List InItem} {s : State} {n : Nat} (k : Nat)
    (hnum : fileNumber file = some n) (hfi : s.fi = FiSide.reset) (hin : s.inp = fileItems file ++ rest) :
    ∃ stream u, fiTake k s = .ok stream u ∧ stream.length = k ∧ streamNumber stream = n % 256 ^ k :=
  fiTake_stillToCome k (by rw [hfi, hin]; exact .fresh hnum)

/-- Settles O57, by induction on the number of bytes taken. -/
theorem fiNextReadsThePairedStream : Obligations.FiNextReadsThePairedStream := by
  intro file rest s n hne hfi hin
  obtain ⟨number, hnum⟩ : ∃ number, fileNumber file = some number := by
    cases file with
    | nil => exact absurd rfl hne
    | cons f file => exact ⟨_, rfl⟩
  obtain ⟨stream, u, htake, hlen, hval⟩ := fiTake_of_fileNumber n hnum hfi hin
  exact ⟨number, stream, u, hnum, htake, hlen, hval⟩

/-! ### The output side (R103, R104) -/

theorem fileTailNumber_append (file tail : List Byte) :
    fileTailNumber (file ++ tail) = fileTailNumber file + 256 ^ file.length * fileTailNumber tail := by
  induction file with
  | nil => simp [fileTailNumber]
  | cons f rest ih => rw [List.cons_append, fileTailNumber, fileTailNumber, ih, List.length_cons]; ring

theorem fileNumber_append {file : List Byte} {n : Nat} (h : fileNumber file = some n) (tail : List Byte) :
    fileNumber (file ++ tail) = some (n + 256 ^ file.length * fileTailNumber tail) := by
  cases file with
  | nil => cases h
  | cons f rest =>
    obtain rfl := Option.some.inj h
    rw [List.cons_append, fileNumber, fileTailNumber_append, List.length_cons]
    congr 1; ring

/-- A file byte carries the digit it was made of (R102). -/
theorem fileTailNumber_digit (d : Byte) (rest : List Byte) :
    fileTailNumber ((d ^^^ Config.foMask) :: rest) = d.toNat + 1 + 256 * fileTailNumber rest := by
  rw [fileTailNumber, xor_foMask_xor_foMask]

/-- A run of digits 254 falls short of a power of 256 by one, as a run of 9 does in base 10. -/
theorem fileTailNumber_heldZeros (n : Nat) :
    fileTailNumber (List.replicate n (0xFE ^^^ Config.foMask)) + 1 = 256 ^ n := by
  induction n with
  | zero => rfl
  | succ n ih =>
    rw [List.replicate_succ, fileTailNumber_digit, Nat.pow_succ', ← ih, show (0xFE : Byte).toNat = 254 from rfl]; ring

/-- What FO_Put's flush writes for a held byte and `n` zeros is one in the place behind them (R103). -/
theorem fileTailNumber_flush (n : Nat) :
    fileTailNumber ((0xFF ^^^ Config.foMask) :: List.replicate n (0xFE ^^^ Config.foMask)) = 256 ^ (n + 1) := by
  rw [fileTailNumber_digit, Nat.pow_succ', ← fileTailNumber_heldZeros n, show (0xFF : Byte).toNat = 255 from rfl]; ring

/-- The file's digits are those of the stream bytes `head`, one for one, with `borrow` still to be taken from the next
(R103). -/
structure DigitsOf (borrow : Bool) (file head : List Byte) : Prop where
  length : file.length = head.length
  number : fileNumber file = some (streamNumber head + 256 ^ head.length * (bitByte borrow).toNat)

/-- How the output side stands after the stream bytes of the last argument gave the file bytes `file` (R33, R103). -/
inductive HasPut : FoSide → List Byte → List Byte → Prop where
  /-- No stream byte was put. -/
  | fresh : HasPut FoSide.reset [] []
  /-- Every stream byte is in the file. -/
  | written {file head : List Byte} (h : DigitsOf false file head) :
    HasPut { first := false, borrow := false, hold := false, zrun := 0 } file head
  /-- A byte equal to the borrow and the zeros after it are held. -/
  | held {borrow : Bool} {zrun : Word} {file head : List Byte} (h : DigitsOf borrow file head) :
    HasPut { first := false, borrow, hold := true, zrun } file
      (head ++ bitByte borrow :: List.replicate zrun.toNat 0)

/-- The file bytes written since OUT was `before` are those of the stream bytes put. -/
def WritesImage (before stream : List Byte) (s : State) : Prop :=
  ∃ file, s.out = before ++ file ∧ HasPut s.fo file stream

theorem streamNumber_held (borrow : Bool) (head : List Byte) (n : Nat) :
    streamNumber (head ++ bitByte borrow :: List.replicate n 0) =
      streamNumber head + 256 ^ head.length * (bitByte borrow).toNat := by
  rw [List.append_cons, streamNumber_append_zeros, streamNumber_concat]

/-- FO_End leaves the file paired with the stream put: what it drops adds nothing to the number (R104). -/
theorem WritesImage.foEnd_paired {before stream : List Byte} {s : State} (h : WritesImage before stream s) :
    ∃ file, (foEnd s).out = before ++ file ∧ paired file stream := by
  obtain ⟨file, hout, hput⟩ := h
  generalize hfo : s.fo = fo at hput
  cases hput with
  | fresh => exact ⟨[0x00 ^^^ Config.foMask], by simp [foEnd, hfo, FoSide.reset, hout], by rw [paired]; rfl⟩
  | written hd => exact ⟨file, by simp [foEnd, hfo, hout], by simpa [paired, bitByte] using hd.number⟩
  | held hd => exact ⟨file, by simp [foEnd, hfo, hout], by rw [paired, streamNumber_held]; exact hd.number⟩

/-- One digit of the file, where the byte and the borrow do not borrow again (R103). -/
theorem DigitsOf.concat {borrow : Bool} {file head : List Byte} {t : Byte} (h : DigitsOf borrow file head)
    (hlt : (bitByte borrow).toNat < t.toNat) :
    DigitsOf false (file ++ [(t - bitByte borrow - 1) ^^^ Config.foMask]) (head ++ [t]) := by
  have hdigit : (t - bitByte borrow - 1).toNat + 1 + (bitByte borrow).toNat = t.toNat := by
    bv_omega
  refine ⟨by simp [h.length], ?_⟩
  rw [fileNumber_append h.number, fileTailNumber_digit, h.length, streamNumber_concat, ← hdigit]
  simp only [fileTailNumber, bitByte_toNat, Bool.toNat_false]
  congr 1; ring

/-- The flush of a held byte and its zeros leaves a borrow of one behind them (R103). -/
theorem DigitsOf.flush {borrow : Bool} {file head : List Byte} (h : DigitsOf borrow file head) (n : Nat) :
    DigitsOf true (file ++ (0xFF ^^^ Config.foMask) :: List.replicate n (0xFE ^^^ Config.foMask))
      (head ++ bitByte borrow :: List.replicate n 0) := by
  refine ⟨by simp [h.length], ?_⟩
  rw [fileNumber_append h.number, fileTailNumber_flush, h.length, streamNumber_held]
  simp [bitByte, Nat.pow_add]

/-- FO_Put's last part keeps the image, where no byte is held and 0 comes with no borrow. -/
theorem foDigit_writesImage {before file head : List Byte} {borrow : Bool} {t : Byte} {s : State}
    (hfo : s.fo = { first := false, borrow, hold := false, zrun := 0 }) (hout : s.out = before ++ file)
    (h : DigitsOf borrow file head) (ht : borrow = true → t ≠ 0) : WritesImage before (head ++ [t]) (foDigit t s) := by
  unfold foDigit
  rw [hfo]
  split
  · next heq => exact ⟨file, hout, heq ▸ HasPut.held h⟩
  · next hne =>
    have hlt : (bitByte borrow).toNat < t.toNat := by
      cases borrow with
      | false => simp only [bitByte_false] at hne ⊢; bv_omega
      | true => have := ht rfl; simp only [bitByte_true] at hne ⊢; bv_omega
    rw [decide_eq_false (Nat.not_le.mpr hlt)]
    exact ⟨_, by simp [hout], .written (h.concat hlt)⟩

/-- FO_Put keeps the file the image of the stream put. -/
theorem foPut_writesImage {before stream : List Byte} {t : Byte} {s u : State} (h : WritesImage before stream s)
    (hput : foPut t s = .ok () u) : WritesImage before (stream ++ [t]) u := by
  obtain ⟨file, hout, hhas⟩ := h
  generalize hfo : s.fo = fo at hhas
  cases hhas with
  | fresh =>
    simp only [foPut, hfo, FoSide.reset, if_true, Res.ok.injEq, true_and] at hput
    subst hput
    refine ⟨[t ^^^ Config.foMask], by simp [hout], .written ⟨rfl, ?_⟩⟩
    simp [fileNumber, fileTailNumber, streamNumber, bitByte]
  | written hd =>
    simp only [foPut, hfo, Bool.false_eq_true, if_false, Res.ok.injEq, true_and] at hput
    subst hput
    exact foDigit_writesImage hfo hout hd (by simp)
  | @held borrow zrun file head hd =>
    simp only [foPut, hfo, Bool.false_eq_true, if_false, if_true] at hput
    split at hput
    · next ht =>
      split at hput
      · cases hput
      · next hfull =>
        obtain ⟨-, rfl⟩ := Res.ok.inj hput
        have hz : (zrun + 1).toNat = zrun.toNat + 1 := by
          simp only [Config.counterMax] at hfull; bv_omega
        refine ⟨file, hout, ?_⟩
        rw [ht, List.append_assoc, List.cons_append, ← List.replicate_succ', ← hz]
        exact .held hd
    · next ht =>
      obtain ⟨-, rfl⟩ := Res.ok.inj hput
      refine foDigit_writesImage (by rw [foFlush_fo, hfo]) ?_ (hd.flush zrun.toNat) fun _ => ht
      simp [foFlush, hfo, hout]

theorem foPutAll_writesImage {before stream rest : List Byte} {s u : State} (h : WritesImage before stream s)
    (hput : foPutAll rest s = .ok () u) : WritesImage before (stream ++ rest) u := by
  induction rest generalizing stream s with
  | nil => obtain ⟨-, rfl⟩ := Res.ok.inj hput; rwa [List.append_nil]
  | cons t rest ih =>
    obtain ⟨_, v, hv, hrest⟩ := Res.andThen_eq_ok.mp hput
    rw [List.append_cons]
    exact ih (foPut_writesImage h hv) hrest

/-- The held zeros are stream bytes, so they are fewer than the bytes put. -/
theorem WritesImage.zrun_le {before stream : List Byte} {s : State} (h : WritesImage before stream s) :
    s.fo.zrun.toNat ≤ stream.length := by
  obtain ⟨file, -, hhas⟩ := h
  generalize s.fo = fo at hhas
  cases hhas with
  | fresh => exact Nat.le_refl 0
  | written => exact Nat.zero_le _
  | held => simp only [List.length_append, List.length_cons, List.length_replicate]; omega

/-- A stream of fewer than 2^32 bytes does not fill the zero run (R103, 60_exceptions.md R240). -/
theorem foPutAll_returns {before stream rest : List Byte} {s : State} (h : WritesImage before stream s)
    (hroom : stream.length + rest.length < 2 ^ 32) : ∃ u, foPutAll rest s = .ok () u := by
  induction rest generalizing stream s with
  | nil => exact ⟨s, rfl⟩
  | cons t rest ih =>
    have hzrun := h.zrun_le
    rw [List.length_cons] at hroom
    have hne : s.fo.zrun ≠ Config.counterMax := by
      simp only [Config.counterMax]; bv_omega
    obtain ⟨v, hv⟩ := foPut_returns (t := t) hne
    obtain ⟨u, hu⟩ := ih (foPut_writesImage h hv) (by rw [List.length_append, List.length_singleton]; omega)
    exact ⟨u, by rw [foPutAll, hv, Res.ok_andThen, hu]⟩

theorem writesImage_of_reset {s : State} (h : s.fo = FoSide.reset) : WritesImage s.out [] s :=
  ⟨[], by rw [List.append_nil], h ▸ .fresh⟩

/-- The file FO_Put and FO_End wrote is the one paired with the stream (R101). -/
theorem foPutAll_paired {stream : List Byte} {s u : State} (hfo : s.fo = FoSide.reset)
    (hput : foPutAll stream s = .ok () u) : ∃ file, (foEnd u).out = s.out ++ file ∧ paired file stream :=
  (foPutAll_writesImage (writesImage_of_reset hfo) hput).foEnd_paired

/-- Settles O56: each FO_Put keeps the file the image of the stream so far, and FO_End completes it. -/
theorem foPutWritesThePairedFile : Obligations.FoPutWritesThePairedFile := by
  intro stream s hfo hlen
  obtain ⟨u, hput⟩ := foPutAll_returns (writesImage_of_reset hfo) (by simpa using hlen)
  obtain ⟨file, hout, hpaired⟩ := foPutAll_paired hfo hput
  exact ⟨u, file, hput, hout, hpaired⟩

/-- Settles O58: the bytes read are the digits of the file's number, which is the stream's, and so are the stream's bytes
followed by zeros. -/
theorem fiNextInvertsFoPut : Obligations.FiNextInvertsFoPut := by
  intro stream file s u v rest n hfo hput hout hfi hin
  obtain ⟨file', hout', hpaired⟩ := foPutAll_paired hfo hput
  obtain rfl := List.append_cancel_left (hout.symm.trans hout')
  obtain ⟨bytes, w, htake, hlen, hnum⟩ := fiTake_of_fileNumber (stream.length + n) hpaired hfi hin
  have hbytes : bytes = stream ++ List.replicate n 0 := by
    refine eq_of_streamNumber_eq (by simp [hlen]) ?_
    rw [hnum, streamNumber_append_zeros, Nat.mod_eq_of_lt]
    exact (streamNumber_lt stream).trans_le (Nat.pow_le_pow_right (by decide) (Nat.le_add_right _ _))
  exact ⟨w, hbytes ▸ htake⟩

/-! ### ENC_END (R104, R154, R156) -/

/-- End's three bytes are the bytes of a 25-bit value (R154). -/
theorem EngineInv.shiftedFreeEnd_lt {e : Engine} (h : EngineInv e) : e.nfe.toNat * 2 ^ (24 - e.ibits.toNat) < 2 ^ 25 := by
  have hnfe : e.nfe.toNat < 2 ^ (e.ibits.toNat + 1) := h.freeEndBelow.trans_le h.topBound
  have hbits := h.ibitsMost
  calc e.nfe.toNat * 2 ^ (24 - e.ibits.toNat)
      < 2 ^ (e.ibits.toNat + 1) * 2 ^ (24 - e.ibits.toNat) := Nat.mul_lt_mul_of_pos_right hnfe (Nat.two_pow_pos _)
    _ = 2 ^ 25 := by rw [← Nat.pow_add]; congr 1; omega

/-- The four calls of ByteWithCarry of an End that returned, the last one the flush of the pending byte (R154). -/
theorem coderEnd_calls {s u : State} (h : coderEnd s = .ok () u) :
    let v := s.engine.nfe.toNat * 2 ^ (24 - s.engine.ibits.toNat)
    ∃ s1 s2 s3, byteWithCarry (v / 65536) s = .ok () s1 ∧ byteWithCarry (v / 256 % 256) s1 = .ok () s2 ∧
      byteWithCarry (v % 256) s2 = .ok () s3 ∧ s3.carry.buf ≠ 0 ∧ byteWithCarry 0 s3 = .ok () u := by
  intro v
  obtain ⟨_, s1, h1, h⟩ := Res.andThen_eq_ok.mp h
  obtain ⟨_, s2, h2, h⟩ := Res.andThen_eq_ok.mp h
  obtain ⟨_, s3, h3, h⟩ := Res.andThen_eq_ok.mp h
  have hpending := byteWithCarry_pending h3
  rw [if_pos hpending] at h
  have hff (n : Nat) : n &&& 0xFF = n % 256 := Nat.and_two_pow_sub_one_eq_mod n 8
  rw [Nat.shiftLeft_eq, Nat.shiftRight_eq_div_pow] at h1 h2
  rw [Nat.shiftLeft_eq] at h3
  rw [hff] at h2 h3
  exact ⟨s1, s2, s3, h1, h2, h3, hpending, h⟩

/-- Settles O48: with room in the run counters End returns, FO_End finds a stream byte accepted and drops what is held. -/
theorem encEndCompletes : Obligations.EncEndCompletes := by
  intro s hinv hf hm hroom
  have hlive := hinv.live hf
  have hcarry := hlive.carry hm
  have hfo : FoInv s.fo := hlive.fo (by rw [hm]; decide)
  have hpend := counterRoom_pending hroom
  obtain ⟨s4, hend, hfirst⟩ := coderEnd_returns hlive.engine hcarry hfo (by omega)
  obtain ⟨s1, s2, s3, h1, h2, h3, hpending, h4⟩ := coderEnd_calls hend
  have hframe : CarryFrame s s4 := (coderEnd_frame s).of_ok hend
  have hs4 : s4.carry = { byte := 0, buf := 1 } := by
    rw [(byteWithCarry_ok h4).1]
    simp [carryAfter, toByte]
  have hbody : bodyOf .encEnd s = .ok () { foEnd s4 with mode := .encDone } := encEnd_eq_ok.mpr ⟨hm, s4, hend, rfl⟩
  have hexec : exec .encEnd s = .next { foEnd s4 with mode := .encDone, pc := s.pc + 1 } := by
    have hpc : (foEnd s4).pc = s.pc := ((bodyOf_frame .encEnd s).of_ok hbody).pc
    rw [exec_eq_command rfl, command_of_clear hf, hbody, ← hpc]
    rfl
  refine ⟨s1, s2, s3, s4, hlive.engine.shiftedFreeEnd_lt, h1, h2, h3, hpending, h4, hexec, hs4, hfirst, ?_,
    hframe.appends, by rw [hframe.rest], by rw [hframe.rest]; exact hf⟩
  simp [foEnd, hfirst]

end Sys2Proof.Machine

/-!
PROOFS. The statements of 41_coder.md: the interval engine's steps (R141 to R148), the carry buffer (R151), the encoder
(R153 to R155), the decoder's look-ahead, its end test and its symbols (R159 to R166), that a decoder mirrors the encoder
(R158, R270), and which causes a command can raise (R230).
-/

namespace Sys2Proof.Machine

/-! ### Seat and Reserve (R141, R142, R145) -/

theorem reseat_of_below {e : Engine} (h : e.nfe.toNat < e.low.toNat) : e.reseat = { e with nfe := e.seat } := if_pos h

theorem reseat_of_above {e : Engine} (h : e.low.toNat ≤ e.nfe.toNat) : e.reseat = e := if_neg (Nat.not_lt.mpr h)

/-- FEVEN + 1 at level `L` (R141). -/
theorem mask_step {f : Word} {L : Nat} (h : f.toNat = 2 ^ L - 1) : f.toNat + 1 = 2 ^ L := by
  rw [h, Nat.sub_add_cancel Nat.one_le_two_pow]

/-- An odd multiple of `b` less than `2 * b` above `low` is the least at or above `low`. -/
theorem oddMultiple_least {b low j k : Nat} (hj : (2 * j + 1) * b < low + 2 * b) (hk : low ≤ (2 * k + 1) * b) :
    (2 * j + 1) * b ≤ (2 * k + 1) * b := by
  have hlt : (2 * j + 1) * b < (2 * k + 3) * b := by
    calc (2 * j + 1) * b < low + 2 * b := hj
      _ ≤ (2 * k + 1) * b + 2 * b := Nat.add_le_add_right hk _
      _ = (2 * k + 3) * b := by ring
  have := Nat.lt_of_mul_lt_mul_right hlt
  exact Nat.mul_le_mul_right b (by omega)

/-- Settles O40: Seat's bounds leave room for one odd multiple only. -/
theorem seatIsLeastCandidate : Obligations.SeatIsLeastCandidate := by
  refine ⟨fun e => ⟨reseat_of_below, reseat_of_above⟩, fun e L hmask hfit => ?_⟩
  obtain ⟨⟨j, hj⟩, hlow, hmost⟩ := seat_spec hmask hfit
  rw [mask_step hmask]
  refine ⟨⟨j, hj⟩, hlow, fun k hk => ?_, hmost, ?_, fun h1 h2 => ?_⟩
  · rw [hj] at hmost ⊢
    exact oddMultiple_least (by rw [Nat.pow_succ, Nat.mul_comm (2 ^ L)] at hmost; exact hmost) hk
  · by_cases hbelow : e.nfe.toNat < e.low.toNat
    · rw [reseat_of_below hbelow]
      exact hlow
    · rw [reseat_of_above (Nat.not_lt.mp hbelow)]
      exact Nat.not_lt.mp hbelow
  · rw [Engine.seat, h1, h2]
    decide

/-- Settles O41: R27 bounds NFE and the step, so the sum fits the register. -/
theorem reserveTakesNextCandidate : Obligations.ReserveTakesNextCandidate := by
  intro e he
  obtain ⟨hmid, -⟩ := engineInv_iff.mp he
  obtain ⟨-, hnfe, -, L, hL, -, hplaced⟩ := hmid.bounds
  have hfit : 2 ^ (L + 1) ≤ 2 ^ 24 := two_pow_le_of_level (by omega)
  obtain ⟨hgrid, hval⟩ := reserve_spec hplaced (by omega)
  rw [Nat.pow_succ, Nat.mul_comm (2 ^ L)] at hval
  rw [mask_step hplaced.mask]
  refine ⟨by simpa only [word_eq_zero_iff] using hval, reserve_low e, reserve_range e, reserve_feven e,
    reserve_ibits e, ?_⟩
  rcases hgrid.grid with hzero | hodd
  · have := Nat.two_pow_pos L
    rw [hval] at hzero
    split at hzero <;> omega
  · exact hodd

/-! ### Narrow (R143) -/

/-- Settles O42: the two floors of a valid range differ, because P is below RANGE. -/
theorem narrowScalesTheInterval : Obligations.NarrowScalesTheInterval := by
  refine ⟨fun s lo hi p he hlt hle hp => ?_, fun s lo hi p h => if_neg h⟩
  have hr := he.rangeAbove
  obtain ⟨hfloors, hmost⟩ := Engine.scale_bounds (e := s.engine) hlt hle (by omega)
  have htop := (engineInv_iff.mp he).1.bounds.1
  refine ⟨_, narrow_ok hr he.rangeMost hlt hle hp, narrowTo_range ?_, ?_, narrowTo_low ?_, rfl, rfl, rfl⟩
  · omega
  · rw [narrowTo_range (by omega)]
    omega
  · omega

/-! ### Cap (R144) -/

/-- 32 halvings use up a 32-bit mask. -/
theorem level_feven_end (e : Engine) : (e.level 32).feven = 0 := by
  rw [level_feven]
  exact BitVec.ushiftRight_eq_zero (Nat.le_refl 32)

/-- The free end of a level is inside exactly when Cap stops there. -/
theorem level_capped_iff (e : Engine) (j : Nat) :
    (e.level j).capped = true ↔ (e.level j).nfe.toNat < e.low.toNat + e.range.toNat := by
  rw [Engine.capped, decide_eq_true_iff, level_low, level_range]

/-- Settles O43: the level Cap's loop stops at. -/
theorem capEndsInsideOrEscapes : Obligations.CapEndsInsideOrEscapes := by
  intro s finer level inside
  have hinside (j : Nat) : inside j ↔ (s.engine.level j).capped = true := (level_capped_iff s.engine j).symm
  have hspent : (s.engine.level (0 + 32)).feven = 0 := level_feven_end s.engine
  obtain ⟨k, -, hbefore, hloop, hend⟩ := capLoop_levels 0 hspent
  have hcap : cap s = if (s.engine.level k).capped then .ok () { s with engine := s.engine.level k }
      else .raised .freeEndEscape { s with engine := s.engine.level k } := by
    unfold cap
    rw [show s.engine.capLoop 32 = _ from hloop]
  refine ⟨k, fun j hj => ?_, ?_⟩
  · obtain ⟨hout, hmask⟩ := hbefore j (Nat.zero_le j) hj
    exact ⟨by rw [hinside, hout]; decide, hmask⟩
  · rw [hinside]
    by_cases hin : (s.engine.level k).capped = true
    · exact .inl ⟨hin, by rw [hcap, if_pos hin]; rfl⟩
    · exact .inr ⟨hin, hend (by simpa using hin), by rw [hcap, if_neg hin]; rfl⟩

/-! ### Renorm (R146) -/

theorem renorm_of_above {dir : Dir} {s : State} (h : 0x8000 < s.engine.range.toNat) : renorm dir s = .ok () s :=
  if_neg (Nat.not_le.mpr h)

/-- Renorm's turns bring the width above 0x8000 and not above 0x10000. -/
theorem Engine.renormLoop_range {n : Nat} {e : Engine} (h : 0x8000 < 2 ^ n * e.range.toNat)
    (hr : e.range.toNat ≤ 0x10000) : 0x8000 < (e.renormLoop n).range.toNat ∧ (e.renormLoop n).range.toNat ≤ 0x10000 := by
  induction n generalizing e with
  | zero => exact ⟨by simpa [Engine.renormLoop] using h, hr⟩
  | succ n ih =>
    unfold Engine.renormLoop
    by_cases hle : e.range.toNat ≤ Config.maxP1
    · rw [if_pos hle]
      have hdouble := double_range_toNat hle
      have hturn : (if e.double.ibits.toNat = Config.ibTop then e.double.detach else e.double).range.toNat =
          2 * e.range.toNat := by
        split
        · rw [detach_range, hdouble]
        · exact hdouble
      refine ih ?_ ?_ <;> rw [hturn]
      · rw [← Nat.mul_assoc, ← Nat.pow_succ]
        exact h
      · exact Nat.mul_le_mul_left 2 hle
    · rw [if_neg hle]
      exact ⟨Nat.not_le.mp hle, hr⟩

/-- One turn of Renorm: after it 15 turns are as good as 16. -/
theorem renorm_turn {dir : Dir} {s : State} (hpos : 1 ≤ s.engine.range.toNat) (hr : s.engine.range.toNat ≤ 0x8000) :
    renorm dir s = (pullIf dir s).andThen fun _ u =>
      (detachIf dir { u with engine := u.engine.double }).andThen fun _ v => renorm dir v := by
  unfold renorm
  rw [renormLoop, if_pos (show _ ≤ Config.maxP1 from hr)]
  refine Res.andThen_congr fun _ u hu => Res.andThen_congr fun _ v hv => ?_
  have hrange : v.engine.range.toNat = 2 * s.engine.range.toNat := by
    rw [detachIf_range hv]
    show u.engine.double.range.toNat = _
    rw [pullIf_engine hu, double_range_toNat hr]
  exact (renormLoop_more (by omega) (by omega)).symm

theorem detachIf_eq (dir : Dir) (s : State) :
    detachIf dir s = if s.engine.ibits = 24 then detach dir s else .ok () s := by
  have h : s.engine.ibits.toNat = Config.ibTop ↔ s.engine.ibits = 24 := BitVec.toNat_inj (y := 24)
  simp only [detachIf, h]

/-- Settles O44: the turn of the loop, and its effect on RANGE. -/
theorem renormRestoresRange : Obligations.RenormRestoresRange := by
  refine ⟨fun dir s hpos hr => ?_, fun dir s => renorm_of_above, fun dir s u hpos hr h => ?_⟩
  · rw [renorm_turn hpos hr]
    simp only [detachIf_eq]
    cases dir <;> rfl
  · rw [renormLoop_engine h]
    exact Engine.renormLoop_range (by omega) hr

/-! ### Double and Detach (R147, R148) -/

theorem shiftLeft_one_toNat {w : Word} (h : w.toNat < 2 ^ 31) : (w <<< 1).toNat = 2 * w.toNat := by
  rw [BitVec.toNat_shiftLeft, Nat.shiftLeft_eq]
  omega

theorem shiftLeft_one_or_one_toNat {w : Word} (h : w.toNat < 2 ^ 31) : ((w <<< 1) ||| 1).toNat = 2 * w.toNat + 1 := by
  rw [BitVec.toNat_or, shiftLeft_one_toNat h]
  exact (Nat.two_pow_add_eq_or_of_lt (i := 1) (by decide) w.toNat).symm

/-- What the encoder's detach does after its byte has gone to ByteWithCarry. -/
theorem detach_enc_eq (s : State) : detach .enc s =
    (byteWithCarry (s.engine.low.toNat / 65536) s).andThen fun _ u => .ok () { u with engine := s.engine.detach } := by
  rw [detach, Nat.shiftRight_eq_div_pow]
  refine Res.andThen_congr fun _ u hu => ?_
  have hfr := (byteWithCarry_frame _ s).of_ok hu
  rw [show u.engine = s.engine by rw [hfr.rest]]

/-- Settles O45: the doubled values fit their registers, and ByteWithCarry leaves the engine to the detach. -/
theorem doubleAndDetachRegisters : Obligations.DoubleAndDetachRegisters := by
  refine ⟨fun e hlow hrange hnfe hfeven hibits => ?_, fun s _ => ?_⟩
  · refine ⟨shiftLeft_one_toNat hlow, shiftLeft_one_toNat hrange, shiftLeft_one_toNat hnfe,
      shiftLeft_one_or_one_toNat hfeven, ?_⟩
    show (e.ibits + 1).toNat = _
    rw [BitVec.toNat_add_of_lt (by simpa using Nat.add_lt_add_right hibits 1)]
    rfl
  · exact ⟨s.engine.detach, detach_low _, detach_range _, detach_nfe _, rfl, detach_ibits _, rfl,
      fun u hu => by rw [detach_enc_eq, hu, Res.ok_andThen], fun c u hu => by rw [detach_enc_eq, hu, Res.raised_andThen]⟩

/-! ### The carry buffer (R151) -/

theorem foPutRun_eq_foPutAll (n : Nat) (t : Byte) (s : State) : foPutRun n t s = foPutAll (List.replicate n t) s := by
  induction n generalizing s with
  | zero => rfl
  | succ n ih =>
    rw [List.replicate_succ, foPutRun, foPutAll]
    exact Res.andThen_congr fun _ u _ => ih u

/-- FO_Put does not write the carry buffer. -/
theorem foPut_carry {t : Byte} {s u : State} (h : foPut t s = .ok () u) : u.carry = s.carry := by
  rw [((foPut_frame t s).of_ok h).rest]

theorem Res.andThen_assoc {α β γ : Type} (r : Res α) (f : α → State → Res β) (g : β → State → Res γ) :
    (r.andThen f).andThen g = r.andThen fun a s => (f a s).andThen g := by
  cases r <;> rfl

/-- The resolved case hands FO_Put the pending byte and its run. -/
theorem resolveCarry_eq (t fill : Byte) (b : Nat) (s : State) :
    resolveCarry t fill b s = (foPutAll (t :: List.replicate (s.carry.buf.toNat - 1) fill) s).andThen fun _ u =>
      .ok () { u with carry := { byte := toByte b, buf := 1 } } := by
  rw [resolveCarry, foPutAll, Res.andThen_assoc]
  refine Res.andThen_congr fun _ u hu => ?_
  rw [foPut_carry hu, foPutRun_eq_foPutAll]

/-- Settles O46: the cases of ByteWithCarry, a carry's low byte being `b - 256`. -/
theorem byteWithCarryCases : Obligations.ByteWithCarryCases := by
  intro s b hb pending after
  have hlow : toByte (b &&& 0xFF) = toByte b := toByte_and_mask b
  have hcarry : 255 < b → toByte b = toByte (b - 256) := fun h => by
    apply BitVec.eq_of_toNat_eq
    simp only [toByte, BitVec.toNat_ofNat]
    omega
  unfold byteWithCarry
  split
  · rfl
  · split
    · next hgt =>
      rw [resolveCarry_eq, hlow, hcarry hgt]
    · rw [resolveCarry_eq]
      rfl

/-! ### The encoder (R153 to R155) -/

/-- What the encoder's symbol steps did when they returned (R145): Cap ended inside, and Renorm ran from there. -/
theorem symbolSteps_enc_ok {lo hi p : Nat} {c : Bool} {s u : State} (he : EngineInv s.engine) (hlt : lo < hi)
    (hle : hi ≤ p) (hp : p ≤ 0x8000) (h : symbolSteps lo hi p c .enc s = .ok () u) :
    ((narrowedEngine lo hi p c s.engine).capLoop 32).1 = true ∧
    renorm .enc { s with engine := ((narrowedEngine lo hi p c s.engine).capLoop 32).2 } = .ok () u := by
  rw [symbolSteps_eq he hlt hle hp] at h
  obtain ⟨_, v, hv, h⟩ := Res.andThen_eq_ok.mp h
  obtain ⟨-, rfl⟩ := Res.ok.inj hv
  obtain ⟨_, w, hw, h⟩ := Res.andThen_eq_ok.mp h
  unfold cap at hw
  dsimp only at hw
  split at hw
  · next hc =>
    obtain ⟨-, rfl⟩ := Res.ok.inj hw
    exact ⟨hc, h⟩
  · cases hw

/-- The range of a symbol of the model, by its leaves (R181). -/
theorem symbolRange {s : State} (h : Inv s) {sym : Nat} (hs : sym < s.params.nsym.toNat) :
    s.model.rangeOf s.params.depth sym =
      (leafSum s.model s.params.z sym, leafSum s.model s.params.z sym + s.model.count (s.params.z + sym)) :=
  rangeOf_leaves h.admitted h.model (hs.trans_le (nsym_le_z s.params))

/-- EncodeSymbol of a symbol of the model is SymbolSteps on the symbol's range. -/
theorem encodeSymbol_eq {s : State} {sym : Nat} {c : Bool} (h : Inv s) (hs : sym < s.params.nsym.toNat) :
    encodeSymbol sym c s = symbolSteps (leafSum s.model s.params.z sym)
      (leafSum s.model s.params.z sym + s.model.count (s.params.z + sym)) s.model.total c .enc s := by
  have hknown : symbolKnown s.params sym = true := decide_eq_true hs
  rw [encodeSymbol, symRange, if_pos hknown, Res.ok_andThen, symbolRange h hs]

/-- A symbol's range is not empty and lies within the total. -/
theorem symbolRange_valid {s : State} (h : Inv s) {sym : Nat} (hs : sym < s.params.nsym.toNat) :
    leafSum s.model s.params.z sym < leafSum s.model s.params.z sym + s.model.count (s.params.z + sym) ∧
    leafSum s.model s.params.z sym + s.model.count (s.params.z + sym) ≤ s.model.total ∧ s.model.total ≤ 0x8000 := by
  obtain ⟨hlt, hle, -⟩ := rangeOf_valid h.admitted h.model hs
  rw [symbolRange h hs] at hlt hle
  exact ⟨hlt, hle, h.model.total_most h.admitted⟩

/-- A gated command whose body returns answers that state with pc moved. -/
theorem exec_of_ok {i : Instr} {s u : State} (hf : s.fault = false) (hi : runsInFault i = false)
    (h : bodyOf i s = .ok () u) : exec i s = .next { u with pc := s.pc + 1 } := by
  rw [exec_eq_command hi, command_of_clear hf, h, ← ((bodyOf_frame i s).of_ok h).pc]
  rfl

/-- Settles O47: FEVEN and the total exclude FreeEndEscape, the room in the counters CounterOverflow. -/
theorem encSymCompletes : Obligations.EncSymCompletes := by
  intro c sym s hinv hf hm hs hroom hfeven htotal lo hi capped
  have hl := hinv.live hf
  obtain ⟨hlt, hle, hmost⟩ := symbolRange_valid hinv hs
  rcases encodeSymbol_spec (c := c) hinv hf hm hs with
    ⟨u, hu, he, -, -, hfr, hsym⟩ | ⟨_, -, -, hesc⟩ | ⟨_, -, -, hover⟩
  · obtain ⟨hcap, hrenorm⟩ := symbolSteps_enc_ok hl.engine hlt hle hmost (encodeSymbol_eq hinv hs ▸ hu)
    have hbody : bodyOf (.encSym c sym) s = .ok () u := inMode_eq_ok.mpr ⟨hm, hu⟩
    exact ⟨hcap, u, hrenorm, exec_of_ok hf rfl hbody, hsym, he, by rw [hfr.rest]; exact hf, by rw [hfr.rest]; exact hm⟩
  · exact absurd ⟨hfeven, htotal⟩ hesc
  · exact absurd (counterRoom_pending hroom) hover

/-- What a command's end writes, whichever it is: the fault registers and pc (R28, R231). -/
theorem exec_end {P : State → Prop} {i : Instr} {s t : State} (h : exec i s = .next t) (hs : P s)
    (hbody : (bodyOf i s).All P) : ∃ u fault cause faultCmd, P u ∧
      t = { u with fault := fault, cause := cause, faultCmd := faultCmd, pc := u.pc + 1 } := by
  rcases exec_eq_next h with ⟨-, rfl⟩ | ⟨u, hu, rfl⟩ | ⟨-, c, u, hu, rfl⟩
  · exact ⟨s, _, _, _, hs, rfl⟩
  · exact ⟨u, _, _, _, hbody.of_ok hu, rfl⟩
  · have hP := hbody.of_raised hu
    cases hf : u.fault
    · exact ⟨u, _, _, _, hP, State.faultEntry_of_clear hf c _⟩
    · exact ⟨u, _, _, _, hP, State.faultEntry_of_faulted hf c _⟩

/-- What ENC_END's body may write: the carry buffer, the output side, OUT and MODE (R156). -/
def EncEndFrame (s t : State) : Prop := t = { s with carry := t.carry, fo := t.fo, out := t.out, mode := t.mode }

theorem encEnd_writes (s : State) : (bodyOf .encEnd s).All (EncEndFrame s) := by
  unfold bodyOf
  refine inMode_all rfl ?_
  refine (coderEnd_frame s).andThen (fun u hu => ?_) fun _ u _ hu => ?_
  · rw [EncEndFrame, hu.rest]
  · have hfr := hu.trans (foEnd_frame u).toCarry
    show EncEndFrame s { foEnd u with mode := .encDone }
    rw [EncEndFrame, hfr.rest]

/-- Settles O49: the frames of the two bodies, with what a command's end writes. -/
theorem encoderCommandsFrame : Obligations.EncoderCommandsFrame := by
  refine ⟨fun c sym s t h => ?_, fun s t h => ?_⟩
  · have hbody : (bodyOf (.encSym c sym) s).All (EncFrame s) := inMode_all (EncFrame.refl s) (encodeSymbol_frame _ c s)
    obtain ⟨u, _, _, _, hu, rfl⟩ := exec_end h (EncFrame.refl s) hbody
    rw [hu.rest]
  · obtain ⟨u, _, _, _, hu, rfl⟩ := exec_end (P := EncEndFrame s) h rfl (encEnd_writes s)
    unfold EncEndFrame at hu
    rw [hu]

/-! ### The look-ahead's bytes and bits (R161, R164) -/

theorem nextByte_of_zeros {s : State} (h : s.look.followBuf ≠ 0) :
    nextByte s = .ok 0 { s with look := { s.look with followBuf := s.look.followBuf - 1 } } := if_pos h

theorem nextByte_of_held {s : State} (h0 : s.look.followBuf = 0) (h : s.look.fbValid = true) :
    nextByte s = .ok s.look.followByte { s with look := { s.look with fbValid := false, followByte := 0 } } := by
  rw [nextByte, if_neg (by simp [h0]), if_pos h]

theorem nextByte_of_file {s u : State} {t : Byte × Bool} (h0 : s.look.followBuf = 0) (hv : s.look.fbValid = false)
    (h : fiNext s = .ok t u) : nextByte s = .ok t.1 u := by
  rw [nextByte_fresh h0 hv, h, Res.ok_andThen]

/-- Settles O50: the branches of NextByte and Pull, the byte shifted in below VALUE. -/
theorem nextByteAndPull : Obligations.NextByteAndPull := by
  refine ⟨fun s => nextByte_of_zeros, fun s => nextByte_of_held, fun s h0 hv t z u => nextByte_of_file h0 hv,
    fun s h => if_neg h, fun s t u h hlt hnext => ?_⟩
  exact ⟨_, shiftIn_toNat hlt, by rw [pull, if_pos h, hnext, Res.ok_andThen]⟩

/-! ### The stream still to come, and Exhausted (R161, R165) -/

/-- What a step answered, without the state it left. -/
def Res.answer {α : Type} : Res α → Option α
  | .ok a _ => some a
  | .raised _ _ => none
  | .held => none

theorem Res.answer_eq_some {α : Type} {r : Res α} {a : α} : r.answer = some a ↔ ∃ u, r = .ok a u := by
  cases r <;> simp [Res.answer]

/-- The decoder takes the same bytes from both states, however many it takes (R161). -/
def SameStream (s t : State) : Prop := ∀ n, (streamTake n s).answer = (streamTake n t).answer

theorem SameStream.refl (s : State) : SameStream s s := fun _ => rfl

theorem SameStream.trans {s t u : State} (h1 : SameStream s t) (h2 : SameStream t u) : SameStream s u :=
  fun n => (h1 n).trans (h2 n)

theorem streamTake_succ {s u : State} {b : Byte} (n : Nat) (h : nextByte s = .ok b u) :
    (streamTake (n + 1) s).answer = (streamTake n u).answer.map (b :: ·) := by
  rw [streamTake, h, Res.ok_andThen]
  cases streamTake n u <;> rfl

/-- Equal streams behind the same byte. -/
theorem SameStream.cons {s s' u u' : State} {b : Byte} (hs : nextByte s = .ok b u) (hs' : nextByte s' = .ok b u')
    (h : SameStream u u') : SameStream s s' := by
  intro n
  cases n with
  | zero => rfl
  | succ n => rw [streamTake_succ n hs, streamTake_succ n hs', h n]

/-- FI_Next does not read the look-ahead (R105). -/
theorem fiNext_setLook (l : LookAhead) (s : State) :
    fiNext { s with look := l } = (fiNext s).mapState fun u => { u with look := l } := by
  have hitem (item : InItem) (v : State) : fiItem item { v with look := l } =
      (fiItem item v).mapState fun u => { u with look := l } := by
    cases item with
    | eof => exact Res.mapState_ite rfl rfl
    | byte b => rfl
  refine Res.mapState_ite rfl (Res.mapState_andThen ?_ hitem)
  unfold fileIn
  dsimp only
  split <;> rfl

/-- Past the file FI_Next reports the end where no final carry is left (R105). -/
theorem fiTail_last {f : FiSide} (h : (fiTail f).1.2 = true) : (fiTail f).1.1 = 0 ∧ (fiTail f).2.carry = false := by
  rw [fiTail_eq] at h ⊢
  have hcarry : f.carry = false := by simpa using h
  exact ⟨by rw [hcarry, bitByte_false], rfl⟩

/-- Where FI_Next reports the end, it returns 0, and only the endless zeros are left of the file (R105). -/
theorem fiNext_last {s u : State} {t : Byte × Bool} (h : fiNext s = .ok t u) (hlast : t.2 = true) :
    t.1 = 0 ∧ u.fi.eof = true ∧ u.fi.carry = false := by
  unfold fiNext at h
  split at h
  · next he =>
    obtain ⟨rfl, rfl⟩ := Res.ok.inj h
    obtain ⟨hzero, hcarry⟩ := fiTail_last hlast
    exact ⟨hzero, (fiTail_eof s.fi).trans he, hcarry⟩
  · obtain ⟨item, v, -, h⟩ := Res.andThen_eq_ok.mp h
    cases item with
    | eof =>
      simp only [fiItem] at h
      split at h
      · cases h
      · obtain ⟨rfl, rfl⟩ := Res.ok.inj h
        obtain ⟨hzero, hcarry⟩ := fiTail_last hlast
        exact ⟨hzero, fiTail_eof _, hcarry⟩
    | byte b =>
      obtain ⟨rfl, -⟩ := Res.ok.inj h
      cases hlast

/-- Past the file's end, with no final carry, FI_Next returns 0 for ever and changes nothing (R105). -/
theorem fiNext_drained {s : State} (he : s.fi.eof = true) (hc : s.fi.carry = false) : fiNext s = .ok (0, true) s := by
  simp [fiNext, fiTail, he, hc]

/-- The look-ahead with the byte `t` of FI_Next held in it, as a turn of Exhausted's loop holds it (R165): one more zero, or
the held byte; nothing where FI_Next reports the end. -/
def LookAhead.hold (t : Byte × Bool) (l : LookAhead) : LookAhead :=
  if t.2 then l
  else if t.1 = 0 then { l with followBuf := l.followBuf + 1 }
  else { l with followByte := t.1, fbValid := true }

/-- Nothing is held but zeros, and the file gives no more bytes. -/
structure Drained (s : State) : Prop where
  noByte : s.look.fbValid = false
  eof : s.fi.eof = true
  noCarry : s.fi.carry = false

theorem fiNext_look {s u : State} {t : Byte × Bool} (h : fiNext s = .ok t u) : u.look = s.look := by
  rw [((fiNext_frame s).of_ok h).rest]

theorem followInv_noByte {l : LookAhead} (h : FollowInv l) (hv : l.fbValid = false) : l.followByte = 0 := by
  by_contra hne
  rw [h.mpr hne] at hv
  cases hv

theorem LookAhead.hold_last (b : Byte) (l : LookAhead) : l.hold (b, true) = l := rfl

theorem LookAhead.hold_zero (l : LookAhead) : l.hold (0, false) = { l with followBuf := l.followBuf + 1 } := rfl

theorem LookAhead.hold_byte {b : Byte} (hb : b ≠ 0) (l : LookAhead) :
    l.hold (b, false) = { l with followByte := b, fbValid := true } := if_neg hb

theorem LookAhead.clear_noByte {l : LookAhead} (hv : l.fbValid = false) (hb : l.followByte = 0) :
    { l with fbValid := false, followByte := 0 } = l := by
  rw [← hv, ← hb]

/-- With no zeros held before it, the byte FI_Next gave comes back out of the look-ahead first (R161). -/
theorem nextByte_hold {s v : State} {t : Byte × Bool} (h0 : s.look.followBuf = 0) (hv : s.look.fbValid = false)
    (hf : FollowInv s.look) (h : fiNext s = .ok t v) :
    nextByte { v with look := v.look.hold t } = .ok t.1 v := by
  have hlook := fiNext_look h
  have hbyte := followInv_noByte hf hv
  rw [← hlook] at h0 hv hbyte
  obtain ⟨b, last⟩ := t
  cases last with
  | true =>
    obtain ⟨rfl, heof, hcarry⟩ := fiNext_last h rfl
    exact nextByte_of_file h0 hv (fiNext_drained heof hcarry)
  | false =>
    by_cases hb : b = 0
    · rw [hb, LookAhead.hold_zero, nextByte_of_zeros (by simp [h0])]
      simp
    · rw [LookAhead.hold_byte hb]
      refine (nextByte_of_held (s := { v with look := { v.look with followByte := b, fbValid := true } }) h0 rfl).trans ?_
      dsimp only
      rw [LookAhead.clear_noByte hv hbyte]

/-- Holding a byte does not depend on how many zeros are held before it. -/
theorem LookAhead.hold_sub_one (t : Byte × Bool) (l : LookAhead) :
    ({ l with followBuf := l.followBuf - 1 } : LookAhead).hold t =
      { l.hold t with followBuf := (l.hold t).followBuf - 1 } := by
  unfold LookAhead.hold
  split
  · rfl
  · split
    · simp
    · rfl

/-- Where the zero count does not wrap, held zeros stay held. -/
theorem LookAhead.hold_followBuf {t : Byte × Bool} {l : LookAhead} (h0 : l.followBuf ≠ 0)
    (hroom : t.2 = false → t.1 = 0 → l.followBuf ≠ Config.counterMax) : (l.hold t).followBuf ≠ 0 := by
  unfold LookAhead.hold
  split
  · exact h0
  · next hlast =>
    split
    · next hb =>
      have := hroom (by simpa using hlast) hb
      simp only [Config.counterMax] at this
      show l.followBuf + 1 ≠ 0
      bv_omega
    · exact h0

/-- Holding FI_Next's byte behind the held zeros leaves the stream still to come as it was (R165), by induction on the
zeros. -/
theorem sameStream_hold {s v : State} {t : Byte × Bool} (hv : s.look.fbValid = false) (hf : FollowInv s.look)
    (h : fiNext s = .ok t v) (hroom : t.2 = false → t.1 = 0 → s.look.followBuf ≠ Config.counterMax) :
    SameStream s { v with look := s.look.hold t } := by
  generalize hk : s.look.followBuf.toNat = k
  induction k generalizing s v with
  | zero =>
    have h0 : s.look.followBuf = 0 := (word_eq_zero_iff _).mpr hk
    exact .cons (nextByte_of_file h0 hv h) (fiNext_look h ▸ nextByte_hold h0 hv hf h) (.refl v)
  | succ k ih =>
    have hne : s.look.followBuf ≠ 0 := fun hc => by simp [hc] at hk
    refine .cons (nextByte_of_zeros hne) (nextByte_of_zeros (LookAhead.hold_followBuf hne hroom)) ?_
    dsimp only
    rw [← LookAhead.hold_sub_one]
    refine ih hv hf (v := { v with look := { s.look with followBuf := s.look.followBuf - 1 } }) ?_ (fun _ _ hmax => ?_) ?_
    · rw [fiNext_setLook, h]
      rfl
    · simp only [Config.counterMax] at hmax
      bv_omega
    · dsimp only
      bv_omega

/-- What Exhausted's loop did when it returned (R165): the stream still to come is the same, with nothing left but zeros
where it answers true, and a byte held where it answers false. -/
theorem exhaustedLoop_stream {n : Nat} {s u : State} {b : Bool} (h : exhaustedLoop n s = .ok b u) (hf : FollowInv s.look) :
    SameStream s u ∧ if b then Drained u else u.look.fbValid = true := by
  induction n generalizing s with
  | zero => cases h
  | succ n ih =>
    unfold exhaustedLoop at h
    split at h
    · next hv =>
      obtain ⟨rfl, rfl⟩ := Res.ok.inj h
      exact ⟨.refl s, hv⟩
    · next hv =>
      have hv : s.look.fbValid = false := by simpa using hv
      obtain ⟨⟨t, last⟩, v, hnext, h⟩ := Res.andThen_eq_ok.mp h
      have hlook := fiNext_look hnext
      have hsame := sameStream_hold hv hf hnext
      cases last with
      | true =>
        obtain ⟨rfl, rfl⟩ := Res.ok.inj h
        obtain ⟨-, heof, hcarry⟩ := fiNext_last hnext rfl
        rw [LookAhead.hold_last, ← hlook] at hsame
        exact ⟨hsame nofun, hlook ▸ hv, heof, hcarry⟩
      | false =>
        simp only [Bool.false_eq_true, if_false, hlook] at h
        split at h
        · next ht =>
          split at h
          · cases h
          · next hmax =>
            have ht : t = 0 := ht
            subst ht
            obtain ⟨hrest, hans⟩ := ih h hf
            exact ⟨(hsame fun _ _ => hmax).trans hrest, hans⟩
        · next ht =>
          obtain ⟨hrest, hans⟩ := ih h (iff_of_true rfl ht)
          rw [LookAhead.hold_byte ht] at hsame
          exact ⟨(hsame fun _ hc => absurd hc ht).trans hrest, hans⟩

/-- Where the file gives no more bytes and none is held, only zeros come. -/
theorem Drained.streamTake {s : State} (h : Drained s) (n : Nat) : (streamTake n s).answer = some (List.replicate n 0) := by
  induction n generalizing s with
  | zero => rfl
  | succ n ih =>
    by_cases h0 : s.look.followBuf = 0
    · rw [streamTake_succ n (nextByte_of_file h0 h.noByte (fiNext_drained h.eof h.noCarry)), ih h]
      rfl
    · have hrest := ih (s := { s with look := { s.look with followBuf := s.look.followBuf - 1 } })
        ⟨h.noByte, h.eof, h.noCarry⟩
      exact (streamTake_succ n (nextByte_of_zeros h0)).trans (congrArg _ hrest)

/-- A held byte comes, behind the held zeros. -/
theorem streamTake_held {s : State} (hv : s.look.fbValid = true) :
    ∃ n bytes, (streamTake n s).answer = some bytes ∧ s.look.followByte ∈ bytes := by
  generalize hk : s.look.followBuf.toNat = k
  induction k generalizing s with
  | zero =>
    have h0 : s.look.followBuf = 0 := (word_eq_zero_iff _).mpr hk
    exact ⟨1, _, streamTake_succ 0 (nextByte_of_held h0 hv), by simp⟩
  | succ k ih =>
    have hne : s.look.followBuf ≠ 0 := fun hc => by simp [hc] at hk
    have hless : (s.look.followBuf - 1).toNat = k := by bv_omega
    obtain ⟨n, bytes, htake, hmem⟩ :=
      ih (s := { s with look := { s.look with followBuf := s.look.followBuf - 1 } }) hv hless
    exact ⟨n + 1, _, by rw [streamTake_succ n (nextByte_of_zeros hne), htake]; rfl, List.mem_cons_of_mem _ hmem⟩

/-- Settles O51: Exhausted keeps the stream, and its answer is that of the state it leaves. -/
theorem exhaustedTellsIfOnlyZerosRemain : Obligations.ExhaustedTellsIfOnlyZerosRemain := by
  intro s u b hf h
  obtain ⟨hsame, hans⟩ := exhaustedLoop_stream h hf
  obtain ⟨-, hfollow, hvalue, hshift⟩ := exhaustedLoop_ok h hf
  refine ⟨?_, fun n bytes v hv => ?_, hvalue, hshift⟩
  · cases b with
    | true =>
      refine iff_of_true rfl fun n bytes v hv t ht => ?_
      have hbytes := hsame n
      rw [hv, Drained.streamTake hans] at hbytes
      obtain rfl := Option.some.inj hbytes
      exact List.eq_of_mem_replicate ht
    | false =>
      refine iff_of_false nofun fun hzero => ?_
      obtain ⟨n, bytes, htake, hmem⟩ := streamTake_held hans
      rw [← hsame n, Res.answer_eq_some] at htake
      obtain ⟨v, hv⟩ := htake
      exact hfollow.mp hans (hzero n bytes v hv _ hmem)
  · rw [← Res.answer_eq_some, ← hsame n, hv]
    rfl

/-! ### The end test (R160, R162) -/

/-- The comparison of the end test, where the free end is not below LOW (R27(b)). -/
theorem endValue_iff {s : State} (he : EngineInv s.engine) : endValue s = true ↔
    s.look.value.toNat = (s.engine.nfe.toNat - s.engine.low.toNat) * 2 ^ s.look.vshift.toNat := by
  rw [endValue, decide_eq_true_iff, Nat.shiftLeft_eq]
  exact and_iff_right he.freeEndAbove

/-- With the host's IN duty met and room for the zeros to come, the end test answers. -/
theorem endTest_returns {s : State} (c : Bool) (h : Inv s) (hf : s.fault = false) (hm : s.mode = .dec) (hd : inDuty s)
    (hroom : s.look.followBuf.toNat + s.inp.length < 2 ^ 32) : ∃ b u, endTest c s = .ok b u := by
  cases hend : endTest c s with
  | ok b u => exact ⟨b, u, rfl⟩
  | raised k u => exact absurd hroom (endTest_raised hend ((h.live hf).fileBegun (.inl hm))).2
  | held => exact absurd hend (endTest_not_held hd)

theorem endTest_eq_exhausted {c : Bool} {s : State} (hc : c = true) (h : endValue s = true) : endTest c s = exhausted s := by
  rw [endTest, hc, h]
  rfl

theorem endTest_eq_false {c : Bool} {s : State} (h : c = false ∨ ¬ endValue s = true) : endTest c s = .ok false s := by
  refine if_neg ?_
  rw [Bool.and_eq_true]
  rintro ⟨rfl, hv⟩
  exact h.elim nofun fun hn => hn hv

/-- Settles O52: the comparison makes the end test Exhausted's answer, which is true because only zeros are to come. -/
theorem decSymReturnsEnd : Obligations.DecSymReturnsEnd := by
  intro s hinv hf hm hd hroom hvalue hzero
  have hl := hinv.live hf
  obtain ⟨b, u, hend⟩ := endTest_returns true hinv hf hm hd hroom
  have hfr := (endTest_frame true s).of_ok hend
  have hexhausted := endTest_eq_exhausted rfl ((endValue_iff hl.engine).mpr hvalue) ▸ hend
  obtain rfl : b = true := (exhaustedTellsIfOnlyZerosRemain s u b hl.follow hexhausted).1.mpr hzero
  have hbody : bodyOf (.decSym true) s = .ok () (decodeEnd u) := decSym_eq_ok.mpr ⟨hm, .inl ⟨u, hend, rfl⟩⟩
  refine ⟨_, exec_of_ok hf rfl hbody, rfl, rfl, rfl, ?_, ?_⟩
  · show u.fault = false
    rw [hfr.rest]
    exact hf
  · rw [hfr.rest]
    rfl

/-! ### A decoded symbol (R162, R166) -/

/-- Two results of 16 bits in one word (20_memory.md R68). -/
theorem packRange_eq {hi lo : Nat} (h : lo < 65536) : packRange hi lo = toWord (hi * 65536 + lo) := by
  rw [packRange, ← Nat.shiftLeft_add_eq_or_of_lt (i := 16) h, Nat.shiftLeft_eq]

/-- Less than a register's value fits the register. -/
theorem toWord_sub_toNat (w : Word) (n : Nat) : (toWord (w.toNat - n)).toNat = w.toNat - n :=
  toWord_toNat ((Nat.sub_le _ _).trans_lt w.isLt)

theorem zext32_eq_setWidth (sym : Half) : zext32 sym.toNat = sym.setWidth 32 := by
  rw [zext32, toWord, BitVec.ofNat_toNat]

/-- A symbol of the model is a 16-bit value. -/
theorem exists_half {p : Params} {sym : Nat} (h : sym < p.nsym.toNat) : ∃ half : Half, half.toNat = sym :=
  ⟨BitVec.ofNat 16 sym, by rw [BitVec.toNat_ofNat, Nat.mod_eq_of_lt (h.trans p.nsym.isLt)]⟩

/-- Where the stream does not end here the end test answers false: it does not run, or Exhausted finds a byte. -/
theorem endTest_goesOn {c : Bool} {s : State} (h : Inv s) (hf : s.fault = false) (hm : s.mode = .dec) (hd : inDuty s)
    (hroom : s.look.followBuf.toNat + s.inp.length < 2 ^ 32)
    (hgoes : c = false ∨ ¬ endValue s = true ∨ ∃ n bytes v, streamTake n s = .ok bytes v ∧ ∃ t ∈ bytes, t ≠ 0) :
    ∃ u, endTest c s = .ok false u := by
  rw [← or_assoc] at hgoes
  rcases hgoes with hskip | ⟨n, bytes, v, htake, t, ht, hne⟩
  · exact ⟨s, endTest_eq_false hskip⟩
  · by_cases hrun : c = true ∧ endValue s = true
    · obtain ⟨b, u, hend⟩ := endTest_returns c h hf hm hd hroom
      have hexhausted := endTest_eq_exhausted hrun.1 hrun.2 ▸ hend
      obtain ⟨hans, -⟩ := exhaustedTellsIfOnlyZerosRemain s u b (h.live hf).follow hexhausted
      obtain rfl : b = false := Bool.eq_false_iff.mpr fun hb => hne (hans.mp hb n bytes v htake t ht)
      exact ⟨u, hend⟩
    · exact ⟨s, endTest_eq_false (by simpa [or_iff_not_imp_left] using hrun)⟩

/-- Settles O53: the end test answers false and moves bytes into the look-ahead only, so the symbol is decoded from the same
engine, model and VALUE. -/
theorem decSymReturnsSymbol : Obligations.DecSymReturnsSymbol := by
  intro c s hinv hf hm hd hroom hfeven htotal atEnd hgoes
  have hl := hinv.live hf
  have hatEnd : endValue s = true ↔ atEnd := endValue_iff hl.engine
  obtain ⟨s1, hend⟩ := endTest_goesOn hinv hf hm hd hroom (by rwa [hatEnd])
  have hexhausted : c = true ∧ atEnd → exhausted s = .ok false s1 := fun h => by
    rw [← hend, endTest_eq_exhausted h.1 (hatEnd.mpr h.2)]
  have hskipped : c = false ∨ ¬ atEnd → s1 = s := fun h => by
    rw [endTest_eq_false (by rwa [hatEnd])] at hend
    exact (Res.ok.inj hend).2.symm
  have hfr := (endTest_frame c s).of_ok hend
  obtain ⟨-, -, hvalue, hshift⟩ := endTest_ok hend hl.follow
  have hinv1 := endTest_inv hinv hf hm hend
  have hd1 := endTest_duty hend hd
  obtain ⟨l, fi, inp, rfl⟩ : ∃ l fi inp, s1 = { s with look := l, fi := fi, inp := inp } := ⟨_, _, _, hfr.rest⟩
  rcases decodeSymbol_spec (c := c) hinv1 hf hm with
    ⟨n, u, hsym, hlo, hhi, hdec, he, hv, -, hdfr, -, hsymbol, hsteps⟩ | ⟨_, -, -, hesc⟩ | ⟨-, hheld⟩
  · obtain ⟨sym, rfl⟩ := exists_half hsym
    obtain ⟨hlt, hle, hmost⟩ := symbolRange_valid hinv1 hsym
    rw [symbolRange hinv1 hsym] at hlo hhi hdec hsymbol hsteps
    obtain ⟨htake, hcap, hrenorm⟩ := symbolSteps_dec_ok (hinv1.live hf).engine hlt hle hmost hsteps
    rw [zext32_eq_setWidth, packRange_eq (by omega)] at hdec
    rw [symbolPoint, Nat.shiftRight_eq_div_pow, hvalue, hshift] at hlo hhi
    rw [Nat.shiftLeft_eq, hvalue, hshift] at htake
    have hbody := decSym_eq_ok.mpr ⟨hm, .inr ⟨_, hend, hdec⟩⟩
    refine ⟨sym, _, u, _, hsym, hexhausted, hskipped, rfl, hvalue, hshift,
      ⟨hlo, hhi, htake, ?_, hcap, hrenorm, exec_of_ok hf rfl hbody, hsymbol⟩, he, hv,
      by rw [hdfr.rest]; exact hf, by rw [hdfr.rest]; exact hm⟩
    rw [toWord_sub_toNat, Nat.shiftLeft_eq, hvalue, hshift]
    rfl
  · exact absurd ⟨hfeven, htotal⟩ hesc
  · exact absurd hd1 hheld

/-- What DEC_SYM's body may write (R162, R167), and the one way MODE changes. -/
structure DecSymFrame (s t : State) : Prop where
  rest : t = { s with
    engine := t.engine, look := t.look, fi := t.fi, inp := t.inp, mode := t.mode, res0 := t.res0, res1 := t.res1 }
  ends : t.mode ≠ s.mode → t.mode = .decDone ∧ t.res0 = 0xFFFFFFFF

theorem decSym_writes (c : Bool) (s : State) : (bodyOf (.decSym c) s).All (DecSymFrame s) := by
  unfold bodyOf
  refine inMode_all ⟨rfl, fun h => absurd rfl h⟩ ?_
  refine (endTest_frame c s).andThen (fun u hu => ?_) fun ended u _ hu => ?_
  · exact ⟨by rw [hu.rest], fun h => absurd (by rw [hu.rest]) h⟩
  · cases ended with
    | true => exact ⟨by rw [hu.rest]; rfl, fun _ => ⟨rfl, rfl⟩⟩
    | false =>
      refine (decodeSymbol_frame c u).mono fun t ht => ?_
      have hfr := (hu.toDec.trans ht).rest
      have hrest : t = { s with
          engine := t.engine, look := t.look, fi := t.fi, inp := t.inp, res0 := t.res0, res1 := t.res1 } :=
        congrArg (fun v : State => { v with res0 := t.res0, res1 := t.res1 }) hfr
      exact ⟨by rw [hrest], fun h => absurd (by rw [hrest]) h⟩

/-- Settles O54: the frame of the body, with what a command's end writes. -/
theorem decSymFrame : Obligations.DecSymFrame := by
  intro c s t h
  have hrefl : DecSymFrame s s := ⟨rfl, fun h => absurd rfl h⟩
  obtain ⟨u, _, _, _, hu, rfl⟩ := exec_end h hrefl (decSym_writes c s)
  exact ⟨by rw [hu.rest], hu.ends⟩

/-! ### The decoder mirrors the encoder (R158, R270) -/

/-- A command that leaves no fault has completed. -/
theorem exec_completed {i : Instr} {s t : State} (h : exec i s = .next t) (hs : s.fault = false) (ht : t.fault = false) :
    ∃ u, bodyOf i s = .ok () u ∧ t = u.advance := by
  rcases exec_eq_next h with ⟨hf, -⟩ | hok | ⟨-, c, u, -, rfl⟩
  · simp [hs] at hf
  · exact hok
  · simp at ht

/-- ENC_SYM completes only on a symbol of the model, and leaves the engine of R145. -/
theorem encSym_completed {c : Bool} {sym : Half} {s t : State} (hinv : Inv s) (hf : s.fault = false)
    (h : exec (.encSym c sym) s = .next t) (ht : t.fault = false) :
    t.engine = symbolEngine (s.model.rangeOf s.params.depth sym.toNat).1 (s.model.rangeOf s.params.depth sym.toNat).2
      s.model.total c s.engine ∧ t.model = s.model ∧ t.params = s.params := by
  obtain ⟨u, hu, rfl⟩ := exec_completed h hf ht
  obtain ⟨hm, hu⟩ := inMode_eq_ok.mp hu
  have hs : sym.toNat < s.params.nsym.toNat := by
    by_contra hs
    simp [encodeSymbol, symRange, symbolKnown, operand, hs] at hu
  have hfr := (encodeSymbol_frame _ c s).of_ok hu
  obtain ⟨hlt, hle, hmost⟩ := symbolRange_valid hinv hs
  rw [operand, encodeSymbol_eq hinv hs] at hu
  rw [symbolRange hinv hs]
  exact ⟨symbolSteps_engine (u := u) (hinv.live hf).engine hlt hle hmost hu, by rw [hfr.rest]; rfl, by rw [hfr.rest]; rfl⟩

/-- The sentinel is no symbol (R162). -/
theorem sentinel_ne_symbol (sym : Half) : (0xFFFFFFFF : Word) ≠ sym.setWidth 32 := by
  bv_omega

theorem symbol_word_injective {sym sym' : Half} (h : sym.setWidth 32 = sym'.setWidth 32) : sym = sym' := by
  bv_omega

/-- DEC_SYM that returns a symbol leaves the engine of R145 for it. -/
theorem decSym_completed {c : Bool} {sym : Half} {s t : State} (hinv : Inv s) (hf : s.fault = false)
    (h : exec (.decSym c) s = .next t) (ht : t.fault = false) (hres : t.res0 = sym.setWidth 32) :
    t.engine = symbolEngine (s.model.rangeOf s.params.depth sym.toNat).1 (s.model.rangeOf s.params.depth sym.toNat).2
      s.model.total c s.engine ∧ t.model = s.model ∧ t.params = s.params := by
  obtain ⟨u, hu, rfl⟩ := exec_completed h hf ht
  obtain ⟨hm, ⟨v, -, rfl⟩ | ⟨v, hend, hu⟩⟩ := decSym_eq_ok.mp hu
  · exact absurd hres (sentinel_ne_symbol sym)
  · have hfr := (endTest_frame c s).of_ok hend
    have hfv : v.fault = false := by rw [hfr.rest]; exact hf
    have hmv : v.mode = .dec := by rw [hfr.rest]; exact hm
    have hengine : v.engine = s.engine := by rw [hfr.rest]
    have hmodel : v.model = s.model := by rw [hfr.rest]
    have hparams : v.params = s.params := by rw [hfr.rest]
    rcases decodeSymbol_spec (c := c) (endTest_inv hinv hf hm hend) hfv hmv with
      ⟨n, w, hsym, -, -, hw, -, -, -, hdfr, -, hsymbol, -⟩ | ⟨_, hw, -⟩ | ⟨hw, -⟩
    · obtain ⟨sym', rfl⟩ := exists_half hsym
      obtain ⟨-, rfl⟩ := Res.ok.inj (hw.symm.trans hu)
      obtain rfl := symbol_word_injective ((zext32_eq_setWidth sym').symm.trans hres)
      rw [hengine, hmodel, hparams] at hsymbol
      exact ⟨hsymbol, by rw [hdfr.rest]; exact hmodel, by rw [hdfr.rest]; exact hparams⟩
    · simp [hw] at hu
    · simp [hw] at hu

/-- Settles O55: both commands leave the engine of R145 for the symbol's range, and neither writes the model. -/
theorem decoderMirrorsEncoder : Obligations.DecoderMirrorsEncoder := by
  intro e d e' d' c sym hie hid hfe hfd _ _ hengine hmodel hparams he hd hfe' hfd' hres
  obtain ⟨hee, hme, hpe⟩ := encSym_completed hie hfe he hfe'
  obtain ⟨hed, hmd, hpd⟩ := decSym_completed hid hfd hd hfd' hres
  rw [hee, hme, hpe, hed, hmd, hpd, hengine, hmodel, hparams]
  exact ⟨rfl, rfl, rfl⟩

/-! ### The causes of faults (R230) -/

/-- Which cause a command can raise from the state `s`: the "raised by" column of R230, with what the escape needs (R144). -/
inductive RaisedBy (s : State) : Instr → Cause → Prop where
  | modeError {i : Instr} (h : legalIn i s.mode = false) : RaisedBy s i .modeError
  | encSymUnknown (c : Bool) (sym : Half) : RaisedBy s (.encSym c sym) .badSymbol
  | updateUnknown (sym : Half) : RaisedBy s (.modelUpdate sym) .badSymbol
  | symrangeUnknown (sym : Half) : RaisedBy s (.modelSymrange sym) .badSymbol
  | pointOutside (p : Half) : RaisedBy s (.modelGetsym p) .modelRange
  | emptyFile : RaisedBy s .initDec .emptyStream
  | encSymEscape (c : Bool) (sym : Half) (h : s.engine.feven = 0 ∨ 0x4000 < s.model.total) :
    RaisedBy s (.encSym c sym) .freeEndEscape
  | decSymEscape (c : Bool) (h : s.engine.feven = 0 ∨ 0x4000 < s.model.total) : RaisedBy s (.decSym c) .freeEndEscape
  | encSymOverflow (c : Bool) (sym : Half) : RaisedBy s (.encSym c sym) .counterOverflow
  | encEndOverflow : RaisedBy s .encEnd .counterOverflow
  | decSymOverflow (c : Bool) : RaisedBy s (.decSym c) .counterOverflow

/-- A command with a MODE raises ModeError outside it and its body's causes inside (R234). -/
theorem RaisedBy.of_inMode {i : Instr} {m : Mode} {body : State → Res Unit} {s u : State} {k : Cause}
    (hlegal : legalIn i s.mode = (s.mode == m)) (hbody : s.mode = m → body s = .raised k u → RaisedBy s i k)
    (h : inMode m body s = .raised k u) : RaisedBy s i k := by
  by_cases hm : s.mode = m
  · rw [inMode_of_eq hm] at h
    exact hbody hm h
  · rw [inMode_of_ne hm] at h
    obtain ⟨rfl, -⟩ := Res.raised.inj h
    exact .modeError (hlegal.trans (beq_eq_false_iff_ne.mpr hm))

/-- What FreeEndEscape needs, from what excludes it (R144). -/
theorem escape_premise {e : Engine} {m : Model} (h : ¬ (e.feven ≠ 0 ∧ m.total ≤ 0x4000)) :
    e.feven = 0 ∨ 0x4000 < m.total := by
  rwa [not_and_or, not_not, Nat.not_le] at h

theorem encSym_raised {c : Bool} {sym : Half} {s u : State} {k : Cause} (hinv : Inv s) (hf : s.fault = false)
    (h : bodyOf (.encSym c sym) s = .raised k u) : RaisedBy s (.encSym c sym) k := by
  refine .of_inMode rfl (fun hm h => ?_) h
  rw [operand] at h
  by_cases hs : sym.toNat < s.params.nsym.toNat
  · rcases encodeSymbol_spec (c := c) hinv hf hm hs with ⟨v, hv, -⟩ | ⟨v, hv, -, hesc⟩ | ⟨v, hv, -⟩
    · rw [hv] at h
      cases h
    · obtain ⟨rfl, -⟩ := Res.raised.inj (hv.symm.trans h)
      exact .encSymEscape c sym (escape_premise hesc)
    · obtain ⟨rfl, -⟩ := Res.raised.inj (hv.symm.trans h)
      exact .encSymOverflow c sym
  · have hunknown : ¬ symbolKnown s.params sym.toNat = true := by simpa [symbolKnown] using hs
    rw [encodeSymbol, symRange, if_neg hunknown] at h
    obtain ⟨rfl, -⟩ := Res.raised.inj h
    exact .encSymUnknown c sym

theorem decSym_raised {c : Bool} {s u : State} {k : Cause} (hinv : Inv s) (hf : s.fault = false)
    (h : bodyOf (.decSym c) s = .raised k u) : RaisedBy s (.decSym c) k := by
  unfold bodyOf at h
  refine .of_inMode rfl (fun hm h => ?_) h
  rcases Res.andThen_eq_raised.mp h with h | ⟨ended, v, hend, h⟩
  · obtain ⟨rfl, -⟩ := endTest_raised h ((hinv.live hf).fileBegun (.inl hm))
    exact .decSymOverflow c
  · cases ended with
    | true => cases h
    | false =>
      have hfr := (endTest_frame c s).of_ok hend
      have hinv1 := endTest_inv hinv hf hm hend
      obtain ⟨l, fi, inp, rfl⟩ : ∃ l fi inp, v = { s with look := l, fi := fi, inp := inp } := ⟨_, _, _, hfr.rest⟩
      rcases decodeSymbol_spec (c := c) hinv1 hf hm with ⟨n, w, -, -, -, hw, -⟩ | ⟨w, hw, -, hesc⟩ | ⟨hw, -⟩
      · cases hw.symm.trans h
      · obtain ⟨rfl, -⟩ := Res.raised.inj (hw.symm.trans h)
        exact .decSymEscape c (escape_premise hesc)
      · cases hw.symm.trans h

theorem encEnd_raised {s u : State} {k : Cause} (hinv : Inv s) (hf : s.fault = false)
    (h : bodyOf .encEnd s = .raised k u) : RaisedBy s .encEnd k := by
  have hl := hinv.live hf
  unfold bodyOf at h
  refine .of_inMode rfl (fun hm h => ?_) h
  rcases coderEnd_spec hl.engine (hl.carry hm) (hl.fo (by rw [hm]; decide)) with ⟨v, hv, -⟩ | ⟨v, hv, -⟩
  · rw [hv] at h
    cases h
  · rw [hv] at h
    obtain ⟨rfl, -⟩ := Res.raised.inj h
    exact .encEndOverflow

/-- Update of a symbol of the model keeps the total in its bounds, so it raises BadSymbol only (R180, R183). -/
theorem update_raised {sym : Half} {s u : State} {k : Cause} (hinv : Inv s) (h : update sym s = .raised k u) :
    k = .badSymbol := by
  unfold update at h
  split at h
  · next hs =>
    have hcells := Model.record_cells hinv.admitted ((modelInv_iff hinv.admitted).mp hinv.model) (of_decide_eq_true hs)
    have hrec : ModelInv s.params (s.model.record s.params.z sym) := (modelInv_iff hinv.admitted).mpr hcells
    dsimp only at h
    rw [if_pos ⟨hrec.total_pos hinv.admitted, hrec.total_most hinv.admitted⟩] at h
    cases h
  · exact (Res.raised.inj h).1.symm

/-- The cause a command's body raises, command by command. -/
theorem bodyOf_raised {i : Instr} {s u : State} {k : Cause} (hinv : Inv s) (hf : s.fault = false)
    (h : bodyOf i s = .raised k u) : RaisedBy s i k := by
  cases i with
  | encSym c sym => exact encSym_raised hinv hf h
  | encEnd => exact encEnd_raised hinv hf h
  | decSym c => exact decSym_raised hinv hf h
  | initDec => exact decStart_raised h ▸ .emptyFile
  | modelUpdate sym => exact update_raised hinv h ▸ .updateUnknown sym
  | modelSymrange sym =>
    rcases Res.andThen_eq_raised.mp h with h | ⟨_, _, -, h⟩
    · unfold symRange at h
      split at h
      · cases h
      · exact (Res.raised.inj h).1 ▸ .symrangeUnknown sym
    · cases h
  | modelGetsym p =>
    rcases Res.andThen_eq_raised.mp h with h | ⟨_, _, -, h⟩
    · unfold getSymbol at h
      split at h
      · cases h
      · exact (Res.raised.inj h).1 ▸ .pointOutside p
    · cases h
  | nop => cases h
  | initEnc => cases h
  | modelReset => cases h
  | modelProbone => cases h
  | rdreg addr => cases h

/-- A fault recorded by a command is one its body raised. -/
theorem exec_raised {i : Instr} {s t : State} (hinv : Inv s) (hf : s.fault = false) (h : exec i s = .next t)
    (ht : t.fault = true) : RaisedBy s i t.cause := by
  rcases exec_eq_next h with ⟨hs, -⟩ | ⟨u, hu, rfl⟩ | ⟨-, c, u, hu, rfl⟩
  · simp [hf] at hs
  · have hfr := (bodyOf_frame i s).of_ok hu
    simp [hfr.fault, hf] at ht
  · have hfu : u.fault = false := ((bodyOf_frame i s).of_raised hu).fault.trans hf
    rw [State.faultEntry_of_clear hfu]
    exact bodyOf_raised hinv hf hu

/-- Settles O14: the rows of R230, each read for its own cause. -/
theorem causesComeFromTheirCommands : Obligations.CausesComeFromTheirCommands := by
  intro i s t hinv hf h ht
  have hraised := exec_raised hinv hf h ht
  generalize t.cause = k at hraised
  cases hraised with
  | modeError hm => simp [hm]
  | encSymEscape c sym hesc => simpa using hesc
  | decSymEscape c hesc => simpa using hesc
  | _ => simp

end Sys2Proof.Machine

/-!
PROOFS. The statements of 42_model.md: what MODEL_UPDATE moves in the window and the tree (R183, R184, R189), what the other
four model commands answer (R181, R182, R185 to R188), the point MODEL_GETSYM refuses (R235), and what all five leave alone.
-/

namespace Sys2Proof.Machine

/-- A gated command whose body raises records the cause and its own word, and moves pc (R231). -/
theorem exec_of_raised {i : Instr} {s u : State} {c : Cause} (hf : s.fault = false) (hi : runsInFault i = false)
    (h : bodyOf i s = .raised c u) :
    exec i s = .next { u with fault := true, cause := c, faultCmd := encode i, pc := s.pc + 1 } := by
  have hfr := (bodyOf_frame i s).of_raised h
  rw [exec_eq_command hi, command_of_clear hf, h, finish, State.faultEntry_of_clear (hfr.fault.trans hf), hfr.pc]

/-! ### MODEL_UPDATE (R183, R184) -/

/-- Update writes the slot after MHEAD and no other (R183). -/
theorem Model.record_slot {m : Model} (hl : m.win.length = Config.winSize) (z : Nat) (sym : Half) (k : BitVec 12) :
    (m.record z sym).slot k = if k = m.mhead + 1 then sym else m.slot k := by
  rw [← slot_set m _ k sym hl, Model.slot, (Model.record_win z sym m).1]
  rfl

/-- Update of a symbol of the model keeps the model invariant (R189). -/
theorem Model.record_inv {p : Params} {m : Model} {sym : Half} (hp : p.admitted = true) (h : ModelInv p m)
    (hs : sym.toNat < p.nsym.toNat) : ModelInv p (m.record p.z sym) :=
  ModelChange.keeps_modelInv hp h (.inr (.inr ⟨sym, hs, rfl⟩))

/-- What Update does to a symbol's count is what it does to the symbol's weight in the window (R183, R189). -/
theorem Model.record_count {p : Params} {m : Model} {sym : Half} (hp : p.admitted = true) (h : ModelInv p m)
    (hs : sym.toNat < p.nsym.toNat) {x : Nat} (hx : x < p.nsym.toNat) :
    (m.record p.z sym).count (p.z + x) +
        (2 * slotIs m (m.mhead + 1) x + 2 * slotIs m (m.mhead + 1 - 1024) x + slotIs m (m.mhead + 1 - 2048) x +
          slotIs m (m.mhead + 1 - 3072) x) =
      m.count (p.z + x) + 6 * (if sym.toNat = x then 1 else 0) := by
  obtain ⟨hwin, hhead⟩ := Model.record_win p.z sym m
  have hweight := recentWeight_update h.winLength x hwin hhead
  rw [(Model.record_inv hp h hs).leafCount x hx, h.leafCount x hx, Nat.add_assoc, Nat.add_assoc p.leafBase.toNat]
  exact congrArg (p.leafBase.toNat + ·) hweight

/-- Update of a symbol of the model returns: the new total keeps the bounds it checks (R180, R183). -/
theorem update_of_known {s : State} {sym : Half} (hinv : Inv s) (hs : sym.toNat < s.params.nsym.toNat) :
    update sym s = .ok () { s with model := s.model.record s.params.z sym } := by
  have hknown : symbolKnown s.params (operand sym) = true := decide_eq_true hs
  have hrec := Model.record_inv hinv.admitted hinv.model hs
  rw [update, if_pos hknown]
  exact if_pos ⟨hrec.total_pos hinv.admitted, hrec.total_most hinv.admitted⟩

/-- Settles O34: Update's window and counts, and the invariant it keeps. -/
theorem modelUpdateMovesWeights : Obligations.ModelUpdateMovesWeights := by
  intro s sym hinv hf hs h stored
  refine ⟨s.model.record s.params.z sym, exec_of_ok (i := .modelUpdate sym) hf rfl (update_of_known hinv hs),
    (Model.record_win _ _ _).2, Model.record_slot hinv.model.winLength _ _, fun x hx => ?_,
    Model.record_inv hinv.admitted hinv.model hs⟩
  rw [Nat.one_mul, Nat.one_mul]
  exact Model.record_count hinv.admitted hinv.model hs hx

/-! ### MODEL_RESET and MODEL_PROBONE (R185, R186) -/

/-- With an empty window the total is the symbols' initial counts (R180, R185). -/
theorem Model.reset_total {p : Params} (hp : p.admitted = true) :
    (Model.reset p).total = p.nsym.toNat * p.leafBase.toNat := by
  have hempty : ∀ x ∈ Finset.range p.nsym.toNat, recentWeight (Model.reset p) x Config.winSize = 0 := fun x hx =>
    Model.reset_weight (by have := Finset.mem_range.mp hx; have := p.nsym.isLt; omega) _
  rw [((modelInv_iff hp).mpr (Model.reset_cells p hp)).total_sum hp, Finset.sum_eq_zero hempty, Nat.add_zero]

/-- Settles O35: the window of empty slots and the tree of sums ModelReset builds, whatever the parameters. -/
theorem modelResetContents : Obligations.ModelResetContents := by
  intro s hf
  obtain ⟨htree, hwin⟩ := Model.reset_shape s.params
  exact ⟨Model.reset s.params, exec_of_ok (i := .modelReset) (u := modelReset s) hf rfl rfl,
    Model.reset_slot s.params, resetTree_leaf s.params, resetTree_heap s.params, rfl, rfl, htree, hwin, Model.reset_total, by decide⟩

/-- Settles O36: the total is TREE[1], which the invariant bounds and ModelReset's counts give at first. -/
theorem modelProboneReturnsTotal : Obligations.ModelProboneReturnsTotal := by
  intro s hf
  have hbody : bodyOf .modelProbone s = .ok () (s.writeResults ((s.model.tree.getD 1 0).setWidth 32) 0) := by
    rw [← zext32_eq_setWidth]
    rfl
  refine ⟨exec_of_ok hf rfl hbody, fun hinv => ?_, by decide, ?_⟩
  · exact ⟨hinv.model.total_pos hinv.admitted, hinv.model.total_most hinv.admitted⟩
  · rintro rfl
    exact BitVec.eq_of_toNat_eq (Model.reset_total (p := Params.byteCodec) (by decide))

/-! ### MODEL_SYMRANGE and MODEL_GETSYM (R181, R182, R187, R188) -/

/-- The padding adds nothing, so the symbols' counts alone sum to the total (R35, R180). -/
theorem ModelInv.leafSum_symbols {p : Params} {m : Model} (hp : p.admitted = true) (h : ModelInv p m) :
    leafSum m p.z p.nsym.toNat = m.total := by
  rw [h.total_sum hp, leafSum_sum, Finset.sum_congr rfl fun x hx => h.leafCount x (Finset.mem_range.mp hx),
    Finset.sum_add_distrib, Finset.sum_const, Finset.card_range, smul_eq_mul]

/-- A query that answers a symbol and its range packs the range into RES1 (20_memory.md R68). -/
theorem exec_of_range {i : Instr} {s : State} {sym : Half} {lo hi : Nat} (hf : s.fault = false)
    (hrun : runsInFault i = false) (hlo : lo < 65536)
    (h : bodyOf i s = .ok () (s.writeResults (zext32 sym.toNat) (packRange hi lo))) :
    exec i s = .next { s with res0 := sym.setWidth 32, res1 := toWord (hi * 65536 + lo), pc := s.pc + 1 } := by
  rw [exec_of_ok hf hrun h, zext32_eq_setWidth, packRange_eq hlo]
  rfl

/-- SymRange of a symbol of the model answers its range by the leaves (R181). -/
theorem symRange_of_known {s : State} {sym : Nat} (hinv : Inv s) (hs : sym < s.params.nsym.toNat) :
    symRange sym s = .ok (leafSum s.model s.params.z sym,
      leafSum s.model s.params.z sym + s.model.count (s.params.z + sym)) s := by
  have hknown : symbolKnown s.params sym = true := decide_eq_true hs
  rw [symRange, if_pos hknown, symbolRange hinv hs]

/-- Settles O37: SymRange by the leaves, and the sum of all the symbols' leaves. -/
theorem modelSymrangeReturnsRange : Obligations.ModelSymrangeReturnsRange := by
  intro s sym hinv hf hs lo hi
  obtain ⟨hlt, hle, hmost⟩ := symbolRange_valid hinv hs
  have hbody : bodyOf (.modelSymrange sym) s = .ok () (s.writeResults (zext32 sym.toNat) (packRange hi lo)) := by
    show (symRange sym.toNat s).andThen _ = _
    rw [symRange_of_known hinv hs]
    rfl
  refine ⟨exec_of_range hf rfl (by omega) hbody, hlt, hle.trans hmost, ?_, fun hlast => ?_⟩
  · rintro rfl
    rfl
  · rw [← hinv.model.leafSum_symbols hinv.admitted, ← hlast]
    rfl

/-- The ranges of two symbols do not overlap: one point lies in one range only (R181). -/
theorem leafSum_range_unique {m : Model} {z p x y : Nat} (hx : leafSum m z x ≤ p) (hx' : p < leafSum m z x + m.count (z + x))
    (hy : leafSum m z y ≤ p) (hy' : p < leafSum m z y + m.count (z + y)) : x = y := by
  have separate : ∀ {a b : Nat}, p < leafSum m z (a + 1) → leafSum m z b ≤ p → b ≤ a := fun ha hb =>
    Nat.le_of_not_lt fun hab => Nat.not_lt.mpr ((leafSum_mono m z hab).trans hb) ha
  exact Nat.le_antisymm (separate hy' hx) (separate hx' hy)

/-- GetSymbol of a point below the total finds the symbol whose range by the leaves holds it (R182). -/
theorem getSymbol_of_inside {s : State} {p : Nat} (hinv : Inv s) (hp : p < s.model.total) :
    ∃ sym : Half, sym.toNat < s.params.nsym.toNat ∧ leafSum s.model s.params.z sym.toNat ≤ p ∧
      p < leafSum s.model s.params.z sym.toNat + s.model.count (s.params.z + sym.toNat) ∧
      getSymbol p s = .ok (sym.toNat, leafSum s.model s.params.z sym.toNat,
        leafSum s.model s.params.z sym.toNat + s.model.count (s.params.z + sym.toNat)) s := by
  obtain ⟨n, hn, hat, hlo, hhi⟩ := symbolAt_spec hinv.admitted hinv.model hp
  obtain ⟨sym, rfl⟩ := exists_half hn
  rw [symbolRange hinv hn] at hat hlo hhi
  exact ⟨sym, hn, hlo, hhi, by rw [getSymbol, if_pos hp, hat]⟩

/-- Settles O38: GetSymbol by the leaves, and that no two symbols' ranges overlap. -/
theorem modelGetsymFindsSymbol : Obligations.ModelGetsymFindsSymbol := by
  intro s p hinv hf hp
  obtain ⟨sym, hs, hlo, hhi, hget⟩ := getSymbol_of_inside hinv hp
  obtain ⟨-, hle, hmost⟩ := symbolRange_valid hinv hs
  refine ⟨sym, hs, ⟨hlo, hhi, exec_of_range hf rfl (by omega) ?_⟩, fun x _ hxlo hxhi =>
    leafSum_range_unique hxlo hxhi hlo hhi⟩
  show (getSymbol p.toNat s).andThen _ = _
  rw [hget]
  rfl

/-- Settles O19: GetSymbol compares the point with TREE[1] before anything else. -/
theorem pointOutsideTotalFaults : Obligations.PointOutsideTotalFaults := by
  intro s p hf hp
  have hraised : getSymbol p.toNat s = .raised .modelRange s := if_neg (Nat.not_lt.mpr hp)
  refine exec_of_raised (i := .modelGetsym p) hf rfl ?_
  show (getSymbol p.toNat s).andThen _ = _
  rw [hraised]
  rfl

/-! ### What the model commands leave alone (R184 to R188) -/

/-- A step that writes the model only. -/
def ModelOnly (s t : State) : Prop := t = { s with model := t.model }

/-- A step that writes the results only. -/
def ResultsOnly (s t : State) : Prop := t = { s with res0 := t.res0, res1 := t.res1 }

theorem update_writes (sym : Half) (s : State) : (update sym s).All (ModelOnly s) := by
  unfold update
  split
  · dsimp only
    split <;> exact rfl
  · exact rfl

/-- A query of the model that changes no state writes its answer only. -/
theorem answer_writes {α : Type} {r : Res α} {s : State} (h : r.All (· = s)) (r0 r1 : α → Word) :
    (r.andThen fun a s => .ok () (s.writeResults (r0 a) (r1 a))).All (ResultsOnly s) := by
  refine h.andThen (fun _ hu => ?_) fun a _ _ hu => ?_ <;> subst hu <;> exact rfl

theorem exec_modelOnly {i : Instr} {s t : State} (hbody : (bodyOf i s).All (ModelOnly s)) (h : exec i s = .next t) :
    t = { s with model := t.model, fault := t.fault, cause := t.cause, faultCmd := t.faultCmd, pc := s.pc + 1 } := by
  obtain ⟨u, _, _, _, hu, rfl⟩ := exec_end (P := ModelOnly s) h rfl hbody
  unfold ModelOnly at hu
  rw [hu]

theorem exec_resultsOnly {i : Instr} {s t : State} (hbody : (bodyOf i s).All (ResultsOnly s)) (h : exec i s = .next t) :
    t = { s with
      res0 := t.res0, res1 := t.res1, fault := t.fault, cause := t.cause, faultCmd := t.faultCmd, pc := s.pc + 1 } := by
  obtain ⟨u, _, _, _, hu, rfl⟩ := exec_end (P := ResultsOnly s) h rfl hbody
  unfold ResultsOnly at hu
  rw [hu]

/-- Settles O39: each command's body writes the model only or the results only. -/
theorem modelCommandsFrame : Obligations.ModelCommandsFrame := by
  refine ⟨fun i s t hi => ?_, fun i s t hi => ?_⟩
  · rcases hi with ⟨sym, rfl⟩ | rfl
    · exact exec_modelOnly (update_writes sym s)
    · exact exec_modelOnly rfl
  · rcases hi with rfl | ⟨sym, rfl⟩ | ⟨p, rfl⟩
    · exact exec_resultsOnly rfl
    · exact exec_resultsOnly (answer_writes (symRange_all _ s) _ _)
    · exact exec_resultsOnly (answer_writes (getSymbol_all _ s) _ _)

end Sys2Proof.Machine

/-!
PROOFS. The statements of 43_control.md: what StreamReset and INIT_ENC write (R209, R211), what the two INIT commands leave
alone (R212), and that NOP alone changes nothing but pc (R210).
-/

namespace Sys2Proof.Machine

/-! ### INIT_ENC and INIT_DEC (R209, R211, R212) -/

/-- INIT_ENC outside the fault state is StreamReset and MODE = ENC, whatever the mode was (R211). -/
theorem initEnc_of_clear {s : State} (hf : s.fault = false) :
    exec .initEnc s = .next { streamReset s with mode := .enc, pc := s.pc + 1 } :=
  exec_of_ok (i := .initEnc) hf rfl rfl

/-- Settles O29: StreamReset's writes register by register, and the byte codec's 256 initial counts of 1. -/
theorem initEncOpensStream : Obligations.InitEncOpensStream :=
  ⟨fun _ => rfl, fun _ => initEnc_of_clear, by decide, _, initEnc_of_clear rfl, by decide,
    Model.reset_total (p := Params.byteCodec) (by decide)⟩

/-- What INIT_DEC's body may write: the per-stream registers, the model, MODE and the results, and the items it takes from
IN (R209, R212). -/
def InitDecFrame (s t : State) : Prop :=
  t = { s with
    engine := t.engine, carry := t.carry, look := t.look, fo := t.fo, fi := t.fi, model := t.model, mode := t.mode,
    res0 := t.res0, res1 := t.res1, inp := t.inp }

theorem initDec_writes (s : State) : (bodyOf .initDec s).All (InitDecFrame s) :=
  (initDec_frame s).mono fun u hu => by rw [InitDecFrame, hu.rest]; rfl

/-- Settles O32: INIT_ENC is ignored or completes, so it has no fault to record; INIT_DEC's frame with what a command's end
writes. -/
theorem initCommandsFrame : Obligations.InitCommandsFrame := by
  refine fun s t => ⟨fun h => ?_, fun h => ?_⟩
  · rcases exec_eq_next h with ⟨-, rfl⟩ | ⟨u, hu, rfl⟩ | ⟨-, c, u, hu, -⟩
    · rfl
    · obtain ⟨-, rfl⟩ := Res.ok.inj hu
      rfl
    · cases hu
  · obtain ⟨u, _, _, _, hu, rfl⟩ := exec_end (P := InitDecFrame s) h rfl (initDec_writes s)
    unfold InitDecFrame at hu
    rw [hu]

/-! ### NOP's word (R82, R83, R210) -/

/-- A well-formed word with OP = 0 has no other bit set. -/
theorem eq_encode_nop {w : Word} (hop : (splitWord w).op = 0) (h : wordLegal w = true) : w = encode .nop := by
  have hfields : splitWord w = Instr.nop.fields := by
    rw [Cmd.eq_of_wellFormed ((wordLegal_iff w).mp h), hop]
    rfl
  rw [encode, ← hfields, joinWord_splitWord]

/-! ### Every other command changes more than pc in some state (R210) -/

/-- The command `i` changes more than pc in some state. -/
def ChangesMoreThanPc (i : Instr) : Prop := ∃ s t, exec i s = .next t ∧ t ≠ { s with pc := s.pc + 1 }

/-- One register that `f` reads and the command writes is enough. -/
theorem ChangesMoreThanPc.of_register {α : Type} (f : State → α) {i : Instr} {s t : State} (h : exec i s = .next t)
    (hne : f t ≠ f { s with pc := s.pc + 1 }) : ChangesMoreThanPc i :=
  ⟨s, t, h, ne_of_apply_ne f hne⟩

/-- A command that faults sets FAULT. -/
theorem ChangesMoreThanPc.of_fault {i : Instr} {s t : State} (hs : s.fault = false) (h : exec i s = .next t)
    (ht : t.fault = true) : ChangesMoreThanPc i :=
  .of_register State.fault h (by simp [hs, ht])

theorem ChangesMoreThanPc.of_raised {i : Instr} {s u : State} {c : Cause} (hs : s.fault = false)
    (hi : runsInFault i = false) (h : bodyOf i s = .raised c u) : ChangesMoreThanPc i :=
  .of_fault hs (exec_of_raised hs hi h) rfl

/-- A coder command faults while no stream is open (R234). -/
theorem ChangesMoreThanPc.of_inMode {i : Instr} {m : Mode} {body : State → Res Unit} (hi : runsInFault i = false)
    (hm : .idle ≠ m) (h : bodyOf i = inMode m body) : ChangesMoreThanPc i :=
  .of_raised (s := State.reset) rfl hi (h ▸ inMode_of_ne hm)

/-- A query that answers a range sets RES1 where it was 0, because a range ends above 0. -/
theorem ChangesMoreThanPc.of_range {i : Instr} {s : State} {r0 : Word} {lo hi : Nat} (hlt : lo < hi) (hmost : hi ≤ 0x8000)
    (hres : s.res1 = 0)
    (h : exec i s = .next { s with res0 := r0, res1 := toWord (hi * 65536 + lo), pc := s.pc + 1 }) : ChangesMoreThanPc i := by
  refine .of_register State.res1 h fun heq => ?_
  have hzero : toWord (hi * 65536 + lo) = 0 := heq.trans hres
  rw [word_eq_zero_iff, toWord_toNat (by omega)] at hzero
  omega

/-- INIT_DEC on a file of one byte enters MODE = DEC. -/
theorem initDec_changesMore : ChangesMoreThanPc .initDec :=
  have hreads := (initDecReadsTwoBytes (State.reset.supplyIn (fileItems [0x37])) rfl).2.1 0x37 [] rfl
  .of_register State.mode hreads (by decide)

/-- MODEL_UPDATE moves MHEAD for a symbol of the model, and faults for another. -/
theorem modelUpdate_changesMore (sym : Half) : ChangesMoreThanPc (.modelUpdate sym) := by
  by_cases hs : sym.toNat < State.reset.params.nsym.toNat
  · obtain ⟨m, hexec, hhead, -⟩ := modelUpdateMovesWeights State.reset sym resetMeetsInv rfl hs
    refine .of_register (fun s => s.model.mhead) hexec ?_
    show m.mhead ≠ 4095
    rw [hhead]
    decide
  · exact .of_raised (s := State.reset) rfl rfl (if_neg (mt of_decide_eq_true hs))

/-- MODEL_RESET moves MHEAD back after a symbol was recorded. -/
theorem modelReset_changesMore : ChangesMoreThanPc .modelReset := by
  have hexec := exec_of_ok (i := .modelReset) (s := { State.reset with model := State.reset.model.record 256 0 }) rfl rfl rfl
  refine .of_register (fun s => s.model.mhead) hexec ?_
  show (4095 : BitVec 12) ≠ (State.reset.model.record 256 0).mhead
  rw [(Model.record_win _ _ _).2]
  decide

/-- MODEL_SYMRANGE answers the range of a symbol of the model, and faults for another. -/
theorem modelSymrange_changesMore (sym : Half) : ChangesMoreThanPc (.modelSymrange sym) := by
  by_cases hs : sym.toNat < State.reset.params.nsym.toNat
  · obtain ⟨hexec, hlt, hmost, -⟩ := modelSymrangeReturnsRange State.reset sym resetMeetsInv rfl hs
    exact .of_range hlt hmost rfl hexec
  · have hunknown : symRange (operand sym) State.reset = .raised .badSymbol State.reset :=
      if_neg (mt of_decide_eq_true hs)
    have hbody : bodyOf (.modelSymrange sym) State.reset = .raised .badSymbol State.reset := by
      show (symRange (operand sym) State.reset).andThen _ = _
      rw [hunknown, Res.raised_andThen]
    exact .of_raised rfl rfl hbody

/-- MODEL_GETSYM answers the range round a point below the total, and faults on another. -/
theorem modelGetsym_changesMore (p : Half) : ChangesMoreThanPc (.modelGetsym p) := by
  rcases Nat.lt_or_ge p.toNat State.reset.model.total with hp | hp
  · obtain ⟨sym, hs, ⟨-, -, hexec⟩, -⟩ := modelGetsymFindsSymbol State.reset p resetMeetsInv rfl hp
    obtain ⟨hlt, hle, hmost⟩ := symbolRange_valid resetMeetsInv hs
    exact .of_range hlt (hle.trans hmost) rfl hexec
  · exact .of_fault rfl (pointOutsideTotalFaults State.reset p rfl hp) rfl

/-- No debug word but RES0's own depends on RES0 (R64). -/
theorem debugRead_setRes0 (s : State) (v : Word) {a : Nat} (h : a ≠ 2) :
    debugRead { s with res0 := v } a = debugRead s a := by
  have hreg : debugRegister { s with res0 := v } a = debugRegister s a := by
    rcases Nat.lt_or_ge a 0x16 with hlt | hge
    · rcases Nat.lt_or_gt_of_ne h with h | h <;> interval_cases a <;> rfl
    · rw [debugRegister_reserved hge, debugRegister_reserved hge]
  unfold debugRead
  rw [hreg]

/-- RDREG writes RES0 with a word RES0 did not have, unless it reads RES0 itself (R213). -/
theorem rdreg_changesMore {a : Half} (h : a ≠ 2) : ChangesMoreThanPc (.rdreg a) := by
  have ha : operand a ≠ 2 := fun e => h (BitVec.eq_of_toNat_eq e)
  refine .of_register State.res0 (exec_rdreg a { State.reset with res0 := debugRead State.reset (operand a) + 1 }) ?_
  show debugRead { State.reset with res0 := _ } (operand a) ≠ debugRead State.reset (operand a) + 1
  rw [debugRead_setRes0 _ _ ha]
  simp

/-- Settles O28: a legal word with OP = 0 is NOP's, and each other command has its register to change. -/
theorem nopChangesOnlyPc : Obligations.NopChangesOnlyPc := by
  refine ⟨exec_nop, by decide, fun w hop hw => ?_, fun i hnop hres0 => ?_⟩
  · exact Bool.eq_false_iff.mpr fun hlegal => hw (eq_encode_nop hop hlegal)
  show ChangesMoreThanPc i
  cases i with
  | nop => exact absurd rfl hnop
  | initEnc => exact .of_register State.mode (initEnc_of_clear (s := State.reset) rfl) (by decide)
  | initDec => exact initDec_changesMore
  | encSym c sym => exact .of_inMode rfl (by decide) rfl
  | encEnd => exact .of_inMode rfl (by decide) rfl
  | decSym c => exact .of_inMode rfl (by decide) rfl
  | modelUpdate sym => exact modelUpdate_changesMore sym
  | modelReset => exact modelReset_changesMore
  | modelProbone =>
    exact .of_register State.res0 (exec_of_ok (i := .modelProbone) (s := State.reset) rfl rfl rfl) (by decide)
  | modelSymrange sym => exact modelSymrange_changesMore sym
  | modelGetsym p => exact modelGetsym_changesMore p
  | rdreg addr => exact rdreg_changesMore fun h => hres0 (congrArg Instr.rdreg h)

end Sys2Proof.Machine

/-!
PROOFS. The statement of 70_reset_and_hazards.md on one command of a run: the file and the message the host notes (R279).
-/

namespace Sys2Proof.Machine

theorem State.nextCommand_eq_some {s : State} {i : Instr} :
    s.nextCommand = some i ↔ ∃ w, s.nextWord = some w ∧ decode w = .ok i := by
  unfold State.nextCommand
  cases s.nextWord with
  | none => simp
  | some w => cases hd : decode w <;> simp [hd]

/-- A step of a run is the block's step, and what the host notes of it. -/
theorem Run.next_eq_next {r r' : Run} (h : r.next = .next r') : ∃ t, step r.state = .next t ∧ r' = r.noteStep t := by
  unfold Run.next at h
  cases hs : step r.state with
  | next t =>
    rw [hs] at h
    exact ⟨t, rfl, (Host.Outcome.next.inj h).symm⟩
  | fault f => simp [hs] at h
  | refused f => simp [hs] at h

/-- The host notes a command that ends with FAULT = 0. -/
theorem Run.noteStep_of_command {r : Run} {t : State} {i : Instr} (ht : t.fault = false)
    (hi : r.state.nextCommand = some i) : r.noteStep t = r.note i t := by
  simp [Run.noteStep, ht, hi]

@[simp] theorem Run.noteStep_state (r : Run) (t : State) : (r.noteStep t).state = t := by
  unfold Run.noteStep
  split
  · rfl
  · cases r.state.nextCommand with
    | none => rfl
    | some i => cases i <;> rfl

/-! What the host notes of a command (R279). -/

@[simp] theorem Run.note_state (i : Instr) (t : State) (r : Run) : (r.note i t).state = t := by cases i <;> rfl

/-- The file begins where OUT ends at an INIT_ENC. -/
@[simp] theorem Run.note_initEnc_file (t : State) (r : Run) : (r.note .initEnc t).file = [] := List.drop_length

theorem Run.note_fileStart {i : Instr} (h : i ≠ .initEnc) (t : State) (r : Run) : (r.note i t).fileStart = r.fileStart := by
  cases i with
  | initEnc => exact absurd rfl h
  | _ => rfl

/-- The bytes a command appends to OUT follow those of the file. -/
theorem Run.note_file {i : Instr} {t : State} {r : Run} {bytes : List Byte} (h : i ≠ .initEnc)
    (hstart : r.fileStart ≤ r.state.out.length) (hout : t.out = r.state.out ++ bytes) :
    (r.note i t).file = r.file ++ bytes := by
  rw [Run.file, note_fileStart h, note_state, hout, List.drop_append_of_le_length hstart, Run.file]

/-- The file begins no further than OUT reaches, because OUT only grows. -/
theorem Run.note_fileStart_le {i : Instr} {t : State} {r : Run} (hstart : r.fileStart ≤ r.state.out.length)
    (hout : r.state.out <+: t.out) : (r.note i t).fileStart ≤ t.out.length := by
  by_cases h : i = .initEnc
  · subst h
    exact Nat.le_refl _
  · rw [note_fileStart h]
    exact hstart.trans hout.length_le

/-- DEC_SYM's RES0 follows the message, unless it is the sentinel. -/
theorem Run.note_decSym_message (c : Bool) (t : State) (r : Run) :
    (r.note (.decSym c) t).message = if t.res0 = sentinel then r.message else r.message ++ [t.res0] := by
  show (r.results ++ [t.res0]).filter _ = _
  rw [List.filter_append]
  split <;> simp [*, Run.message]

theorem Run.note_message {i : Instr} (hinit : i ≠ .initDec) (hdec : ∀ c, i ≠ .decSym c) (t : State) (r : Run) :
    (r.note i t).message = r.message := by
  cases i with
  | initDec => exact absurd rfl hinit
  | decSym c => exact absurd rfl (hdec c)
  | _ => rfl

/-- A command of a run that raises no fault: exec takes the block on, and the host notes the command. -/
theorem Run.next_of_command {r r' : Run} {i : Instr} (h : r.next = .next r') (hp : r.state.params.admitted = true)
    (hi : r.state.nextCommand = some i) (hf : r'.state.fault = false) :
    ∃ t, exec i r.state = .next t ∧ r' = r.note i t := by
  obtain ⟨t, hstep, rfl⟩ := Run.next_eq_next h
  obtain ⟨w, hw, hdec⟩ := State.nextCommand_eq_some.mp hi
  rw [noteStep_state] at hf
  exact ⟨t, (step_of_legal hp hw hdec).symm.trans hstep, noteStep_of_command hf hi⟩

/-- Settles O60: the command is exec's, OUT only grows, and what the host notes is its record's. -/
theorem runNotesFileAndMessage : Obligations.RunNotesFileAndMessage := by
  intro r r' i h hp hi hf hstart
  obtain ⟨t, hexec, rfl⟩ := Run.next_of_command h hp hi hf
  have hout := (exec_ports hexec).appends
  refine ⟨by rwa [Run.note_state], by rw [Run.note_state]; exact Run.note_fileStart_le hstart hout, ?_, fun hne => ?_, ?_, ?_,
    fun hinit hdec => Run.note_message hinit hdec t r⟩
  · rintro rfl
    exact Run.note_initEnc_file t r
  · obtain ⟨bytes, hbytes⟩ := hout
    exact ⟨bytes, by rw [Run.note_state, hbytes], Run.note_file hne hstart hbytes.symm⟩
  · rintro rfl
    rfl
  · rintro c rfl
    exact Run.note_decSym_message c t r

end Sys2Proof.Machine

/-!
PROOFS. The statements of 60_exceptions.md: the fault state (R231, R243), what fault entry records (R231, R244), the
legality table (R234), unknown symbols (R233) and the empty file (R238).
-/

namespace Sys2Proof.Machine

/-! ### The fault state (R231) -/

theorem exec_of_faulted {i : Instr} {s : State} (hf : s.fault = true) (hi : runsInFault i = false) :
    exec i s = .next s.advance := by
  rw [exec_eq_command hi, command_of_faulted hf]

/-- In the fault state a command writes no more than RES0, which is RDREG's, and pc. -/
theorem exec_faulted_frame {i : Instr} {s t : State} (hf : s.fault = true) (h : exec i s = .next t) :
    t = { s with res0 := t.res0, pc := s.pc + 1 } := by
  cases i with
  | nop => exact Host.Outcome.next.inj h ▸ rfl
  | rdreg addr => exact Host.Outcome.next.inj h ▸ rfl
  | _ => exact Host.Outcome.next.inj ((exec_of_faulted hf rfl).symm.trans h) ▸ rfl

/-- Settles O15: a gated command and an illegal word are ignored, and NOP and RDREG are the two commands not gated. -/
theorem faultStateIgnoresCommands : Obligations.FaultStateIgnoresCommands := by
  intro s hf
  refine ⟨fun i hnop hrdreg => ?_, fun w hw => ?_, exec_nop s, fun a => exec_rdreg a s⟩
  · refine exec_of_faulted hf ?_
    cases i with
    | nop => exact absurd rfl hnop
    | rdreg addr => exact absurd rfl (hrdreg addr)
    | _ => rfl
  · rw [runWord_of_illegal hw, illegalWord_of_faulted hf]
    rfl

/-! ### The causes a command's steps raise, in any state (R230) -/

section
variable {α β : Type} {r q : Res α}

/-- Where the step raises, its cause is not 0, and not ModeError, which is the mode check's alone (R230, R234). -/
def Res.StepCause : Res α → Prop
  | .ok _ _ => True
  | .raised c _ => c ≠ .noFault ∧ c ≠ .modeError
  | .held => True

theorem Res.StepCause.of_eq {k : Cause} (hk : k ≠ .noFault ∧ k ≠ .modeError) (h : ∀ {c u}, r = .raised c u → c = k) :
    r.StepCause := by
  cases r with
  | ok a u => trivial
  | raised c u => exact h rfl ▸ hk
  | held => trivial

theorem Res.StepCause.ne {c : Cause} {u : State} (h : r.StepCause) (e : r = .raised c u) : c ≠ .noFault ∧ c ≠ .modeError := by
  rwa [e] at h

theorem Res.StepCause.andThen {f : α → State → Res β} (hr : r.StepCause) (hf : ∀ a u, (f a u).StepCause) :
    (r.andThen f).StepCause := by
  cases r with
  | ok a u => exact hf a u
  | raised c u => exact hr
  | held => trivial

theorem Res.StepCause.ite {c : Prop} [Decidable c] (hr : r.StepCause) (hq : q.StepCause) :
    (if c then r else q).StepCause := by
  split
  · exact hr
  · exact hq

end

/-! The bijector's two sides (R103, R105), the carry buffer over the one (R151, R154) and the look-ahead over the other
(R161 to R165). -/

theorem resolveCarry_cause (t fill : Byte) (b : Nat) (s : State) : (resolveCarry t fill b s).StepCause :=
  .of_eq (by decide) resolveCarry_raised

theorem fiNext_cause (s : State) : (fiNext s).StepCause :=
  .of_eq (by decide) fun h => (fiNext_raised h).1

theorem byteWithCarry_cause (b : Nat) (s : State) : (byteWithCarry b s).StepCause :=
  .ite (.ite ⟨nofun, nofun⟩ trivial) (.ite (.ite ⟨nofun, nofun⟩ (resolveCarry_cause _ _ _ s))
    (.ite (resolveCarry_cause _ _ _ s) (.ite ⟨nofun, nofun⟩ trivial)))

theorem coderEnd_cause (s : State) : (coderEnd s).StepCause :=
  (byteWithCarry_cause _ s).andThen fun _ u => (byteWithCarry_cause _ u).andThen fun _ v =>
    (byteWithCarry_cause _ v).andThen fun _ w => .ite (byteWithCarry_cause 0 w) trivial

theorem nextByte_cause (s : State) : (nextByte s).StepCause :=
  .ite trivial (.ite trivial ((fiNext_cause s).andThen fun _ _ => trivial))

theorem pull_cause (s : State) : (pull s).StepCause :=
  .ite ((nextByte_cause s).andThen fun _ _ => trivial) trivial

theorem exhaustedLoop_cause (n : Nat) (s : State) : (exhaustedLoop n s).StepCause := by
  induction n generalizing s with
  | zero => trivial
  | succ n ih =>
    exact .ite trivial ((fiNext_cause s).andThen fun _ _ =>
      .ite trivial (.ite (.ite ⟨nofun, nofun⟩ (ih _)) (ih _)))

theorem endTest_cause (c : Bool) (s : State) : (endTest c s).StepCause :=
  .ite (exhaustedLoop_cause _ s) trivial

/-! The interval engine's steps (R143 to R148). -/

theorem narrow_cause (lo hi p : Nat) (s : State) : (narrow lo hi p s).StepCause :=
  .ite (.ite ⟨nofun, nofun⟩ trivial) ⟨nofun, nofun⟩

theorem cap_cause (s : State) : (cap s).StepCause := .ite trivial ⟨nofun, nofun⟩

theorem takeValueIf_cause (dir : Dir) (newl : Nat) (s : State) : (takeValueIf dir newl s).StepCause := by
  cases dir with
  | enc => trivial
  | dec => exact .ite ⟨nofun, nofun⟩ trivial

theorem pullIf_cause (dir : Dir) (s : State) : (pullIf dir s).StepCause := by
  cases dir with
  | enc => trivial
  | dec => exact pull_cause s

theorem detachIf_cause (dir : Dir) (s : State) : (detachIf dir s).StepCause := by
  refine .ite ?_ trivial
  cases dir with
  | enc => exact (byteWithCarry_cause _ s).andThen fun _ _ => trivial
  | dec => trivial

theorem renormLoop_cause (n : Nat) (dir : Dir) (s : State) : (renormLoop n dir s).StepCause := by
  induction n generalizing s with
  | zero => trivial
  | succ n ih =>
    exact .ite ((pullIf_cause dir s).andThen fun _ _ => (detachIf_cause dir _).andThen fun _ u => ih u) trivial

theorem symbolSteps_cause (lo hi p : Nat) (c : Bool) (dir : Dir) (s : State) : (symbolSteps lo hi p c dir s).StepCause :=
  (narrow_cause lo hi p _).andThen fun newl u => (takeValueIf_cause dir newl u).andThen fun _ _ =>
    (cap_cause _).andThen fun _ v => renormLoop_cause 16 dir v

/-! The model's steps (R181 to R183), and with them the commands. -/

theorem symRange_cause (sym : Nat) (s : State) : (symRange sym s).StepCause := .ite trivial ⟨nofun, nofun⟩

theorem getSymbol_cause (p : Nat) (s : State) : (getSymbol p s).StepCause := .ite trivial ⟨nofun, nofun⟩

theorem update_cause (sym : Half) (s : State) : (update sym s).StepCause :=
  .ite (.ite trivial ⟨nofun, nofun⟩) ⟨nofun, nofun⟩

theorem encodeSymbol_cause (sym : Nat) (c : Bool) (s : State) : (encodeSymbol sym c s).StepCause :=
  (symRange_cause sym s).andThen fun _ u => symbolSteps_cause _ _ _ c .enc u

theorem decodeSymbol_cause (c : Bool) (s : State) : (decodeSymbol c s).StepCause :=
  (getSymbol_cause _ s).andThen fun _ u => (symbolSteps_cause _ _ _ c .dec u).andThen fun _ _ => trivial

/-! ### The mode check (R234) -/

/-- In its mode a command raises what its steps raise. -/
theorem inMode_cause {m : Mode} {body : State → Res Unit} {s : State} (hm : (s.mode == m) = true)
    (hbody : (body s).StepCause) : (inMode m body s).StepCause := by
  rwa [inMode_of_eq (eq_of_beq hm)]

/-- A command that is legal in its mode raises a cause of its steps, in any state. -/
theorem bodyOf_cause {i : Instr} {s : State} (h : legalIn i s.mode = true) : (bodyOf i s).StepCause := by
  cases i with
  | nop => trivial
  | initEnc => trivial
  | initDec => exact .of_eq (by decide) decStart_raised
  | encSym c sym => exact inMode_cause h (encodeSymbol_cause _ c s)
  | encEnd =>
    unfold bodyOf
    exact inMode_cause h ((coderEnd_cause s).andThen fun _ _ => trivial)
  | decSym c =>
    unfold bodyOf
    exact inMode_cause h ((endTest_cause c s).andThen fun _ u => .ite trivial (decodeSymbol_cause c u))
  | modelUpdate sym => exact update_cause sym s
  | modelReset => trivial
  | modelProbone => trivial
  | modelSymrange sym => exact (symRange_cause _ s).andThen fun _ _ => trivial
  | modelGetsym p => exact (getSymbol_cause _ s).andThen fun _ _ => trivial
  | rdreg addr => trivial

/-- Only the coder commands have modes, and outside them the mode check stops their bodies before any write. -/
theorem bodyOf_of_illegal {i : Instr} {s : State} (h : legalIn i s.mode = false) :
    runsInFault i = false ∧ bodyOf i s = .raised .modeError s := by
  unfold bodyOf
  cases i with
  | encSym c sym => exact ⟨rfl, inMode_of_ne (beq_eq_false_iff_ne.mp h)⟩
  | encEnd => exact ⟨rfl, inMode_of_ne (beq_eq_false_iff_ne.mp h)⟩
  | decSym c => exact ⟨rfl, inMode_of_ne (beq_eq_false_iff_ne.mp h)⟩
  | _ => cases h

/-- Whatever the mode, a body raises a cause that is not 0. -/
theorem bodyOf_raised_ne_noFault {i : Instr} {s u : State} {c : Cause} (h : bodyOf i s = .raised c u) : c ≠ .noFault := by
  cases hl : legalIn i s.mode with
  | true => exact ((bodyOf_cause hl).ne h).1
  | false =>
    obtain ⟨rfl, -⟩ := Res.raised.inj ((bodyOf_of_illegal hl).2.symm.trans h)
    nofun

/-! ### Fault entry (R231, R244) -/

/-- A command that enters the fault state is one whose body raised, and it records that cause and its own word. -/
theorem exec_enters_fault {i : Instr} {s t : State} (h : exec i s = .next t) (hs : s.fault = false) (ht : t.fault = true) :
    ∃ u, bodyOf i s = .raised t.cause u ∧ t.faultCmd = encode i := by
  rcases exec_eq_next h with ⟨hf, -⟩ | ⟨u, hu, rfl⟩ | ⟨-, c, u, hu, rfl⟩
  · simp [hs] at hf
  · have hfr := (bodyOf_frame i s).of_ok hu
    simp [hfr.fault, hs] at ht
  · have hfu : u.fault = false := ((bodyOf_frame i s).of_raised hu).fault.trans hs
    rw [State.faultEntry_of_clear hfu]
    exact ⟨u, hu, rfl⟩

/-- A command that leaves no fault has written neither CAUSE nor FAULTCMD. -/
theorem exec_keeps_cause {i : Instr} {s t : State} (h : exec i s = .next t) (ht : t.fault = false) :
    t.cause = s.cause ∧ t.faultCmd = s.faultCmd := by
  rcases exec_eq_next h with ⟨-, rfl⟩ | ⟨u, hu, rfl⟩ | ⟨-, c, u, -, rfl⟩
  · exact ⟨rfl, rfl⟩
  · have hfr := (bodyOf_frame i s).of_ok hu
    exact ⟨hfr.cause, hfr.faultCmd⟩
  · simp at ht

/-- Settles O16: the frame of the fault state, the cause of the body that raised, and the frame of the commands' bodies. -/
theorem firstFaultIsRecorded : Obligations.FirstFaultIsRecorded := by
  refine fun i s t h => ⟨fun hs => ?_, fun hs ht => ?_, exec_keeps_cause h⟩
  · rw [exec_faulted_frame hs h]
    exact ⟨hs, rfl, rfl, rfl⟩
  · obtain ⟨u, hu, hword⟩ := exec_enters_fault h hs ht
    exact ⟨bodyOf_raised_ne_noFault hu, hword⟩

/-- Settles O17: the statement's table is legalIn's, and a legal command raises a cause of its steps. -/
theorem modeErrorTable : Obligations.ModeErrorTable := by
  intro i s hf needs
  have htable : legalIn i s.mode = needs.all (s.mode == ·) := by cases i <;> rfl
  refine ⟨fun m hneeds hm => ?_, fun hneeds t h ht => ?_⟩
  · have hillegal : legalIn i s.mode = false := by simpa [htable, hneeds] using hm
    obtain ⟨hgated, hbody⟩ := bodyOf_of_illegal hillegal
    exact exec_of_raised hf hgated hbody
  · have hlegal : legalIn i s.mode = true := by rcases hneeds with hneeds | hneeds <;> simp [htable, hneeds]
    obtain ⟨u, hu, -⟩ := exec_enters_fault h hf ht
    exact ((bodyOf_cause hlegal).ne hu).2

/-! ### Unknown symbols (R233) -/

theorem symRange_of_unknown {s : State} {sym : Nat} (h : s.params.nsym.toNat ≤ sym) :
    symRange sym s = .raised .badSymbol s :=
  if_neg (mt of_decide_eq_true (Nat.not_lt.mpr h))

theorem update_of_unknown {s : State} {sym : Half} (h : s.params.nsym.toNat ≤ sym.toNat) :
    update sym s = .raised .badSymbol s :=
  if_neg (mt of_decide_eq_true (Nat.not_lt.mpr h))

/-- Settles O18: each of the three commands begins with the symbol's check, ENC_SYM after its mode check. -/
theorem badSymbolOperands : Obligations.BadSymbolOperands := by
  intro s sym hf hsym
  have hrange : symRange (operand sym) s = .raised .badSymbol s := symRange_of_unknown hsym
  have hencSym (c : Bool) (hm : s.mode = .enc) : bodyOf (.encSym c sym) s = .raised .badSymbol s := by
    rw [bodyOf, inMode_of_eq hm, encodeSymbol, hrange, Res.raised_andThen]
  have hsymrange : bodyOf (.modelSymrange sym) s = .raised .badSymbol s := by
    show (symRange (operand sym) s).andThen _ = _
    rw [hrange, Res.raised_andThen]
  refine ⟨fun c hm => exec_of_raised hf rfl (hencSym c hm), exec_of_raised hf rfl (update_of_unknown hsym),
    exec_of_raised hf rfl hsymrange, ?_⟩
  rintro rfl rfl
  exact ⟨_, exec_of_raised hf rfl (hencSym false rfl), by decide⟩

/-! ### The empty file (R238) -/

/-- The end mark as a file's first item is taken from IN and raises EmptyStream (R105). -/
theorem fiNext_emptyFile {s : State} {rest : List InItem} (heof : s.fi.eof = false) (hfirst : s.fi.first = true)
    (hin : s.inp = .eof :: rest) : fiNext s = .raised .emptyStream { s with inp := rest } :=
  (fiNext_item heof hin).trans (if_pos hfirst)

/-- DecStart stops at its first read of an empty file, before it writes VALUE (R159). -/
theorem decStart_emptyFile {s : State} {rest : List InItem} (hl : s.look = LookAhead.reset) (hfi : s.fi = FiSide.reset)
    (hin : s.inp = .eof :: rest) : decStart s = .raised .emptyStream { s with inp := rest } := by
  unfold decStart
  rw [nextByte_fresh (by rw [hl]; rfl) (by rw [hl]; rfl), fiNext_emptyFile (by rw [hfi]; rfl) (by rw [hfi]; rfl) hin]
  rfl

/-- Settles O20: INIT_DEC resets the stream before it reads, so the end mark it meets is a file's first item. -/
theorem emptyFileFaults : Obligations.EmptyFileFaults := by
  refine ⟨fun s rest => fiNext_emptyFile, fun s rest hf hin => ?_⟩
  have hbody : bodyOf .initDec s = .raised .emptyStream { streamReset s with mode := .dec, inp := rest } :=
    decStart_emptyFile rfl rfl hin
  refine ⟨_, exec_of_raised hf rfl hbody, rfl, ?_⟩
  show (((0#20 ++ Cause.emptyStream.code) ++ 0#4) ++ BitVec.ofBool true) ++ Mode.dec.code = (0x90B : Word)
  decide

end Sys2Proof.Machine

/-!
PROOFS. The statements of 70_reset_and_hazards.md on reset and the host's IN duty: the registers after power-on reset (R260),
that IN items supplied ahead of need change no command (R275), and that a command ends when the host does its duty (R278).
-/

namespace Sys2Proof.Machine

/-! ### Every command ends (R278) -/

/-- Settles O27: a command that reaches no next state holds for want of an EOF that the duty supplies. -/
theorem everyCommandEndsUnderInputDuty : Obligations.EveryCommandEndsUnderInputDuty := by
  intro i s hinit hdec
  cases h : exec i s with
  | next t => exact ⟨t, rfl⟩
  | fault f =>
    obtain ⟨-, -, hin, hi | ⟨hi, -, heof⟩⟩ := commandsHoldOnlyForInput.1 i s f h
    · exact absurd (hinit hi) hin
    · exact absurd (hdec hi) (not_inDuty_iff.mpr ⟨heof, hin⟩)
  | refused r => exact absurd h (exec_not_refused i s r)

/-! ### Power-on reset (R260) -/

/-- A symbol's count after ModelReset: the window is empty, so it adds no weight (R185). -/
theorem Model.reset_leaf {p : Params} (hp : p.admitted = true) {x : Nat} (hx : x < p.nsym.toNat) :
    (Model.reset p).count (p.z + x) = p.leafBase.toNat := by
  have hnsym := ((admitted_iff p).mp hp).2.2.1
  rw [(Model.reset_cells p hp).leafCount hp hx, Model.reset_weight (by omega), Nat.add_zero]

/-- StreamReset finds every register it writes at its reset value already (R209, R260). -/
theorem streamReset_powerOn (p : Params) : streamReset (State.powerOn p) = State.powerOn p := rfl

/-- Settles O9: the model's counts are ModelReset's, the INIT commands' StreamReset changes nothing, and the fault state's
frame leaves FAULT set. -/
theorem resetRegisterValues : Obligations.ResetRegisterValues := by
  refine ⟨fun p hp => ?_, rfl, fun i s t hs h => ?_⟩
  · have hm : ModelInv p (Model.reset p) := (powerOnMeetsInv p hp).model
    refine ⟨by simp [Engine.reset, Carry.reset], by simp [LookAhead.reset], by simp [FoSide.reset, FiSide.reset],
      ⟨fun x => Model.reset_leaf hp, hm.padding, hm.innerSum, hm.unusedZero, Model.reset_slot p, rfl⟩,
      ⟨rfl, rfl, rfl, rfl, rfl, rfl⟩, ⟨rfl, List.nil_append, rfl, rfl⟩, ?_, ?_⟩
    · rw [initEnc_of_clear rfl, streamReset_powerOn]
      rfl
    · rw [initDec_of_clear rfl, decodeOpened, streamReset_powerOn]
  · rw [exec_faulted_frame hs h]
    exact hs

/-! ### Items supplied ahead of need (R275) -/

section
variable {α β : Type} {items : List InItem} {r r' q q' : Res α}

/-- `r'` is what `r` answers, with `items` standing behind those on IN: nothing is said of a step that holds, which the items
may let go on. -/
def Res.MoreIn (items : List InItem) (r r' : Res α) : Prop := r ≠ .held → r' = r.mapState (·.supplyIn items)

theorem Res.MoreIn.of_eq (h : r' = r.mapState (·.supplyIn items)) : r.MoreIn items r' := fun _ => h

theorem Res.MoreIn.andThen {f f' : α → State → Res β} (hr : r.MoreIn items r')
    (hf : ∀ a u, (f a u).MoreIn items (f' a (u.supplyIn items))) : (r.andThen f).MoreIn items (r'.andThen f') := by
  cases r with
  | ok a u => rw [hr nofun]; exact hf a u
  | raised c u => rw [hr nofun]; exact .of_eq rfl
  | held => exact fun h => absurd rfl h

theorem Res.MoreIn.ite {c : Prop} [Decidable c] (hr : r.MoreIn items r') (hq : q.MoreIn items q') :
    (if c then r else q).MoreIn items (if c then r' else q') := by
  split
  · exact hr
  · exact hq

end

/-- More items on IN than the step `f` takes stay there and change nothing else. -/
def TakesOnlyNeeded {α : Type} (f : State → Res α) : Prop := ∀ items s, (f s).MoreIn items (f (s.supplyIn items))

theorem TakesOnlyNeeded.inMode {m : Mode} {body : State → Res Unit} (h : TakesOnlyNeeded body) :
    TakesOnlyNeeded (inMode m body) :=
  fun items s => .ite (h items s) (.of_eq rfl)

/-! FI_Next alone takes items, and holds when it finds none (R105); the decoder reads through it (R159, R161, R164, R165). -/

theorem fileIn_needed : TakesOnlyNeeded fileIn := by
  intro items s
  cases h : s.inp with
  | nil => exact fun hheld => absurd (fileIn_nil h) hheld
  | cons item rest =>
    have hmore : (s.supplyIn items).inp = item :: (rest ++ items) := by rw [State.supplyIn_inp, h, List.cons_append]
    rw [fileIn_cons h, fileIn_cons hmore]
    exact .of_eq rfl

theorem fiItem_needed (item : InItem) : TakesOnlyNeeded (fiItem item) := by
  cases item with
  | eof => exact fun _ _ => .ite (.of_eq rfl) (.of_eq rfl)
  | byte b => exact fun _ _ => .of_eq rfl

theorem fiNext_needed : TakesOnlyNeeded fiNext := fun items s =>
  .ite (.of_eq rfl) ((fileIn_needed items s).andThen fun item u => fiItem_needed item items u)

theorem nextByte_needed : TakesOnlyNeeded nextByte := fun items s =>
  .ite (.of_eq rfl) (.ite (.of_eq rfl) ((fiNext_needed items s).andThen fun _ _ => .of_eq rfl))

theorem pull_needed : TakesOnlyNeeded pull := fun items s =>
  .ite ((nextByte_needed items s).andThen fun _ _ => .of_eq rfl) (.of_eq rfl)

theorem decStart_needed : TakesOnlyNeeded decStart := fun items s =>
  (nextByte_needed items s).andThen fun t u =>
    (nextByte_needed items { u with look := { u.look with value := toWord (t.toNat <<< 8) } }).andThen fun _ _ => .of_eq rfl

/-- Exhausted has more turns with more items on IN, and ends in the same one (log entry 7). -/
theorem exhaustedLoop_needed {n m : Nat} (hnm : n ≤ m) (items : List InItem) (s : State) :
    (exhaustedLoop n s).MoreIn items (exhaustedLoop m (s.supplyIn items)) := by
  induction n generalizing m s with
  | zero => exact fun h => absurd rfl h
  | succ n ih =>
    obtain ⟨m, rfl⟩ := Nat.exists_eq_add_of_lt hnm
    have hle : n ≤ n + m := Nat.le_add_right n m
    refine .ite (.of_eq rfl) ((fiNext_needed items s).andThen fun t u => ?_)
    refine .ite (.of_eq rfl) (.ite (.ite (.of_eq rfl) ?_) ?_)
    · exact ih hle { u with look := { u.look with followBuf := u.look.followBuf + 1 } }
    · exact ih hle { u with look := { u.look with followByte := t.1, fbValid := true } }

theorem exhausted_needed : TakesOnlyNeeded exhausted := fun items s =>
  exhaustedLoop_needed (by simp) items s

theorem endTest_needed (c : Bool) : TakesOnlyNeeded (endTest c) := fun items s =>
  .ite (exhausted_needed items s) (.of_eq rfl)

/-! The bijector's output side and the encoder's steps take no item (R103, R104, R151, R154). -/

theorem foDigit_supplyIn (t : Byte) (items : List InItem) (s : State) :
    foDigit t (s.supplyIn items) = (foDigit t s).supplyIn items := by
  unfold foDigit
  rw [apply_ite (State.supplyIn · items)]
  rfl

theorem foEnd_supplyIn (items : List InItem) (s : State) : foEnd (s.supplyIn items) = (foEnd s).supplyIn items := by
  unfold foEnd
  rw [apply_ite (State.supplyIn · items)]
  rfl

theorem foPut_needed (t : Byte) : TakesOnlyNeeded (foPut t) := fun items s =>
  .ite (.of_eq rfl) (.ite
    (.ite (.ite (.of_eq rfl) (.of_eq rfl)) (.of_eq (congrArg (Res.ok ()) (foDigit_supplyIn t items (foFlush s)))))
    (.of_eq (congrArg (Res.ok ()) (foDigit_supplyIn t items s))))

theorem foPutRun_needed (n : Nat) (t : Byte) : TakesOnlyNeeded (foPutRun n t) := by
  induction n with
  | zero => exact fun _ _ => .of_eq rfl
  | succ n ih => exact fun items s => (foPut_needed t items s).andThen fun _ u => ih items u

theorem resolveCarry_needed (t fill : Byte) (b : Nat) : TakesOnlyNeeded (resolveCarry t fill b) := fun items s =>
  (foPut_needed t items s).andThen fun _ u => (foPutRun_needed _ fill items u).andThen fun _ _ => .of_eq rfl

theorem byteWithCarry_needed (b : Nat) : TakesOnlyNeeded (byteWithCarry b) := fun items s =>
  .ite (.ite (.of_eq rfl) (.of_eq rfl)) (.ite (.ite (.of_eq rfl) (resolveCarry_needed _ _ _ items s))
    (.ite (resolveCarry_needed _ _ _ items s) (.ite (.of_eq rfl) (.of_eq rfl))))

theorem coderEnd_needed : TakesOnlyNeeded coderEnd := fun items s =>
  (byteWithCarry_needed _ items s).andThen fun _ u => (byteWithCarry_needed _ items u).andThen fun _ v =>
    (byteWithCarry_needed _ items v).andThen fun _ w => .ite (byteWithCarry_needed 0 items w) (.of_eq rfl)

/-! The interval engine's steps (R143 to R148): Renorm takes what Pull takes. -/

theorem narrow_needed (lo hi p : Nat) : TakesOnlyNeeded (narrow lo hi p) := fun _ _ =>
  .ite (.ite (.of_eq rfl) (.of_eq rfl)) (.of_eq rfl)

theorem cap_needed : TakesOnlyNeeded cap := fun _ _ => .ite (.of_eq rfl) (.of_eq rfl)

theorem takeValueIf_needed (dir : Dir) (newl : Nat) : TakesOnlyNeeded (takeValueIf dir newl) := by
  cases dir with
  | enc => exact fun _ _ => .of_eq rfl
  | dec => exact fun _ _ => .ite (.of_eq rfl) (.of_eq rfl)

theorem pullIf_needed (dir : Dir) : TakesOnlyNeeded (pullIf dir) := by
  cases dir with
  | enc => exact fun _ _ => .of_eq rfl
  | dec => exact pull_needed

theorem detachIf_needed (dir : Dir) : TakesOnlyNeeded (detachIf dir) := by
  refine fun items s => .ite ?_ (.of_eq rfl)
  cases dir with
  | enc => exact (byteWithCarry_needed _ items s).andThen fun _ _ => .of_eq rfl
  | dec => exact .of_eq rfl

theorem renormLoop_needed (n : Nat) (dir : Dir) : TakesOnlyNeeded (renormLoop n dir) := by
  induction n with
  | zero => exact fun _ _ => .of_eq rfl
  | succ n ih =>
    refine fun items s => .ite ((pullIf_needed dir items s).andThen fun _ u => ?_) (.of_eq rfl)
    exact (detachIf_needed dir items { u with engine := u.engine.double }).andThen fun _ v => ih items v

theorem symbolSteps_needed (lo hi p : Nat) (c : Bool) (dir : Dir) : TakesOnlyNeeded (symbolSteps lo hi p c dir) := fun items s =>
  (narrow_needed lo hi p items { s with engine := s.engine.reserveIf c }).andThen fun newl u =>
    (takeValueIf_needed dir newl items u).andThen fun _ v =>
      (cap_needed items { v with engine := v.engine.reseat }).andThen fun _ w => renormLoop_needed 16 dir items w

/-! The model's steps (R181 to R183), and with them the commands. -/

theorem symRange_needed (sym : Nat) : TakesOnlyNeeded (symRange sym) := fun _ _ => .ite (.of_eq rfl) (.of_eq rfl)

theorem getSymbol_needed (p : Nat) : TakesOnlyNeeded (getSymbol p) := fun _ _ => .ite (.of_eq rfl) (.of_eq rfl)

theorem update_needed (sym : Half) : TakesOnlyNeeded (update sym) := fun _ _ =>
  .ite (.ite (.of_eq rfl) (.of_eq rfl)) (.of_eq rfl)

theorem encodeSymbol_needed (sym : Nat) (c : Bool) : TakesOnlyNeeded (encodeSymbol sym c) := fun items s =>
  (symRange_needed sym items s).andThen fun r u => symbolSteps_needed r.1 r.2 u.model.total c .enc items u

theorem decodeSymbol_needed (c : Bool) : TakesOnlyNeeded (decodeSymbol c) := fun items s =>
  (getSymbol_needed (symbolPoint s) items s).andThen fun r u =>
    (symbolSteps_needed r.2.1 r.2.2 u.model.total c .dec items u).andThen fun _ _ => .of_eq rfl

theorem bodyOf_needed (i : Instr) : TakesOnlyNeeded (bodyOf i) := by
  cases i with
  | nop => exact fun _ _ => .of_eq rfl
  | initEnc => exact fun _ _ => .of_eq rfl
  | initDec => exact fun items s => decStart_needed items (decodeOpened s)
  | encSym c sym => exact (encodeSymbol_needed (operand sym) c).inMode
  | encEnd =>
    refine TakesOnlyNeeded.inMode fun items s => (coderEnd_needed items s).andThen fun _ u => ?_
    rw [foEnd_supplyIn]
    exact .of_eq rfl
  | decSym c =>
    exact TakesOnlyNeeded.inMode fun items s => (endTest_needed c items s).andThen fun _ u =>
      .ite (.of_eq rfl) (decodeSymbol_needed c items u)
  | modelUpdate sym => exact update_needed sym
  | modelReset => exact fun _ _ => .of_eq rfl
  | modelProbone => exact fun _ _ => .of_eq rfl
  | modelSymrange sym => exact fun items s => (symRange_needed _ items s).andThen fun _ _ => .of_eq rfl
  | modelGetsym p => exact fun items s => (getSymbol_needed _ items s).andThen fun _ _ => .of_eq rfl
  | rdreg addr => exact fun _ _ => .of_eq rfl

theorem faultEntry_supplyIn (items : List InItem) (s : State) (c : Cause) (w : Word) :
    (s.supplyIn items).faultEntry c w = (s.faultEntry c w).supplyIn items := by
  unfold State.faultEntry
  rw [apply_ite (State.supplyIn · items)]
  rfl

/-- A command's end moves nothing of IN. -/
theorem finish_supplyIn (w : Word) (items : List InItem) (r : Res Unit) :
    finish w (r.mapState (State.supplyIn · items)) = outcomeMap (State.supplyIn · items) (finish w r) := by
  cases r with
  | ok a u => rfl
  | raised c u => exact congrArg Host.Outcome.next (faultEntry_supplyIn items u c w)
  | held => rfl

/-- Settles O25: a command that reaches a next state has not held, and no step of it reads the items behind those it takes. -/
theorem laterItemsChangeNothing : Obligations.LaterItemsChangeNothing := by
  intro i s t items h
  rw [exec_eq_gate] at h ⊢
  split at h
  · next hgate =>
    obtain rfl := Host.Outcome.next.inj h
    exact if_pos hgate
  · next hgate =>
    have hbody : bodyOf i s ≠ .held := fun hheld => by simp [hheld, finish] at h
    refine (if_neg hgate).trans ?_
    rw [bodyOf_needed i items s hbody, finish_supplyIn, h]
    rfl

end Sys2Proof.Machine
